-- ==== Sys2Proof/Word.lean ====
section
/-! DEFINITION. The widths of the GameCore core (00_scope R7) and the type of text (00_scope R14). -/

namespace Sys2Proof

/-- A 32-bit value: the `av` facet, a memory cell, a stack entry (AV_WIDTH, CELL_WIDTH of R7). Signed values are read
with `BitVec.toInt`. -/
abbrev Word := BitVec 32

/-- A 64-bit value: the `lv` facet (LV_WIDTH of R7). -/
abbrev Wide := BitVec 64

/-- The 8-bit `fv` facet (FV_WIDTH of R7). -/
abbrev FlagBits := BitVec 8

/-- A Unicode code point (00_scope R14, 10_state R32): a scalar value, which is a character, or one of the 2048
surrogates from 0xD800 on. -/
inductive CodePoint where
  | scalar (c : Char)
  | surrogate (k : Fin 2048)
deriving DecidableEq, Repr

/-- `code(c)`: the number of a code point (00_scope R14). -/
def CodePoint.code : CodePoint → Nat
  | .scalar c => c.toNat
  | .surrogate k => 0xD800 + k.val

/-- A text: a line, a token, a generic value's text, as a string of code points (00_scope R14, 10_state R32); log 1. -/
abbrev Text := List CodePoint

/-- The text of some characters. -/
abbrev chars (cs : List Char) : Text := cs.map .scalar

end Sys2Proof

/-- A string literal as a text. -/
def String.toText (s : String) : Sys2Proof.Text := Sys2Proof.chars s.toList
end

