-- ==== Sys2Proof/Syntax.lean ====
section
/-! DEFINITION. The instructions of the GameCore core: one constructor of `Instr` for each row of
spec/opcode_table.json, over the operand kinds of 30_encoding R145-R155 as the decoder resolves them. -/

namespace Sys2Proof

/-- The 25 registers of 10_state R30, in id order. -/
inductive Reg where
  | eax | ebx | ecx | edx | esi | edi | ebp | esp
  | cs | ds | es | fs | gs | ss
  | cr0 | cr1 | cr2 | cr3
  | dr0 | dr1 | dr2 | dr3
  | flags | mc | pc
deriving DecidableEq, Repr

/-- The seven named bits of the condition code, in bit order (10_state R50, 30_encoding R151). -/
inductive Flag where
  | zero | positive | negative | carry | overflow | copied | failure
deriving DecidableEq, Repr

/-- The two memory labels (10_state R71). -/
inductive MemLabel where
  | text | reserved
deriving DecidableEq, Repr

/-- An operand of kind SRC_AV: a 32-bit literal, or a register whose `av` is read (30_encoding R147). -/
inductive SrcAv where
  | lit (v : Word)
  | reg (r : Reg)
deriving DecidableEq, Repr

/-- An operand of kind SRC_LV: a 64-bit literal, or a register whose `lv` is read (30_encoding R148). -/
inductive SrcLv where
  | lit (v : Wide)
  | reg (r : Reg)
deriving DecidableEq, Repr

/-- An operand of kind ADDR: a 32-bit literal, a memory label, or a register whose `av` is read (30_encoding R150). -/
inductive Addr where
  | lit (v : Word)
  | memLabel (m : MemLabel)
  | reg (r : Reg)
deriving DecidableEq, Repr

/-- An operand of kind STRADDR: an address as for ADDR, or a literal string (30_encoding R153). -/
inductive StrAddr where
  | addr (a : Addr)
  | literal (t : Text)
deriving DecidableEq, Repr

/-- An operand of kind GVAL: a register whose generic value is read, or a text (30_encoding R155). -/
inductive GArg where
  | reg (r : Reg)
  | text (t : Text)
deriving DecidableEq, Repr

/-- The diagnostic codes of 60_exceptions R401, in the order of its table. -/
inductive DiagCode where
  | arity | literal | unknownReg | unknownLabel | unknownFlag | memOob | divZero
  | stackEmpty | stackFull | badRange | literalTooLong
  | missingImport | malformedDefinition
  | unknownMnemonic | pcRange
  | retUnderflow
deriving DecidableEq, Repr

/-- The instructions, one constructor per row of spec/opcode_table.json (30_encoding R160), in the table's order.
A LABEL operand stays a name: it is looked up in the LROM when the instruction executes (30_encoding R149). -/
inductive Instr where
  -- movement (41_movement)
  | set (r : Reg) (ts : List Text)
  | setAV (r : Reg) (x : SrcAv)
  | setLV (r : Reg) (x : SrcLv)
  | mov (d s : Reg)
  | movv (d s : Reg)
  -- arithmetic and bitwise (42_arithmetic)
  | add (d : Reg) (x : SrcAv)
  | sub (d : Reg) (x : SrcAv)
  | mul (d : Reg) (x : SrcAv)
  | div (d : Reg) (x : SrcAv)
  | mod (d : Reg) (x : SrcAv)
  | shl (d : Reg) (x : SrcAv)
  | shr (d : Reg) (x : SrcAv)
  | and (d : Reg) (x : SrcAv)
  | or (d : Reg) (x : SrcAv)
  | xor (d : Reg) (x : SrcAv)
  | not (d : Reg)
  -- comparison and flag writes (43_comparison)
  | cmp (d : Reg) (x : SrcAv)
  | cmpv (t1 t2 : GArg)
  | setflag (f : Flag)
  | clearflag (f : Flag)
  -- control flow and stack (44_control_flow)
  | jmp (l : Text)
  | jz (l : Text)
  | jnz (l : Text)
  | jn (l : Text)
  | jnn (l : Text)
  | jp (l : Text)
  | jnp (l : Text)
  | jf (l : Text)
  | jnf (l : Text)
  | jo (l : Text)
  | jno (l : Text)
  | call (l : Text)
  | ret
  | loop (l : Text)
  | exit (n : Option SrcAv)
  | push (x : SrcAv)
  | pop (r : Reg)
  -- memory (45_memory_ops)
  | readMem (a : Addr) (r : Option Reg)
  | writeRawMem (a : Addr) (v : SrcAv)
  | writeMem (a : Addr) (ts : List Text)
  | fillMem (a : Addr) (n v : SrcAv)
  | copyMem (src dst : Addr) (n : SrcAv)
  | cmpMem (a b : Addr) (n : SrcAv)
  | cmpStr (a : Addr) (b : StrAddr)
  | printMem (a : Addr) (n : SrcAv)
  | printStr (a : Addr)
  -- I/O and meta (46_io_meta)
  | read (r : Reg)
  | readKey (r : Reg)
  | write (ts : List Text)
  | writeln (ts : List Text)
  | writeAV (r : Reg)
  | writeLV (r : Reg)
  | writeFV (r : Reg)
  | writeVal (r : Reg)
  | dump
  | sleep (ms : SrcAv)
  | rand (r : Reg) (lo hi : SrcAv)
  | os (r : Reg)
  | beep
  | cmovf (f : Flag) (d s : Reg)
  | brk
  -- the three no-op line classes (40_dispatch_loop R184-R186)
  | label (name : Text)
  | directive (name : Text)
  | empty
deriving DecidableEq, Repr

end Sys2Proof
end

