-- ==== Sys2Proof/Machine/Names.lean ====
section
/-! DEFINITION. The names and numbers the spec gives registers, flags, memory labels and diagnostics. -/

namespace Sys2Proof

/-- Register ids (10_state R30). -/
def Reg.id : Reg → Fin 25
  | .eax => 0 | .ebx => 1 | .ecx => 2 | .edx => 3 | .esi => 4 | .edi => 5 | .ebp => 6 | .esp => 7
  | .cs => 8 | .ds => 9 | .es => 10 | .fs => 11 | .gs => 12 | .ss => 13
  | .cr0 => 14 | .cr1 => 15 | .cr2 => 16 | .cr3 => 17
  | .dr0 => 18 | .dr1 => 19 | .dr2 => 20 | .dr3 => 21
  | .flags => 22 | .mc => 23 | .pc => 24

/-- The registers in id order (10_state R30). -/
def Reg.all : List Reg :=
  [.eax, .ebx, .ecx, .edx, .esi, .edi, .ebp, .esp, .cs, .ds, .es, .fs, .gs, .ss,
   .cr0, .cr1, .cr2, .cr3, .dr0, .dr1, .dr2, .dr3, .flags, .mc, .pc]

/-- The register with a given id; `none` for an unknown id (10_state R35). -/
def Reg.ofId (n : Nat) : Option Reg := Reg.all[n]?

/-- Register names (10_state R30). -/
def Reg.name : Reg → Text
  | .eax => chars ['e', 'a', 'x'] | .ebx => chars ['e', 'b', 'x'] | .ecx => chars ['e', 'c', 'x'] | .edx => chars ['e', 'd', 'x']
  | .esi => chars ['e', 's', 'i'] | .edi => chars ['e', 'd', 'i'] | .ebp => chars ['e', 'b', 'p'] | .esp => chars ['e', 's', 'p']
  | .cs => chars ['c', 's'] | .ds => chars ['d', 's'] | .es => chars ['e', 's'] | .fs => chars ['f', 's'] | .gs => chars ['g', 's']
  | .ss => chars ['s', 's']
  | .cr0 => chars ['c', 'r', '0'] | .cr1 => chars ['c', 'r', '1'] | .cr2 => chars ['c', 'r', '2'] | .cr3 => chars ['c', 'r', '3']
  | .dr0 => chars ['d', 'r', '0'] | .dr1 => chars ['d', 'r', '1'] | .dr2 => chars ['d', 'r', '2'] | .dr3 => chars ['d', 'r', '3']
  | .flags => chars ['f', 'l', 'a', 'g', 's'] | .mc => chars ['m', 'c'] | .pc => chars ['p', 'c']

/-- Register names match exactly and case-sensitively (10_state R34). -/
def Reg.ofName (t : Text) : Option Reg := Reg.all.find? (fun r => r.name == t)

/-- Bit numbers of the flags in an `fv` (10_state R50). -/
def Flag.bit : Flag → Nat
  | .zero => 0 | .positive => 1 | .negative => 2 | .carry => 3 | .overflow => 4 | .copied => 5 | .failure => 6

/-- The flags in bit order. -/
def Flag.all : List Flag := [.zero, .positive, .negative, .carry, .overflow, .copied, .failure]

/-- Flag names (30_encoding R151). -/
def Flag.name : Flag → Text
  | .zero => chars ['z', 'e', 'r', 'o']
  | .positive => chars ['p', 'o', 's', 'i', 't', 'i', 'v', 'e']
  | .negative => chars ['n', 'e', 'g', 'a', 't', 'i', 'v', 'e']
  | .carry => chars ['c', 'a', 'r', 'r', 'y']
  | .overflow => chars ['o', 'v', 'e', 'r', 'f', 'l', 'o', 'w']
  | .copied => chars ['c', 'o', 'p', 'i', 'e', 'd']
  | .failure => chars ['f', 'a', 'i', 'l', 'u', 'r', 'e']

/-- Flag names match exactly, in lower case (30_encoding R151). -/
def Flag.ofName (t : Text) : Option Flag := Flag.all.find? (fun f => f.name == t)

/-- Memory label names (10_state R71). -/
def MemLabel.name : MemLabel → Text
  | .text => chars ['t', 'e', 'x', 't']
  | .reserved => chars ['r', 'e', 's', 'e', 'r', 'v', 'e', 'd']

/-- Memory label names match exactly (30_encoding R150). -/
def MemLabel.ofName (t : Text) : Option MemLabel := [MemLabel.text, .reserved].find? (fun m => m.name == t)

/-- Diagnostic numbers (60_exceptions R401). -/
def DiagCode.number : DiagCode → Nat
  | .arity => 1 | .literal => 2 | .unknownReg => 3 | .unknownLabel => 4 | .unknownFlag => 5 | .memOob => 6
  | .divZero => 7 | .stackEmpty => 8 | .stackFull => 9 | .badRange => 10 | .literalTooLong => 11
  | .missingImport => 20 | .malformedDefinition => 21
  | .unknownMnemonic => 32 | .pcRange => 33
  | .retUnderflow => 48

end Sys2Proof
end

