-- ==== Sys2Proof/Machine/Scan.lean ====
section
/-! DEFINITION. Scanning text: white space and words, integer-shaped tokens, decimal text, the tokenizer, and the
narrowing of exact integers (00_scope R8, 30_encoding R123, R135, R140, R146). -/

namespace Sys2Proof

/-- `wrap32` (00_scope R8). -/
def wrap32 (v : Int) : Word := BitVec.ofInt 32 v

/-- The set int32 (00_scope R8). -/
def inInt32 (v : Int) : Bool := decide (-(2 ^ 31) ≤ v) && decide (v ≤ 2 ^ 31 - 1)

/-- The set int64 (00_scope R8). -/
def inInt64 (v : Int) : Bool := decide (-(2 ^ 63) ≤ v) && decide (v ≤ 2 ^ 63 - 1)

/-- White space: space, tab and carriage return (30_encoding R123). -/
def isSpace (c : CodePoint) : Bool := c == .scalar ' ' || c == .scalar '\t' || c == .scalar '\r'

/-- Leading white space removed. -/
def trimLeft (t : Text) : Text := t.dropWhile isSpace

/-- Leading and trailing white space removed (30_encoding R123). -/
def trim (t : Text) : Text := (trimLeft (trimLeft t).reverse).reverse

/-- The first white-space-delimited token of a line, without quote handling; empty for a blank line
(30_encoding R135: `ws(s)[0]`). -/
def firstWord (t : Text) : Text := (trimLeft t).takeWhile (fun c => !isSpace c)

/-- What follows the first white-space-delimited token. -/
def afterFirstWord (t : Text) : Text := (trimLeft t).dropWhile (fun c => !isSpace c)

/-- The value of an ASCII decimal digit. -/
def digitValue (c : CodePoint) : Option Nat :=
  if 48 ≤ c.code ∧ c.code ≤ 57 then some (c.code - 48) else none

/-- The number a run of digits spells, after the digits already read. -/
def digitsFrom (acc : Nat) : Text → Option Nat
  | [] => some acc
  | c :: cs =>
    match digitValue c with
    | some d => digitsFrom (acc * 10 + d) cs
    | none => none

/-- One or more digits. -/
def digitsValue : Text → Option Nat
  | [] => none
  | c :: cs => digitsFrom 0 (c :: cs)

/-- `[+-]?[0-9]+` (30_encoding R146): the number an integer-shaped token spells, `none` for any other token. -/
def intValue : Text → Option Int
  | [] => none
  | c :: cs =>
    if c = .scalar '-' then (digitsValue cs).map (fun n => -(n : Int))
    else if c = .scalar '+' then (digitsValue cs).map (fun n => (n : Int))
    else (digitsValue (c :: cs)).map (fun n => (n : Int))

/-- The digit character of `d < 10`. -/
def digitChar (d : Nat) : CodePoint := .scalar (Char.ofNat (48 + d))

/-- Decimal digits of `n` in front of `acc`; `fuel` bounds their number. -/
def natDigits : Nat → Nat → Text → Text
  | 0, _, acc => acc
  | fuel + 1, n, acc =>
    if n < 10 then digitChar n :: acc else natDigits fuel (n / 10) (digitChar (n % 10) :: acc)

/-- Decimal text of a natural number, without leading zeros. -/
def natText (n : Nat) : Text := natDigits (Nat.log2 n + 1) n []

/-- `dec(n)` (00_scope R8). -/
def dec (n : Int) : Text := if n < 0 then .scalar '-' :: natText n.natAbs else natText n.natAbs

/-- `join(ts, " ")` (00_scope R14). -/
def joinSpaced : List Text → Text
  | [] => []
  | [t] => t
  | t :: u :: ts => t ++ .scalar ' ' :: joinSpaced (u :: ts)

/-- `code(c)` as a cell (00_scope R14). -/
def charCode (c : CodePoint) : Word := BitVec.ofNat 32 c.code

/-- `char(c)` of 45_memory_ops R318: the character with that code point, U+FFFD for a value that is no Unicode
scalar value. -/
def cellChar (w : Word) : CodePoint :=
  .scalar (if w.toNat.isValidChar then Char.ofNat w.toNat else Char.ofNat 0xFFFD)

/-- Where the tokenizer stands: between tokens, or inside a bare or a quoted token whose characters so far are held
last first. -/
inductive ScanState where
  | gap
  | bare (seen : Text)
  | quoted (seen : Text)
deriving DecidableEq, Repr

/-- The tokenizer of 30_encoding R140, as a scan over the characters. -/
def scanTokens : ScanState → Text → List Text
  | .gap, [] => []
  | .gap, c :: cs =>
    if isSpace c then scanTokens .gap cs
    else if c = .scalar '"' then scanTokens (.quoted []) cs
    else scanTokens (.bare [c]) cs
  | .bare seen, [] => [seen.reverse]
  | .bare seen, c :: cs =>
    if isSpace c then seen.reverse :: scanTokens .gap cs else scanTokens (.bare (c :: seen)) cs
  | .quoted seen, [] => [seen.reverse]
  | .quoted seen, .scalar '\\' :: .scalar '"' :: cs => scanTokens (.quoted (.scalar '"' :: seen)) cs
  | .quoted seen, c :: cs =>
    if c = .scalar '"' then seen.reverse :: scanTokens .gap cs else scanTokens (.quoted (c :: seen)) cs

/-- `tokenize(s)` (30_encoding R140). -/
def tokenize (s : Text) : List Text := scanTokens .gap s

end Sys2Proof
end

