-- ==== Sys2Proof/WellFormed.lean ====
section
/-! DEFINITION. Which instructions a program line can spell: the operands an `Instr` holds must be what the decoder
makes of the tokens the encoder writes (30_encoding R140, R145-R155). -/

namespace Sys2Proof

/-- A token that can stand bare: not empty, no white space, not opening with a quote (30_encoding R140). -/
def bareOk (t : Text) : Bool :=
  !t.isEmpty && t.all (fun c => !isSpace c) && decide (t.head? ≠ some (.scalar '"'))

/-- A token some line spells wherever it stands: bare, or quoted. A quoted token may not end in a backslash, which
would escape the closing quote (30_encoding R140). -/
def tokenOk (t : Text) : Bool := bareOk t || decide (t.getLast? ≠ some (.scalar '\\'))

/-- A list of TEXT operands with at least `least` tokens. -/
def textsOk (least : Nat) (ts : List Text) : Bool := decide (least ≤ ts.length) && ts.all tokenOk

/-- A token that is an address operand of its own, so no literal string (30_encoding R153). -/
def addressShaped (t : Text) : Bool :=
  (intValue t).isSome || (MemLabel.ofName t).isSome || (Reg.ofName t).isSome

/-- A GVAL text is no register name (30_encoding R155). -/
def GArg.wellFormed : GArg → Bool
  | .reg _ => true
  | .text t => tokenOk t && (Reg.ofName t).isNone

/-- A STRADDR literal string is neither integer-shaped nor a memory label nor a register name (30_encoding R153). -/
def StrAddr.wellFormed : StrAddr → Bool
  | .addr _ => true
  | .literal t => tokenOk t && !addressShaped t

/-- A name that stands inside the first white-space-delimited token of a line (30_encoding R135). -/
def lineNameOk (t : Text) : Bool := t.all (fun c => !isSpace c)

/-- The well-formed instructions. Registers, literals, flags and memory labels are right by their types. -/
def Instr.wellFormed : Instr → Bool
  | .set _ ts => textsOk 1 ts
  | .setAV _ _ | .setLV _ _ | .mov _ _ | .movv _ _ => true
  | .add _ _ | .sub _ _ | .mul _ _ | .div _ _ | .mod _ _ | .shl _ _ | .shr _ _ | .and _ _ | .or _ _ | .xor _ _ => true
  | .not _ => true
  | .cmp _ _ => true
  | .cmpv t1 t2 => t1.wellFormed && t2.wellFormed
  | .setflag _ | .clearflag _ => true
  | .jmp l | .jz l | .jnz l | .jn l | .jnn l | .jp l | .jnp l | .jf l | .jnf l | .jo l | .jno l => tokenOk l
  | .call l => tokenOk l
  | .ret => true
  | .loop l => tokenOk l
  | .exit _ => true
  | .push _ | .pop _ => true
  | .readMem _ _ | .writeRawMem _ _ => true
  | .writeMem _ ts => textsOk 1 ts
  | .fillMem _ _ _ | .copyMem _ _ _ | .cmpMem _ _ _ => true
  | .cmpStr _ b => b.wellFormed
  | .printMem _ _ | .printStr _ => true
  | .read _ | .readKey _ => true
  | .write ts | .writeln ts => textsOk 0 ts
  | .writeAV _ | .writeLV _ | .writeFV _ | .writeVal _ => true
  | .dump => true
  | .sleep _ | .rand _ _ _ | .os _ | .beep | .cmovf _ _ _ | .brk => true
  | .label n => lineNameOk n
  | .directive n => lineNameOk n && decide (n.getLast? ≠ some (.scalar ':'))
  | .empty => true

end Sys2Proof
end

