-- ==== Sys2Proof/Decode.lean ====
section
/-! DEFINITION. The decoder of 30_encoding: line classes (R135), the opcode map (R142, R160), arity (R154) and operand
kinds (R145-R155); then the encoder, which writes the line of a well-formed instruction, and the reading of an opcode
id as spec/opcode_table.json numbers it. -/

namespace Sys2Proof

/-- The class of a line (30_encoding R135). -/
inductive LineClass where
  | empty | label | directive | instr
deriving DecidableEq, Repr

/-- `classify(s)` (30_encoding R135): the label test comes before the directive test. -/
def classify (s : Text) : LineClass :=
  let w := firstWord s
  if w = [] then .empty
  else if w.getLast? = some (.scalar ':') then .label
  else if w.head? = some (.scalar '#') then .directive
  else .instr

/-- What the decoder makes of a line: an instruction, a Skip of a known mnemonic whose arity or operands fail
(30_encoding R154, R145-R155), or a mnemonic outside OPTABLE (30_encoding R142). -/
inductive DecodeResult where
  | instr (i : Instr)
  | skip (code : DiagCode)
  | unknown (mnemonic : Text)
deriving DecidableEq, Repr

/-! ## Operand kinds -/

/-- REG (30_encoding R145). -/
def regOperand (t : Text) : Except DiagCode Reg :=
  match Reg.ofName t with
  | some r => .ok r
  | none => .error .unknownReg

/-- SRC_AV (30_encoding R147). -/
def srcAvOperand (t : Text) : Except DiagCode SrcAv :=
  match intValue t with
  | some v => if inInt32 v then .ok (.lit (wrap32 v)) else .error .literal
  | none =>
    match Reg.ofName t with
    | some r => .ok (.reg r)
    | none => .error .unknownReg

/-- SRC_LV (30_encoding R148). -/
def srcLvOperand (t : Text) : Except DiagCode SrcLv :=
  match intValue t with
  | some v => if inInt64 v then .ok (.lit (BitVec.ofInt 64 v)) else .error .literal
  | none =>
    match Reg.ofName t with
    | some r => .ok (.reg r)
    | none => .error .unknownReg

/-- ADDR (30_encoding R150): a literal, then a memory label, then a register. -/
def addrOperand (t : Text) : Except DiagCode Addr :=
  match intValue t with
  | some v => if inInt32 v then .ok (.lit (wrap32 v)) else .error .literal
  | none =>
    match MemLabel.ofName t with
    | some m => .ok (.memLabel m)
    | none =>
      match Reg.ofName t with
      | some r => .ok (.reg r)
      | none => .error .unknownReg

/-- FLAG (30_encoding R151). -/
def flagOperand (t : Text) : Except DiagCode Flag :=
  match Flag.ofName t with
  | some f => .ok f
  | none => .error .unknownFlag

/-- STRADDR (30_encoding R153): an address where ADDR would find one, else the literal string. -/
def strAddrOperand (t : Text) : Except DiagCode StrAddr :=
  match addrOperand t with
  | .ok a => .ok (.addr a)
  | .error .unknownReg => .ok (.literal t)
  | .error e => .error e

/-- GVAL (30_encoding R155). -/
def gArgOperand (t : Text) : GArg :=
  match Reg.ofName t with
  | some r => .reg r
  | none => .text t

/-! ## Argument lists

Each shape checks the arity first and then its operands from left to right (30_encoding R154, 40_dispatch_loop R188). -/

/-- No argument. -/
def argsNone (i : Instr) : List Text → Except DiagCode Instr
  | [] => .ok i
  | _ => .error .arity

/-- TEXT..., any number. -/
def argsTexts (f : List Text → Instr) (ts : List Text) : Except DiagCode Instr := .ok (f ts)

/-- REG. -/
def argsReg (f : Reg → Instr) : List Text → Except DiagCode Instr
  | [r] => do
    let r ← regOperand r
    return f r
  | _ => .error .arity

/-- REG REG. -/
def argsRegReg (f : Reg → Reg → Instr) : List Text → Except DiagCode Instr
  | [d, s] => do
    let d ← regOperand d
    let s ← regOperand s
    return f d s
  | _ => .error .arity

/-- REG SRC_AV. -/
def argsRegSrc (f : Reg → SrcAv → Instr) : List Text → Except DiagCode Instr
  | [d, x] => do
    let d ← regOperand d
    let x ← srcAvOperand x
    return f d x
  | _ => .error .arity

/-- REG SRC_LV. -/
def argsRegSrcLv (f : Reg → SrcLv → Instr) : List Text → Except DiagCode Instr
  | [d, x] => do
    let d ← regOperand d
    let x ← srcLvOperand x
    return f d x
  | _ => .error .arity

/-- REG TEXT... with at least one TEXT. -/
def argsRegTexts (f : Reg → List Text → Instr) : List Text → Except DiagCode Instr
  | r :: t :: ts => do
    let r ← regOperand r
    return f r (t :: ts)
  | _ => .error .arity

/-- REG SRC_AV SRC_AV. -/
def argsRegSrcSrc (f : Reg → SrcAv → SrcAv → Instr) : List Text → Except DiagCode Instr
  | [r, x, y] => do
    let r ← regOperand r
    let x ← srcAvOperand x
    let y ← srcAvOperand y
    return f r x y
  | _ => .error .arity

/-- GVAL GVAL, which never fails. -/
def argsGvalGval (f : GArg → GArg → Instr) : List Text → Except DiagCode Instr
  | [x, y] => .ok (f (gArgOperand x) (gArgOperand y))
  | _ => .error .arity

/-- FLAG. -/
def argsFlag (f : Flag → Instr) : List Text → Except DiagCode Instr
  | [x] => do
    let x ← flagOperand x
    return f x
  | _ => .error .arity

/-- FLAG REG REG. -/
def argsFlagRegReg (f : Flag → Reg → Reg → Instr) : List Text → Except DiagCode Instr
  | [x, d, s] => do
    let x ← flagOperand x
    let d ← regOperand d
    let s ← regOperand s
    return f x d s
  | _ => .error .arity

/-- LABEL: the name; the LROM is asked at execution (30_encoding R149). -/
def argsLabel (f : Text → Instr) : List Text → Except DiagCode Instr
  | [l] => .ok (f l)
  | _ => .error .arity

/-- SRC_AV. -/
def argsSrc (f : SrcAv → Instr) : List Text → Except DiagCode Instr
  | [x] => do
    let x ← srcAvOperand x
    return f x
  | _ => .error .arity

/-- SRC_AV, optional. -/
def argsSrcOpt (f : Option SrcAv → Instr) : List Text → Except DiagCode Instr
  | [] => .ok (f none)
  | [x] => do
    let x ← srcAvOperand x
    return f (some x)
  | _ => .error .arity

/-- ADDR. -/
def argsAddr (f : Addr → Instr) : List Text → Except DiagCode Instr
  | [a] => do
    let a ← addrOperand a
    return f a
  | _ => .error .arity

/-- ADDR and an optional REG. -/
def argsAddrRegOpt (f : Addr → Option Reg → Instr) : List Text → Except DiagCode Instr
  | [a] => do
    let a ← addrOperand a
    return f a none
  | [a, r] => do
    let a ← addrOperand a
    let r ← regOperand r
    return f a (some r)
  | _ => .error .arity

/-- ADDR SRC_AV. -/
def argsAddrSrc (f : Addr → SrcAv → Instr) : List Text → Except DiagCode Instr
  | [a, x] => do
    let a ← addrOperand a
    let x ← srcAvOperand x
    return f a x
  | _ => .error .arity

/-- ADDR TEXT... with at least one TEXT. -/
def argsAddrTexts (f : Addr → List Text → Instr) : List Text → Except DiagCode Instr
  | a :: t :: ts => do
    let a ← addrOperand a
    return f a (t :: ts)
  | _ => .error .arity

/-- ADDR SRC_AV SRC_AV. -/
def argsAddrSrcSrc (f : Addr → SrcAv → SrcAv → Instr) : List Text → Except DiagCode Instr
  | [a, x, y] => do
    let a ← addrOperand a
    let x ← srcAvOperand x
    let y ← srcAvOperand y
    return f a x y
  | _ => .error .arity

/-- ADDR ADDR SRC_AV. -/
def argsAddrAddrSrc (f : Addr → Addr → SrcAv → Instr) : List Text → Except DiagCode Instr
  | [a, b, x] => do
    let a ← addrOperand a
    let b ← addrOperand b
    let x ← srcAvOperand x
    return f a b x
  | _ => .error .arity

/-- ADDR STRADDR. -/
def argsAddrStr (f : Addr → StrAddr → Instr) : List Text → Except DiagCode Instr
  | [a, b] => do
    let a ← addrOperand a
    let b ← strAddrOperand b
    return f a b
  | _ => .error .arity

/-! ## The opcode map -/

/-- The kinds of operand a row's `format` names (30_encoding R145-R155). -/
inductive OperandKind where
  | reg | srcAv | srcLv | label | addr | flag | text | strAddr | gval
deriving DecidableEq, Repr

/-- One row of spec/opcode_table.json: its opcode id, its mnemonic, the operands it needs at least, and the reading of
its arguments. -/
structure OpRow where
  opcode : BitVec 8
  mnemonic : Text
  needs : List OperandKind
  read : List Text → Except DiagCode Instr

/-- Rows 0x01 to 0x1A: movement, arithmetic and bitwise. -/
def opTableA : List OpRow :=
  [ ⟨0x01, chars ['s', 'e', 't'], [.reg, .text], argsRegTexts .set⟩,
    ⟨0x02, chars ['s', 'e', 't', 'A', 'V'], [.reg, .srcAv], argsRegSrc .setAV⟩,
    ⟨0x03, chars ['s', 'e', 't', 'L', 'V'], [.reg, .srcLv], argsRegSrcLv .setLV⟩,
    ⟨0x04, chars ['m', 'o', 'v'], [.reg, .reg], argsRegReg .mov⟩,
    ⟨0x05, chars ['m', 'o', 'v', 'v'], [.reg, .reg], argsRegReg .movv⟩,
    ⟨0x10, chars ['a', 'd', 'd'], [.reg, .srcAv], argsRegSrc .add⟩,
    ⟨0x11, chars ['s', 'u', 'b'], [.reg, .srcAv], argsRegSrc .sub⟩,
    ⟨0x12, chars ['m', 'u', 'l'], [.reg, .srcAv], argsRegSrc .mul⟩,
    ⟨0x13, chars ['d', 'i', 'v'], [.reg, .srcAv], argsRegSrc .div⟩,
    ⟨0x14, chars ['m', 'o', 'd'], [.reg, .srcAv], argsRegSrc .mod⟩,
    ⟨0x15, chars ['s', 'h', 'l'], [.reg, .srcAv], argsRegSrc .shl⟩,
    ⟨0x16, chars ['s', 'h', 'r'], [.reg, .srcAv], argsRegSrc .shr⟩,
    ⟨0x17, chars ['a', 'n', 'd'], [.reg, .srcAv], argsRegSrc .and⟩,
    ⟨0x18, chars ['o', 'r'], [.reg, .srcAv], argsRegSrc .or⟩,
    ⟨0x19, chars ['x', 'o', 'r'], [.reg, .srcAv], argsRegSrc .xor⟩,
    ⟨0x1A, chars ['n', 'o', 't'], [.reg], argsReg .not⟩ ]

/-- Rows 0x20 to 0x41: comparison, flag writes, control flow, stack. -/
def opTableB : List OpRow :=
  [ ⟨0x20, chars ['c', 'm', 'p'], [.reg, .srcAv], argsRegSrc .cmp⟩,
    ⟨0x21, chars ['c', 'm', 'p', 'v'], [.gval, .gval], argsGvalGval .cmpv⟩,
    ⟨0x22, chars ['s', 'e', 't', 'f', 'l', 'a', 'g'], [.flag], argsFlag .setflag⟩,
    ⟨0x23, chars ['c', 'l', 'e', 'a', 'r', 'f', 'l', 'a', 'g'], [.flag], argsFlag .clearflag⟩,
    ⟨0x30, chars ['j', 'm', 'p'], [.label], argsLabel .jmp⟩,
    ⟨0x31, chars ['j', 'z'], [.label], argsLabel .jz⟩,
    ⟨0x32, chars ['j', 'n', 'z'], [.label], argsLabel .jnz⟩,
    ⟨0x33, chars ['j', 'n'], [.label], argsLabel .jn⟩,
    ⟨0x34, chars ['j', 'n', 'n'], [.label], argsLabel .jnn⟩,
    ⟨0x35, chars ['j', 'p'], [.label], argsLabel .jp⟩,
    ⟨0x36, chars ['j', 'n', 'p'], [.label], argsLabel .jnp⟩,
    ⟨0x37, chars ['j', 'f'], [.label], argsLabel .jf⟩,
    ⟨0x38, chars ['j', 'n', 'f'], [.label], argsLabel .jnf⟩,
    ⟨0x39, chars ['j', 'o'], [.label], argsLabel .jo⟩,
    ⟨0x3A, chars ['j', 'n', 'o'], [.label], argsLabel .jno⟩,
    ⟨0x3B, chars ['c', 'a', 'l', 'l'], [.label], argsLabel .call⟩,
    ⟨0x3C, chars ['r', 'e', 't'], [], argsNone .ret⟩,
    ⟨0x3D, chars ['l', 'o', 'o', 'p'], [.label], argsLabel .loop⟩,
    ⟨0x3E, chars ['e', 'x', 'i', 't'], [], argsSrcOpt .exit⟩,
    ⟨0x40, chars ['p', 'u', 's', 'h'], [.srcAv], argsSrc .push⟩,
    ⟨0x41, chars ['p', 'o', 'p'], [.reg], argsReg .pop⟩ ]

/-- Rows 0x50 to 0x6E: memory, I/O, meta. -/
def opTableC : List OpRow :=
  [ ⟨0x50, chars ['r', 'e', 'a', 'd', 'M', 'e', 'm'], [.addr], argsAddrRegOpt .readMem⟩,
    ⟨0x51, chars ['w', 'r', 'i', 't', 'e', 'R', 'a', 'w', 'M', 'e', 'm'], [.addr, .srcAv], argsAddrSrc .writeRawMem⟩,
    ⟨0x52, chars ['w', 'r', 'i', 't', 'e', 'M', 'e', 'm'], [.addr, .text], argsAddrTexts .writeMem⟩,
    ⟨0x53, chars ['f', 'i', 'l', 'l', 'M', 'e', 'm'], [.addr, .srcAv, .srcAv], argsAddrSrcSrc .fillMem⟩,
    ⟨0x54, chars ['c', 'o', 'p', 'y', 'M', 'e', 'm'], [.addr, .addr, .srcAv], argsAddrAddrSrc .copyMem⟩,
    ⟨0x55, chars ['c', 'm', 'p', 'M', 'e', 'm'], [.addr, .addr, .srcAv], argsAddrAddrSrc .cmpMem⟩,
    ⟨0x56, chars ['c', 'm', 'p', 'S', 't', 'r'], [.addr, .strAddr], argsAddrStr .cmpStr⟩,
    ⟨0x57, chars ['p', 'r', 'i', 'n', 't', 'M', 'e', 'm'], [.addr, .srcAv], argsAddrSrc .printMem⟩,
    ⟨0x58, chars ['p', 'r', 'i', 'n', 't', 'S', 't', 'r'], [.addr], argsAddr .printStr⟩,
    ⟨0x60, chars ['r', 'e', 'a', 'd'], [.reg], argsReg .read⟩,
    ⟨0x61, chars ['r', 'e', 'a', 'd', 'K', 'e', 'y'], [.reg], argsReg .readKey⟩,
    ⟨0x62, chars ['w', 'r', 'i', 't', 'e'], [], argsTexts .write⟩,
    ⟨0x63, chars ['w', 'r', 'i', 't', 'e', 'l', 'n'], [], argsTexts .writeln⟩,
    ⟨0x64, chars ['w', 'r', 'i', 't', 'e', 'A', 'V'], [.reg], argsReg .writeAV⟩,
    ⟨0x65, chars ['w', 'r', 'i', 't', 'e', 'L', 'V'], [.reg], argsReg .writeLV⟩,
    ⟨0x66, chars ['w', 'r', 'i', 't', 'e', 'F', 'V'], [.reg], argsReg .writeFV⟩,
    ⟨0x67, chars ['w', 'r', 'i', 't', 'e', 'V', 'a', 'l'], [.reg], argsReg .writeVal⟩,
    ⟨0x68, chars ['d', 'u', 'm', 'p'], [], argsNone .dump⟩,
    ⟨0x69, chars ['s', 'l', 'e', 'e', 'p'], [.srcAv], argsSrc .sleep⟩,
    ⟨0x6A, chars ['r', 'a', 'n', 'd'], [.reg, .srcAv, .srcAv], argsRegSrcSrc .rand⟩,
    ⟨0x6B, chars ['o', 's'], [.reg], argsReg .os⟩,
    ⟨0x6C, chars ['b', 'e', 'e', 'p'], [], argsNone .beep⟩,
    ⟨0x6D, chars ['c', 'm', 'o', 'v', 'f'], [.flag, .reg, .reg], argsFlagRegReg .cmovf⟩,
    ⟨0x6E, chars ['b', 'r', 'e', 'a', 'k'], [], argsNone .brk⟩ ]

/-- OPTABLE, the fixed map of 30_encoding R142, R160. -/
def opTable : List OpRow := opTableA ++ opTableB ++ opTableC

/-- The row of a mnemonic, matched exactly and case-sensitively (30_encoding R142). -/
def rowOfMnemonic (m : Text) : Option OpRow := opTable.find? (fun row => row.mnemonic == m)

/-- The row of an opcode id (30_encoding R160); ids outside the map have none (30_encoding R161). -/
def rowOfOpcode (o : BitVec 8) : Option OpRow := opTable.find? (fun row => row.opcode == o)

/-- The tokens of an INSTR line, decoded (30_encoding R141, R142, 40_dispatch_loop R188 phases 1 and 2). -/
def decodeTokens : List Text → DecodeResult
  | [] => .instr .empty
  | m :: args =>
    match rowOfMnemonic m with
    | none => .unknown m
    | some row =>
      match row.read args with
      | .ok i => .instr i
      | .error code => .skip code

/-- The decoder: total on every line (30_encoding R135, R142). -/
def decode (line : Text) : DecodeResult :=
  match classify line with
  | .empty => .instr .empty
  | .label => .instr (.label (firstWord line).dropLast)
  | .directive => .instr (.directive (firstWord line).tail)
  | .instr => decodeTokens (tokenize line)

/-! ## The encoder -/

/-- A quote inside a quoted token is written with a backslash (30_encoding R140). -/
def escapeQuotes (t : Text) : Text := t.flatMap (fun c => if c = .scalar '"' then chars ['\\', '"'] else [c])

/-- A token as a line spells it: bare where it can stand bare, else quoted. -/
def encodeToken (t : Text) : Text := if bareOk t then t else .scalar '"' :: escapeQuotes t ++ [.scalar '"']

/-- An instruction line: the mnemonic, then each argument after one space (30_encoding R141). -/
def encodeLine (mnemonic : Text) (args : List Text) : Text :=
  mnemonic ++ args.flatMap (fun t => .scalar ' ' :: encodeToken t)

/-- The token of a SRC_AV operand. -/
def SrcAv.token : SrcAv → Text
  | .lit v => dec v.toInt
  | .reg r => r.name

/-- The token of a SRC_LV operand. -/
def SrcLv.token : SrcLv → Text
  | .lit v => dec v.toInt
  | .reg r => r.name

/-- The token of an ADDR operand. -/
def Addr.token : Addr → Text
  | .lit v => dec v.toInt
  | .memLabel m => m.name
  | .reg r => r.name

/-- The token of a STRADDR operand. -/
def StrAddr.token : StrAddr → Text
  | .addr a => a.token
  | .literal t => t

/-- The token of a GVAL operand. -/
def GArg.token : GArg → Text
  | .reg r => r.name
  | .text t => t

/-- The line of an instruction (30_encoding R160; for the three line classes, R135). -/
def encode : Instr → Text
  | .set r ts => encodeLine (chars ['s', 'e', 't']) (r.name :: ts)
  | .setAV r x => encodeLine (chars ['s', 'e', 't', 'A', 'V']) [r.name, x.token]
  | .setLV r x => encodeLine (chars ['s', 'e', 't', 'L', 'V']) [r.name, x.token]
  | .mov d s => encodeLine (chars ['m', 'o', 'v']) [d.name, s.name]
  | .movv d s => encodeLine (chars ['m', 'o', 'v', 'v']) [d.name, s.name]
  | .add d x => encodeLine (chars ['a', 'd', 'd']) [d.name, x.token]
  | .sub d x => encodeLine (chars ['s', 'u', 'b']) [d.name, x.token]
  | .mul d x => encodeLine (chars ['m', 'u', 'l']) [d.name, x.token]
  | .div d x => encodeLine (chars ['d', 'i', 'v']) [d.name, x.token]
  | .mod d x => encodeLine (chars ['m', 'o', 'd']) [d.name, x.token]
  | .shl d x => encodeLine (chars ['s', 'h', 'l']) [d.name, x.token]
  | .shr d x => encodeLine (chars ['s', 'h', 'r']) [d.name, x.token]
  | .and d x => encodeLine (chars ['a', 'n', 'd']) [d.name, x.token]
  | .or d x => encodeLine (chars ['o', 'r']) [d.name, x.token]
  | .xor d x => encodeLine (chars ['x', 'o', 'r']) [d.name, x.token]
  | .not d => encodeLine (chars ['n', 'o', 't']) [d.name]
  | .cmp d x => encodeLine (chars ['c', 'm', 'p']) [d.name, x.token]
  | .cmpv t1 t2 => encodeLine (chars ['c', 'm', 'p', 'v']) [t1.token, t2.token]
  | .setflag f => encodeLine (chars ['s', 'e', 't', 'f', 'l', 'a', 'g']) [f.name]
  | .clearflag f => encodeLine (chars ['c', 'l', 'e', 'a', 'r', 'f', 'l', 'a', 'g']) [f.name]
  | .jmp l => encodeLine (chars ['j', 'm', 'p']) [l]
  | .jz l => encodeLine (chars ['j', 'z']) [l]
  | .jnz l => encodeLine (chars ['j', 'n', 'z']) [l]
  | .jn l => encodeLine (chars ['j', 'n']) [l]
  | .jnn l => encodeLine (chars ['j', 'n', 'n']) [l]
  | .jp l => encodeLine (chars ['j', 'p']) [l]
  | .jnp l => encodeLine (chars ['j', 'n', 'p']) [l]
  | .jf l => encodeLine (chars ['j', 'f']) [l]
  | .jnf l => encodeLine (chars ['j', 'n', 'f']) [l]
  | .jo l => encodeLine (chars ['j', 'o']) [l]
  | .jno l => encodeLine (chars ['j', 'n', 'o']) [l]
  | .call l => encodeLine (chars ['c', 'a', 'l', 'l']) [l]
  | .ret => encodeLine (chars ['r', 'e', 't']) []
  | .loop l => encodeLine (chars ['l', 'o', 'o', 'p']) [l]
  | .exit none => encodeLine (chars ['e', 'x', 'i', 't']) []
  | .exit (some x) => encodeLine (chars ['e', 'x', 'i', 't']) [x.token]
  | .push x => encodeLine (chars ['p', 'u', 's', 'h']) [x.token]
  | .pop r => encodeLine (chars ['p', 'o', 'p']) [r.name]
  | .readMem a none => encodeLine (chars ['r', 'e', 'a', 'd', 'M', 'e', 'm']) [a.token]
  | .readMem a (some r) => encodeLine (chars ['r', 'e', 'a', 'd', 'M', 'e', 'm']) [a.token, r.name]
  | .writeRawMem a v => encodeLine (chars ['w', 'r', 'i', 't', 'e', 'R', 'a', 'w', 'M', 'e', 'm']) [a.token, v.token]
  | .writeMem a ts => encodeLine (chars ['w', 'r', 'i', 't', 'e', 'M', 'e', 'm']) (a.token :: ts)
  | .fillMem a n v => encodeLine (chars ['f', 'i', 'l', 'l', 'M', 'e', 'm']) [a.token, n.token, v.token]
  | .copyMem a b n => encodeLine (chars ['c', 'o', 'p', 'y', 'M', 'e', 'm']) [a.token, b.token, n.token]
  | .cmpMem a b n => encodeLine (chars ['c', 'm', 'p', 'M', 'e', 'm']) [a.token, b.token, n.token]
  | .cmpStr a b => encodeLine (chars ['c', 'm', 'p', 'S', 't', 'r']) [a.token, b.token]
  | .printMem a n => encodeLine (chars ['p', 'r', 'i', 'n', 't', 'M', 'e', 'm']) [a.token, n.token]
  | .printStr a => encodeLine (chars ['p', 'r', 'i', 'n', 't', 'S', 't', 'r']) [a.token]
  | .read r => encodeLine (chars ['r', 'e', 'a', 'd']) [r.name]
  | .readKey r => encodeLine (chars ['r', 'e', 'a', 'd', 'K', 'e', 'y']) [r.name]
  | .write ts => encodeLine (chars ['w', 'r', 'i', 't', 'e']) ts
  | .writeln ts => encodeLine (chars ['w', 'r', 'i', 't', 'e', 'l', 'n']) ts
  | .writeAV r => encodeLine (chars ['w', 'r', 'i', 't', 'e', 'A', 'V']) [r.name]
  | .writeLV r => encodeLine (chars ['w', 'r', 'i', 't', 'e', 'L', 'V']) [r.name]
  | .writeFV r => encodeLine (chars ['w', 'r', 'i', 't', 'e', 'F', 'V']) [r.name]
  | .writeVal r => encodeLine (chars ['w', 'r', 'i', 't', 'e', 'V', 'a', 'l']) [r.name]
  | .dump => encodeLine (chars ['d', 'u', 'm', 'p']) []
  | .sleep x => encodeLine (chars ['s', 'l', 'e', 'e', 'p']) [x.token]
  | .rand r lo hi => encodeLine (chars ['r', 'a', 'n', 'd']) [r.name, lo.token, hi.token]
  | .os r => encodeLine (chars ['o', 's']) [r.name]
  | .beep => encodeLine (chars ['b', 'e', 'e', 'p']) []
  | .cmovf f d s => encodeLine (chars ['c', 'm', 'o', 'v', 'f']) [f.name, d.name, s.name]
  | .brk => encodeLine (chars ['b', 'r', 'e', 'a', 'k']) []
  | .label n => n ++ [.scalar ':']
  | .directive n => .scalar '#' :: n
  | .empty => []

/-! ## Opcode ids

A program stores no opcode id (00_scope R4); an id stands here for the line of its row with the operands the row needs
at least, each the operand of value 0. DESIGN CHOICE; log 8. -/

/-- The operand of value 0: register id 0, literal 0, flag bit 0, and the name, text or string "0". -/
def zeroToken : OperandKind → Text
  | .reg => chars ['e', 'a', 'x']
  | .flag => chars ['z', 'e', 'r', 'o']
  | .srcAv | .srcLv | .label | .addr | .text | .strAddr | .gval => [.scalar '0']

/-- The line of a table word: `nbits` is 8, the width of an opcode id (30_encoding R160). -/
def lineOfTableWord (nbits w : Nat) : Option Text :=
  if nbits = 8 ∧ w < 2 ^ 8 then
    (rowOfOpcode (BitVec.ofNat 8 w)).map (fun row => encodeLine row.mnemonic (row.needs.map zeroToken))
  else none

/-- The instruction the decoder reads from the line of a table word. -/
def decodeTableWord (nbits w : Nat) : Option Instr :=
  match lineOfTableWord nbits w with
  | none => none
  | some line =>
    match decode line with
    | .instr i => some i
    | .skip _ => none
    | .unknown _ => none

end Sys2Proof
end

