-- ==== Sys2Proof/Config.lean ====
section
/-! DEFINITION. What is fixed for one machine: the open parameters of 00_scope R7, the values the spec decides there,
and the FREE VALUES the host supplies (60_exceptions R421), which no proof can evaluate. -/

namespace Sys2Proof.Config

/-- The OPEN parameters of R7, "an argument of the model". `stackDepth = none` is the spec's `unbounded`. -/
structure Params where
  memSize : Nat
  textSeed : List Word
  reservedSize : Nat
  stackDepth : Option Nat
deriving DecidableEq, Repr

/-- The constraints R7 (with D21, D22, D29) puts on the parameters. -/
abbrev Params.wf (p : Params) : Prop :=
  p.textSeed.getLast? = some 0 ∧ 1 ≤ p.reservedSize ∧
  p.textSeed.length + p.reservedSize ≤ p.memSize ∧ p.memSize ≤ 2 ^ 31 - 1 ∧ p.stackDepth ≠ some 0

/-- The parameter values of the test vectors (95_test_vectors, opening). DESIGN CHOICE as reset values; log 2. -/
def vectorParams : Params where
  memSize := 1024
  textSeed := [71, 67, 0]
  reservedSize := 64
  stackDepth := none

/-- MAX_LINES (R7, D57). -/
def maxLines : Nat := 2 ^ 31 - 1

/-- RET_UNDERFLOW_STATUS (R7, D30). -/
def retUnderflowStatus : Word := 1

/-- FREE VALUE: the host's answer to the `n`-th answered request when it is a ReadLine with nothing queued. The spec
lets it be any text (93_implementation_defined). DESIGN CHOICE for the form; log 3. -/
opaque lineAnswer : Nat → Text

/-- FREE VALUE: character text, key code and modifier mask of a ReadKey answer; the mask has 3 bits because the host
keeps it in 0..7 (60_exceptions R422). Log 3. -/
opaque keyAnswer : Nat → Text × Word × BitVec 3

/-- FREE VALUE: the draw behind a Random answer; `Machine.State.askRandom` takes it into [lo, hi), which R422 makes
the host's duty. Log 3. -/
opaque randomAnswer : Nat → Nat

/-- FREE VALUE: the text of an OsQuery answer, host-defined (46_io_meta R351). Log 3. -/
opaque osAnswer : Nat → Text

end Sys2Proof.Config
end

