-- ==== Sys2Proof/Machine/State.lean ====
section
/-! DEFINITION. The state of the block (10_state), as plain data, and its value after construction (70_reset_and_hazards
R450). -/

namespace Sys2Proof.Machine

/-- A generic value (10_state R32). -/
inductive GVal where
  | integer (n : Wide)
  | text (t : Text)
  | boolean (b : Bool)
  | empty
deriving DecidableEq, Repr

/-- The four facets of a register (10_state R31). -/
structure Register where
  val : GVal
  av : Word
  lv : Wide
  fv : FlagBits
deriving DecidableEq, Repr

/-- Construction value of a register (10_state R39). -/
def Register.reset : Register where
  val := .empty
  av := 0
  lv := 0
  fv := 0

/-- The codes a run can halt with (60_exceptions R402). -/
inductive HaltCode where
  | unknownMnemonic
  | pcRange
deriving DecidableEq, Repr

/-- The run-state register RUN (10_state R75). -/
inductive RunState where
  | idle
  | running
  | done
  | halted (code : HaltCode)
  | terminated (status : Word)
deriving DecidableEq, Repr

/-- A transaction of the host-services port as the block sends it (60_exceptions R420). The texts of `write` and
`writeLine` are without a line terminator; `dump` carries the register snapshot in id order (46_io_meta R348). -/
inductive HostEvent where
  | write (s : Text)
  | writeLine (s : Text)
  | readLine
  | readKey
  | sleep (ms : Word)
  | random (lo hi : Word)
  | osQuery
  | beep
  | breakpoint (pc : Word)
  | dump (snapshot : List (Reg × Register))
  | diagnostic (code : DiagCode) (pc : Word)
  | terminate (status : Word)
deriving DecidableEq, Repr

/-- A ReadKey answer (46_io_meta R341): character text, key code, and the modifier mask shift = 1, alt = 2, ctrl = 4,
in 0..7 by the host's duty (60_exceptions R422). -/
structure KeyAnswer where
  char : Text
  code : Word
  mask : BitVec 3
deriving DecidableEq, Repr

/-- The stream of host answers (60_exceptions R421). The model's own field. A queue holds answers fixed beforehand;
past its end the answer is a free value of `Config`, taken at index `asked`. DESIGN CHOICE; log 3. -/
structure HostAnswers where
  lines : List Text
  keys : List KeyAnswer
  draws : List Word
  osTexts : List Text
  asked : Nat
deriving DecidableEq, Repr

/-- Data memory: (address, cell) pairs, addresses strictly rising, no cell equal to what an unlisted address holds.
A cell is an int32 and there are no bytes (10_state R70, 20_memory R97); log 15. -/
abbrev Memory := List (Nat × Word)

/-- The state of the block (10_state R77), and the model's own fields `params` (log 2), `answers` (log 3) and `events`
(log 4). -/
structure State where
  /-- The open parameters, an argument of the model (00_scope R7). -/
  params : Config.Params
  /-- The register file, by register id (10_state R30, R31). -/
  regs : Vector Register 25
  /-- The call/data stack, top first (10_state R60). -/
  stack : List Word
  /-- Data memory (10_state R70). -/
  mem : Memory
  /-- The instruction ROM (10_state R66); `count` is its length. -/
  irom : List Text
  /-- The label index ROM (10_state R65). -/
  lrom : List (Text × Nat)
  /-- The run-state register (10_state R75). -/
  run : RunState
  /-- The first-run marker (70_reset_and_hazards R450, R452). -/
  firstRun : Bool
  /-- Host answers (60_exceptions R421). -/
  answers : HostAnswers
  /-- Transactions of the host-services port so far, oldest first (60_exceptions R420, R421, R424). -/
  events : List HostEvent
deriving DecidableEq, Repr

/-- Why the machine stops with a fault. -/
inductive Fault where
  /-- Raised by `rand` when the host's next queued Random answer lies outside [lo, hi), which breaks the host duty of
  60_exceptions R422 (93_implementation_defined: `fault`). Safe: no state of the block follows it in the spec. -/
  | randomAnswerOutOfRange
deriving DecidableEq, Repr

/-- Why a request is refused. -/
inductive Refusal where
  /-- Raised by an arm of `exec` for an instruction that has no meaning in the model. Safe; no arm raises it. -/
  | notModelled (mnemonic : String)
  /-- Raised by `load` while RUN is Running (70_reset_and_hazards R451; 93_implementation_defined: `refuse`). Safe. -/
  | loadWhileRunning
  /-- Raised by `load` of more than MAX_LINES lines (30_encoding R129; 93_implementation_defined: `refuse`). Safe; the
  toolchain's diagnostics of that load are not recorded, log 6. -/
  | programTooLong
  /-- Raised by `start` while RUN is Running (70_reset_and_hazards R452; 93_implementation_defined: `refuse`). Safe. -/
  | startWhileRunning
deriving DecidableEq, Repr

/-- What a meaning, a step or a run-control operation answers. -/
abbrev Result := Host.Outcome State Fault Refusal

/-- Construction (70_reset_and_hazards R450, 10_state R77). The values of `params`, `answers` and `events` are DESIGN
CHOICE; logs 2, 3, 4. -/
def State.reset : State where
  params := Config.vectorParams
  regs := Vector.replicate 25 Register.reset
  stack := []
  mem := []
  irom := []
  lrom := []
  run := .idle
  firstRun := true
  answers := { lines := [], keys := [], draws := [], osTexts := [], asked := 0 }
  events := []

end Sys2Proof.Machine
end

