-- ==== Sys2Proof/Machine/Ops.lean ====
section
/-! DEFINITION. The named operations over registers, the port, the stack and data memory (10_state, 20_memory), and the
outcomes of a line: skip, halt, terminate, advance (00_scope R13, 60_exceptions R400). The spec has no traps
(60_exceptions R404): these outcomes are the whole of its error entry. -/

namespace Sys2Proof.Machine

/-! ## Registers (00_scope R9) -/

/-- `x[r]`. -/
def State.reg (s : State) (r : Reg) : Register := s.regs.get r.id

/-- Replace the four facets of a register. -/
def State.setReg (s : State) (r : Reg) (x : Register) : State :=
  { s with regs := s.regs.set r.id.val x r.id.isLt }

/-- `x[r].val <- v`. -/
def State.setVal (s : State) (r : Reg) (v : GVal) : State := s.setReg r { s.reg r with val := v }

/-- `x[r].av <- v`. -/
def State.setAv (s : State) (r : Reg) (v : Word) : State := s.setReg r { s.reg r with av := v }

/-- `x[r].lv <- v`. -/
def State.setLv (s : State) (r : Reg) (v : Wide) : State := s.setReg r { s.reg r with lv := v }

/-- `x[r].fv <- v`. -/
def State.setFv (s : State) (r : Reg) (v : FlagBits) : State := s.setReg r { s.reg r with fv := v }

/-- The program counter, the `av` of register `pc` (10_state R40). -/
def State.pc (s : State) : Word := (s.reg .pc).av

/-- Write the program counter. -/
def State.setPc (s : State) (v : Word) : State := s.setAv .pc v

/-- The condition code F, the `fv` of register `flags` (10_state R50). -/
def State.flagBits (s : State) : FlagBits := (s.reg .flags).fv

/-- Write the condition code. -/
def State.setFlagBits (s : State) (v : FlagBits) : State := s.setFv .flags v

/-- The number of lines in the IROM (10_state R66). -/
def State.count (s : State) : Nat := s.irom.length

/-- The register snapshot of `dump`, in id order (46_io_meta R348). -/
def State.snapshot (s : State) : List (Reg × Register) := Reg.all.map (fun r => (r, s.reg r))

/-! ## The host-services port (60_exceptions R420) -/

/-- One transaction goes out on the port (60_exceptions R421). -/
def State.emit (s : State) (e : HostEvent) : State := { s with events := s.events ++ [e] }

/-- `diag(code)` with the index of the current line (60_exceptions R424). -/
def State.diag (s : State) (code : DiagCode) : State := s.emit (.diagnostic code s.pc)

/-- One more request of the host has been answered. -/
def State.answered (s : State) (a : HostAnswers) : State := { s with answers := { a with asked := s.answers.asked + 1 } }

/-- `host.ReadLine()` (46_io_meta R340). -/
def State.askLine (s : State) : Text × State :=
  match s.answers.lines with
  | t :: rest => (t, (s.emit .readLine).answered { s.answers with lines := rest })
  | [] => (Config.lineAnswer s.answers.asked, (s.emit .readLine).answered s.answers)

/-- `host.ReadKey()` (46_io_meta R341). -/
def State.askKey (s : State) : KeyAnswer × State :=
  match s.answers.keys with
  | k :: rest => (k, (s.emit .readKey).answered { s.answers with keys := rest })
  | [] =>
    let (c, k, m) := Config.keyAnswer s.answers.asked
    ({ char := c, code := k, mask := m }, (s.emit .readKey).answered s.answers)

/-- `host.OsQuery()` (46_io_meta R351). -/
def State.askOs (s : State) : Text × State :=
  match s.answers.osTexts with
  | t :: rest => (t, (s.emit .osQuery).answered { s.answers with osTexts := rest })
  | [] => (Config.osAnswer s.answers.asked, (s.emit .osQuery).answered s.answers)

/-- A value the host may answer `Random(lo, hi)` with (60_exceptions R422). -/
def drawOk (lo hi v : Word) : Bool := decide (lo.toInt ≤ v.toInt) && decide (v.toInt < hi.toInt)

/-- `host.Random(lo, hi)` for lo < hi (46_io_meta R350). `none`: the queued answer lies outside [lo, hi). -/
def State.askRandom (s : State) (lo hi : Word) : Option (Word × State) :=
  match s.answers.draws with
  | v :: rest =>
    if drawOk lo hi v then some (v, (s.emit (.random lo hi)).answered { s.answers with draws := rest }) else none
  | [] =>
    let span := (hi.toInt - lo.toInt).toNat
    let v := wrap32 (lo.toInt + ((Config.randomAnswer s.answers.asked % span : Nat) : Int))
    some (v, (s.emit (.random lo hi)).answered s.answers)

/-! ## Outcomes of a line (00_scope R13) -/

/-- `raise Skip(code)`: the diagnostic, and nothing else written; the loop then advances. -/
def State.skip (s : State) (code : DiagCode) : Result := .next (s.diag code)

/-- The diagnostic of a halt (60_exceptions R402). -/
def HaltCode.diag : HaltCode → DiagCode
  | .unknownMnemonic => .unknownMnemonic
  | .pcRange => .pcRange

/-- `raise RunHalt(code)`: the diagnostic, then RUN; the program counter stays (40_dispatch_loop R187). -/
def State.runHalt (s : State) (code : HaltCode) : State := { s.diag code.diag with run := .halted code }

/-- `raise Terminate(status)`: RUN, then the host request (40_dispatch_loop R180, 60_exceptions R423). -/
def State.terminate (s : State) (status : Word) : State :=
  ({ s with run := .terminated status } : State).emit (.terminate status)

/-- `redirect(t)` (00_scope R16). -/
def State.redirect (s : State) (t : Nat) : State := s.setPc (wrap32 ((t : Int) - 1))

/-- The advance (40_dispatch_loop R189). -/
def State.advance (s : State) : State := s.setPc (wrap32 (s.pc.toInt + 1))

/-! ## Labels (00_scope R12) -/

/-- Look a name up in a label table. -/
def lookupLabel (table : List (Text × Nat)) (name : Text) : Option Nat :=
  (table.find? (fun e => e.1 == name)).map (fun e => e.2)

/-- `Label(name)`. -/
def State.labelIndex (s : State) (name : Text) : Option Nat := lookupLabel s.lrom name

/-! ## The stack (00_scope R11, 10_state R60) -/

/-- `depth = STACK_DEPTH`; never when the stack is unbounded (10_state R61). -/
def State.stackFull (s : State) : Bool := decide (s.params.stackDepth = some s.stack.length)

/-- `Push(v)`. -/
def State.push (s : State) (v : Word) : State := { s with stack := v :: s.stack }

/-! ## Data memory -/

/-- What an unlisted address holds: 0, as construction and every initialization leave it (70_reset_and_hazards R450,
20_memory R104). -/
def unlistedCell : Word := 0

/-- The cell at an address. -/
def Memory.read : Memory → Nat → Word
  | [], _ => unlistedCell
  | (b, w) :: m, a => if a = b then w else Memory.read m a

/-- Put a cell in front of `m`, unless it is what an unlisted address holds. -/
def Memory.put (a : Nat) (v : Word) (m : Memory) : Memory := if v = unlistedCell then m else (a, v) :: m

/-- Store a cell, keeping the canonical form. -/
def Memory.write : Memory → Nat → Word → Memory
  | [], a, v => Memory.put a v []
  | (b, w) :: m, a, v =>
    if a < b then Memory.put a v ((b, w) :: m)
    else if a = b then Memory.put a v m
    else (b, w) :: Memory.write m a v

/-- Store the cells `ws` from address `a` upwards. -/
def Memory.writeList (m : Memory) (a : Nat) : List Word → Memory
  | [] => m
  | w :: ws => Memory.writeList (Memory.write m a w) (a + 1) ws

/-- The canonical form: addresses strictly rising, no cell equal to what an unlisted address holds. -/
abbrev Memory.wf (m : Memory) : Prop :=
  m.Pairwise (fun x y => x.1 < y.1) ∧ ∀ c ∈ m, c.2 ≠ unlistedCell

/-- `inrange(a)` (20_memory R91). -/
def State.inRange (s : State) (a : Int) : Bool := decide (0 ≤ a) && decide (a < (s.params.memSize : Int))

/-- The value `MemRead` returns: the cell, or 0 out of range (20_memory R92). -/
def State.cell (s : State) (a : Int) : Word := if s.inRange a then Memory.read s.mem a.toNat else 0

/-- The diagnostic of an access out of range (20_memory R92, R93). -/
def State.touch (s : State) (a : Int) : State := if s.inRange a then s else s.diag .memOob

/-- `MemRead(a, 1)` (20_memory R92). -/
def State.memRead (s : State) (a : Int) : Word × State := (s.cell a, s.touch a)

/-- `MemWrite(a, 1, v)` (20_memory R93). -/
def State.memWrite (s : State) (a : Int) (v : Word) : State :=
  if s.inRange a then { s with mem := Memory.write s.mem a.toNat v } else s.diag .memOob

/-- The first cell of the reserved region (20_memory R95). -/
def State.reservedBase (s : State) : Int := (s.params.memSize : Int) - (s.params.reservedSize : Int)

/-- `MemWrite` of the cells `ws` from `a` upwards, in ascending order (20_memory R99). -/
def State.writeCells (s : State) (a : Int) : List Word → State
  | [] => s
  | w :: ws => State.writeCells (s.memWrite a w) (a + 1) ws

/-- The ordered forward copy of `n` cells (20_memory R99, 45_memory_ops R314): cell i is read (`cell`, with the
diagnostic `touch`) and then written before cell i + 1 is read. -/
def State.copyCells (s : State) (src dst : Int) : Nat → State
  | 0 => s
  | n + 1 =>
    State.copyCells ((s.touch src).memWrite dst (s.cell src)) (src + 1) (dst + 1) n

/-- The sign of two cells that differ (45_memory_ops R315, R316). -/
def cellSign (x y : Word) : Int := if x.toInt < y.toInt then -1 else 1

/-- The comparison loop of `cmpMem` (45_memory_ops R315): `MemRead` at `p`, then at `q`, each its value (`cell`) and its
diagnostic (`touch`); it stops at the first difference. -/
def State.compareCells (s : State) (p q : Int) : Nat → Int × State
  | 0 => (0, s)
  | n + 1 =>
    if s.cell p = s.cell q then State.compareCells ((s.touch p).touch q) (p + 1) (q + 1) n
    else (cellSign (s.cell p) (s.cell q), (s.touch p).touch q)

/-- `cstrcmp` (45_memory_ops R316), with a bound on its iterations; reads as in `compareCells`. -/
def State.compareText (s : State) (p q : Int) : Nat → Int × State
  | 0 => (0, s)
  | n + 1 =>
    if s.cell p = s.cell q then
      if s.cell p = 0 then (0, (s.touch p).touch q)
      else State.compareText ((s.touch p).touch q) (p + 1) (q + 1) n
    else (cellSign (s.cell p) (s.cell q), (s.touch p).touch q)

/-- The cells from `a` up to a cell of 0 (45_memory_ops R318), as characters, with a bound on their number. -/
def State.scanText (s : State) (a : Int) : Nat → Text × State
  | 0 => ([], s)
  | n + 1 =>
    if s.cell a = 0 then ([], s.touch a)
    else
      let rest := State.scanText (s.touch a) (a + 1) n
      (cellChar (s.cell a) :: rest.1, rest.2)

/-- `MemRead` of `n` cells from `a` upwards, in ascending order (45_memory_ops R317). -/
def State.readCells (s : State) (a : Int) : Nat → List Word × State
  | 0 => ([], s)
  | n + 1 =>
    let rest := State.readCells (s.touch a) (a + 1) n
    (s.cell a :: rest.1, rest.2)

/-- Iterations after which a scan for a null cell has ended (45_memory_ops R316: within MEM_SIZE + 1); log 14. -/
def State.scanBound (s : State) : Nat := s.params.memSize + 1

/-- `for i in 0..len-1` runs `len` times, and not at all for `len <= 0` (45_memory_ops R313). -/
def loopCount (len : Word) : Nat := len.toInt.toNat

end Sys2Proof.Machine
end

