-- ==== Sys2Proof/Machine/Flags.lean ====
section
/-! DEFINITION. The flag computations (10_state R50, R51; 43_comparison R251-R253). -/

namespace Sys2Proof.Machine

/-- Read a flag of an `fv`. -/
def flagOf (b : FlagBits) (f : Flag) : Bool := b.getLsbD f.bit

/-- `F | (1 << bit(f))` (43_comparison R252). -/
def raiseFlag (b : FlagBits) (f : Flag) : FlagBits := b ||| ((1 : FlagBits) <<< f.bit)

/-- `F & ~(1 << bit(f))` (43_comparison R253). -/
def dropFlag (b : FlagBits) (f : Flag) : FlagBits := b &&& ~~~((1 : FlagBits) <<< f.bit)

/-- Bits 0, 1, 2 as given, bits 3..7 kept (10_state R51). -/
def zpnBits (z p n : Bool) (b : FlagBits) : FlagBits :=
  (b &&& 0xF8) ||| (if z then 1 else 0) ||| (if p then 2 else 0) ||| (if n then 4 else 0)

/-- Write F.Z, F.P and F.N; F bits 3..7 unchanged. -/
def State.setZPN (s : State) (z p n : Bool) : State := s.setFlagBits (zpnBits z p n s.flagBits)

/-- The flag law of 10_state R51 for a signed result or sign `v`. -/
def State.signFlags (s : State) (v : Int) : State := s.setZPN (decide (v = 0)) (decide (0 < v)) (decide (v < 0))

/-- The Copied bit, 0x20, ORed in (41_movement R204). -/
def copiedBits (b : FlagBits) : FlagBits := b ||| 0x20

/-- Per-kind equality of generic values (43_comparison R254). -/
def eqv : GVal → GVal → Bool
  | .integer m, .integer n => decide (m = n)
  | .text t, .text u => decide (t = u)
  | .boolean b, .boolean c => decide (b = c)
  | .empty, .empty => true
  | _, _ => false

/-- The ASCII lower case of a letter. -/
def lowerAscii (c : CodePoint) : CodePoint :=
  if 65 ≤ c.code ∧ c.code ≤ 90 then .scalar (Char.ofNat (c.code + 32)) else c

/-- `isTrue(V)` (43_comparison R255); log 13. -/
def isTrue : GVal → Bool
  | .boolean b => b
  | .text t => decide ((trim t).map lowerAscii = (chars ['t', 'r', 'u', 'e']))
  | .integer _ => false
  | .empty => false

end Sys2Proof.Machine
end

