-- ==== Sys2Proof/Machine/Operands.lean ====
section
/-! DEFINITION. The values of the operand kinds (30_encoding R147-R155) and the shapes several instructions share. An
operand is read in the state before the instruction writes anything (40_dispatch_loop R192). -/

namespace Sys2Proof.Machine

/-- The value of a SRC_AV operand (30_encoding R147). -/
def State.srcAv (s : State) : SrcAv → Word
  | .lit v => v
  | .reg r => (s.reg r).av

/-- The value of a SRC_LV operand (30_encoding R148). -/
def State.srcLv (s : State) : SrcLv → Wide
  | .lit v => v
  | .reg r => (s.reg r).lv

/-- The address of a memory label (10_state R71). -/
def State.memLabelAddr (s : State) : MemLabel → Int
  | .text => 0
  | .reserved => s.reservedBase

/-- The address an ADDR operand names (30_encoding R150). -/
def State.addr (s : State) : Addr → Int
  | .lit v => v.toInt
  | .memLabel m => s.memLabelAddr m
  | .reg r => (s.reg r).av.toInt

/-- The generic value of a GVAL operand (30_encoding R155). -/
def State.gArg (s : State) : GArg → GVal
  | .reg r => (s.reg r).val
  | .text t => .text t

/-- A LABEL operand (30_encoding R149): its index goes to `k`; an unknown label skips. -/
def State.withLabel (s : State) (l : Text) (k : Nat → Result) : Result :=
  match s.labelIndex l with
  | some t => k t
  | none => s.skip .unknownLabel

/-- The jump template (44_control_flow R270). -/
def State.jumpIf (s : State) (l : Text) (cond : Bool) : Result :=
  s.withLabel l (fun t => if cond then .next (s.redirect t) else .next s)

/-- The family template of the binary arithmetic instructions (42_arithmetic R220). -/
def State.arith (s : State) (d : Reg) (x : SrcAv) (op : Word → Word → Word) : Result :=
  let v := op (s.reg d).av (s.srcAv x)
  .next ((s.setAv d v).signFlags v.toInt)

/-- The template with the precondition b != 0 of `div` and `mod` (42_arithmetic R225, R226). -/
def State.arithNonzero (s : State) (d : Reg) (x : SrcAv) (op : Word → Word → Word) : Result :=
  if s.srcAv x = 0 then s.skip .divZero else s.arith d x op

/-- The full move (41_movement R204): val, av and lv are copied, and Copied is ORed into the destination's `fv`. -/
def State.fullMove (s : State) (d src : Reg) : State :=
  s.setReg d { val := (s.reg src).val, av := (s.reg src).av, lv := (s.reg src).lv, fv := copiedBits (s.reg d).fv }

/-- The cells a token of `writeMem` writes: its value, or its characters (45_memory_ops R312). -/
def tokenCells (t : Text) : List Word :=
  match intValue t with
  | some v => [wrap32 v]
  | none => t.map charCode

/-- An integer-shaped token whose value is not in int32 (45_memory_ops R312). -/
def tokenTooWide (t : Text) : Bool :=
  match intValue t with
  | some v => !inInt32 v
  | none => false

/-- `render(v)` of `writeVal` (46_io_meta R347). -/
def render : GVal → Text
  | .text t => t
  | .integer n => dec n.toInt
  | .boolean true => chars ['t', 'r', 'u', 'e']
  | .boolean false => chars ['f', 'a', 'l', 's', 'e']
  | .empty => []

end Sys2Proof.Machine
end

