-- ==== Sys2Proof/Machine/Arithmetic.lean ====
section
/-! DEFINITION. Arithmetic and bitwise instructions (42_arithmetic): the exact result, narrowed by `wrap32`. -/

namespace Sys2Proof.Machine

/-- The shift count `b & 31` (42_arithmetic R227, R228). -/
def shiftCount (b : Word) : Nat := (b &&& 31).toNat

/-- R222. -/
def addOp (a b : Word) : Word := wrap32 (a.toInt + b.toInt)

/-- R223. -/
def subOp (a b : Word) : Word := wrap32 (a.toInt - b.toInt)

/-- R224. -/
def mulOp (a b : Word) : Word := wrap32 (a.toInt * b.toInt)

/-- R225: truncation toward zero. -/
def divOp (a b : Word) : Word := wrap32 (a.toInt.tdiv b.toInt)

/-- R226: the remainder of the truncating division. -/
def modOp (a b : Word) : Word := wrap32 (a.toInt - b.toInt * a.toInt.tdiv b.toInt)

/-- R227. -/
def shlOp (a b : Word) : Word := wrap32 (a.toInt * 2 ^ shiftCount b)

/-- R228: the floor of the quotient, an arithmetic shift. -/
def shrOp (a b : Word) : Word := wrap32 (a.toInt.fdiv (2 ^ shiftCount b))

/-- R222. -/
def execAdd (d : Reg) (x : SrcAv) (s : State) : Result := s.arith d x addOp

/-- R223. -/
def execSub (d : Reg) (x : SrcAv) (s : State) : Result := s.arith d x subOp

/-- R224. -/
def execMul (d : Reg) (x : SrcAv) (s : State) : Result := s.arith d x mulOp

/-- R225. -/
def execDiv (d : Reg) (x : SrcAv) (s : State) : Result := s.arithNonzero d x divOp

/-- R226. -/
def execMod (d : Reg) (x : SrcAv) (s : State) : Result := s.arithNonzero d x modOp

/-- R227. -/
def execShl (d : Reg) (x : SrcAv) (s : State) : Result := s.arith d x shlOp

/-- R228. -/
def execShr (d : Reg) (x : SrcAv) (s : State) : Result := s.arith d x shrOp

/-- R229. -/
def execAnd (d : Reg) (x : SrcAv) (s : State) : Result := s.arith d x (fun a b => a &&& b)

/-- R230. -/
def execOr (d : Reg) (x : SrcAv) (s : State) : Result := s.arith d x (fun a b => a ||| b)

/-- R231. -/
def execXor (d : Reg) (x : SrcAv) (s : State) : Result := s.arith d x (fun a b => a ^^^ b)

/-- R232: the template of R220 without a second operand. -/
def execNot (d : Reg) (s : State) : Result :=
  let v := ~~~(s.reg d).av
  .next ((s.setAv d v).signFlags v.toInt)

end Sys2Proof.Machine
end

