-- ==== Sys2Proof/Machine/Comparison.lean ====
section
/-! DEFINITION. Comparison and flag-write instructions (43_comparison). They write only F. -/

namespace Sys2Proof.Machine

/-- R250: the exact signed order, no subtraction. -/
def execCmp (d : Reg) (x : SrcAv) (s : State) : Result :=
  let a := (s.reg d).av.toInt
  let b := (s.srcAv x).toInt
  .next (s.setZPN (decide (a = b)) (decide (b < a)) (decide (a < b)))

/-- R251: equality into Z, 0 into P, both true into N. -/
def execCmpv (t1 t2 : GArg) (s : State) : Result :=
  let a := s.gArg t1
  let b := s.gArg t2
  .next (s.setZPN (eqv a b) false (isTrue a && isTrue b))

/-- R252. -/
def execSetflag (f : Flag) (s : State) : Result := .next (s.setFlagBits (raiseFlag s.flagBits f))

/-- R253. -/
def execClearflag (f : Flag) (s : State) : Result := .next (s.setFlagBits (dropFlag s.flagBits f))

end Sys2Proof.Machine
end

