-- ==== Sys2Proof/Machine/Control.lean ====
section
/-! DEFINITION. Control flow and stack instructions (44_control_flow). -/

namespace Sys2Proof.Machine

/-- R271. -/
def execJmp (l : Text) (s : State) : Result := s.jumpIf l true

/-- R272. -/
def execJz (l : Text) (s : State) : Result := s.jumpIf l (flagOf s.flagBits .zero)

/-- R273. -/
def execJnz (l : Text) (s : State) : Result := s.jumpIf l (!flagOf s.flagBits .zero)

/-- R274. -/
def execJn (l : Text) (s : State) : Result := s.jumpIf l (flagOf s.flagBits .negative)

/-- R275. -/
def execJnn (l : Text) (s : State) : Result := s.jumpIf l (!flagOf s.flagBits .negative)

/-- R276. -/
def execJp (l : Text) (s : State) : Result := s.jumpIf l (flagOf s.flagBits .positive)

/-- R277. -/
def execJnp (l : Text) (s : State) : Result := s.jumpIf l (!flagOf s.flagBits .positive)

/-- R278. -/
def execJf (l : Text) (s : State) : Result := s.jumpIf l (flagOf s.flagBits .failure)

/-- R279. -/
def execJnf (l : Text) (s : State) : Result := s.jumpIf l (!flagOf s.flagBits .failure)

/-- R280. -/
def execJo (l : Text) (s : State) : Result := s.jumpIf l (flagOf s.flagBits .overflow)

/-- R281. -/
def execJno (l : Text) (s : State) : Result := s.jumpIf l (!flagOf s.flagBits .overflow)

/-- R283: the index of the call itself is pushed. -/
def execCall (l : Text) (s : State) : Result :=
  s.withLabel l (fun t => if s.stackFull then s.skip .stackFull else .next ((s.push s.pc).redirect t))

/-- R284: the popped value is written as is; an empty stack terminates. -/
def execRet (s : State) : Result :=
  match s.stack with
  | [] => .next ((s.diag .retUnderflow).terminate Config.retUnderflowStatus)
  | v :: rest => .next (({ s with stack := rest } : State).setPc v)

/-- R285: the counter is `ecx`; no flag is written. -/
def execLoop (l : Text) (s : State) : Result :=
  s.withLabel l (fun t =>
    let c := wrap32 ((s.reg .ecx).av.toInt - 1)
    let counted := s.setAv .ecx c
    if c ≠ 0 then .next (counted.redirect t) else .next counted)

/-- R286: the status is the operand, 0 without one. -/
def execExit (n : Option SrcAv) (s : State) : Result :=
  match n with
  | some x => .next (s.terminate (s.srcAv x))
  | none => .next (s.terminate 0)

/-- R295. -/
def execPush (x : SrcAv) (s : State) : Result :=
  if s.stackFull then s.skip .stackFull else .next (s.push (s.srcAv x))

/-- R296: an empty pop skips. -/
def execPop (r : Reg) (s : State) : Result :=
  match s.stack with
  | [] => s.skip .stackEmpty
  | v :: rest => .next (({ s with stack := rest } : State).setAv r v)

end Sys2Proof.Machine
end

