-- ==== Sys2Proof/Machine/InputOutput.lean ====
section
/-! DEFINITION. I/O and meta instructions (46_io_meta). Operands are validated before any host request. -/

namespace Sys2Proof.Machine

/-- R340: only `val`. -/
def execRead (r : Reg) (s : State) : Result :=
  let x := s.askLine
  .next (x.2.setVal r (.text x.1))

/-- R341: `val`, `av` and `lv`. -/
def execReadKey (r : Reg) (s : State) : Result :=
  let x := s.askKey
  .next (((x.2.setVal r (.text x.1.char)).setAv r x.1.code).setLv r (x.1.mask.setWidth 64))

/-- R342. -/
def execWrite (ts : List Text) (s : State) : Result := .next (s.emit (.write (joinSpaced ts)))

/-- R343. -/
def execWriteln (ts : List Text) (s : State) : Result := .next (s.emit (.writeLine (joinSpaced ts)))

/-- R344. -/
def execWriteAV (r : Reg) (s : State) : Result := .next (s.emit (.write (dec (s.reg r).av.toInt)))

/-- R345. -/
def execWriteLV (r : Reg) (s : State) : Result := .next (s.emit (.write (dec (s.reg r).lv.toInt)))

/-- R346: `fv` is read as an unsigned number. -/
def execWriteFV (r : Reg) (s : State) : Result := .next (s.emit (.write (dec ((s.reg r).fv.toNat : Int))))

/-- R347. -/
def execWriteVal (r : Reg) (s : State) : Result := .next (s.emit (.write (render (s.reg r).val)))

/-- R348. -/
def execDump (s : State) : Result := .next (s.emit (.dump s.snapshot))

/-- R349: a negative duration skips, with no request. -/
def execSleep (ms : SrcAv) (s : State) : Result :=
  let d := s.srcAv ms
  if d.toInt < 0 then s.skip .badRange else .next (s.emit (.sleep d))

/-- R350: an empty range skips, with no request. A queued answer out of range is the host's fault (60_exceptions R422;
log 5). -/
def execRand (r : Reg) (lo hi : SrcAv) (s : State) : Result :=
  let a := s.srcAv lo
  let b := s.srcAv hi
  if b.toInt ≤ a.toInt then s.skip .badRange
  else
    match s.askRandom a b with
    | some (v, t) => .next (t.setAv r v)
    | none => .fault .randomAnswerOutOfRange

/-- R351: only `val`. -/
def execOs (r : Reg) (s : State) : Result :=
  let x := s.askOs
  .next (x.2.setVal r (.text x.1))

/-- R352. -/
def execBeep (s : State) : Result := .next (s.emit .beep)

/-- R353: the full move of R204, gated by a flag. -/
def execCmovf (f : Flag) (d src : Reg) (s : State) : Result :=
  if flagOf s.flagBits f then .next (s.fullMove d src) else .next s

/-- R354. -/
def execBrk (s : State) : Result := .next (s.emit (.breakpoint s.pc))

end Sys2Proof.Machine
end

