-- ==== Sys2Proof/Machine/MemoryAccess.lean ====
section
/-! DEFINITION. Memory instructions (45_memory_ops). An out-of-range cell gives a diagnostic and does not skip. -/

namespace Sys2Proof.Machine

/-- R310: the destination is `mc` when none is given. -/
def execReadMem (a : Addr) (r : Option Reg) (s : State) : Result :=
  let x := s.memRead (s.addr a)
  .next (x.2.setAv (r.getD .mc) x.1)

/-- R311. -/
def execWriteRawMem (a : Addr) (v : SrcAv) (s : State) : Result := .next (s.memWrite (s.addr a) (s.srcAv v))

/-- R312: every token is checked before the first write. -/
def execWriteMem (a : Addr) (ts : List Text) (s : State) : Result :=
  if ts.any tokenTooWide then s.skip .literal
  else .next (s.writeCells (s.addr a) (ts.flatMap tokenCells))

/-- R313. -/
def execFillMem (a : Addr) (n v : SrcAv) (s : State) : Result :=
  .next (s.writeCells (s.addr a) (List.replicate (loopCount (s.srcAv n)) (s.srcAv v)))

/-- R314. -/
def execCopyMem (src dst : Addr) (n : SrcAv) (s : State) : Result :=
  .next (s.copyCells (s.addr src) (s.addr dst) (loopCount (s.srcAv n)))

/-- R315. -/
def execCmpMem (a b : Addr) (n : SrcAv) (s : State) : Result :=
  let r := s.compareCells (s.addr a) (s.addr b) (loopCount (s.srcAv n))
  .next (r.2.signFlags r.1)

/-- R316: a literal string is materialized in the reserved region, and the whole region is zeroed after comparing. -/
def execCmpStr (a : Addr) (b : StrAddr) (s : State) : Result :=
  match b with
  | .addr b =>
    let r := s.compareText (s.addr a) (s.addr b) s.scanBound
    .next (r.2.signFlags r.1)
  | .literal t =>
    if s.params.reservedSize < t.length + 1 then s.skip .literalTooLong
    else
      let placed := s.writeCells s.reservedBase (t.map charCode ++ [0])
      let r := placed.compareText (s.addr a) s.reservedBase s.scanBound
      let scrubbed := r.2.writeCells s.reservedBase (List.replicate s.params.reservedSize 0)
      .next (scrubbed.signFlags r.1)

/-- R317. -/
def execPrintMem (a : Addr) (n : SrcAv) (s : State) : Result :=
  let r := s.readCells (s.addr a) (loopCount (s.srcAv n))
  .next (r.2.emit (.writeLine (joinSpaced (r.1.map (fun w => dec w.toInt)))))

/-- R318. -/
def execPrintStr (a : Addr) (s : State) : Result :=
  let r := s.scanText (s.addr a) s.scanBound
  .next (r.2.emit (.write r.1))

end Sys2Proof.Machine
end

