-- ==== Sys2Proof/Machine/Movement.lean ====
section
/-! DEFINITION. Movement instructions (41_movement). None recomputes Z, P or N (R200). -/

namespace Sys2Proof.Machine

/-- R201. A single integer-shaped token in int32 also writes `av`. -/
def execSet (r : Reg) (ts : List Text) (s : State) : Result :=
  let named := s.setVal r (.text (joinSpaced ts))
  match ts with
  | [t] =>
    match intValue t with
    | some v => if inInt32 v then .next (named.setAv r (wrap32 v)) else .next named
    | none => .next named
  | _ => .next named

/-- R202. -/
def execSetAV (r : Reg) (x : SrcAv) (s : State) : Result := .next (s.setAv r (s.srcAv x))

/-- R203. -/
def execSetLV (r : Reg) (x : SrcLv) (s : State) : Result := .next (s.setLv r (s.srcLv x))

/-- R204. -/
def execMov (d src : Reg) (s : State) : Result := .next (s.fullMove d src)

/-- R205. -/
def execMovv (d src : Reg) (s : State) : Result := .next (s.setVal d (s.reg src).val)

end Sys2Proof.Machine
end

