-- ==== Sys2Proof/Machine/NoOpLines.lean ====
section
/-! DEFINITION. The three no-op line classes (40_dispatch_loop R184-R186): the loop only advances. -/

namespace Sys2Proof.Machine

/-- R184. -/
def execLabel (_name : Text) (s : State) : Result := .next s

/-- R185. -/
def execDirective (_name : Text) (s : State) : Result := .next s

/-- R186. -/
def execEmpty (s : State) : Result := .next s

end Sys2Proof.Machine
end

