-- ==== Sys2Proof/Machine/Dispatch.lean ====
section
/-! DEFINITION. Dispatch: the meaning of each instruction, one arm per constructor of Instr (40_dispatch_loop R183, R188
phase 3). -/

namespace Sys2Proof.Machine

-- The effect of an instruction before the advance of 40_dispatch_loop R189.
def exec (i : Instr) (s : State) : Host.Outcome State Fault Refusal :=
  match i with
  -- movement (41_movement)
  | .set r ts => Sys2Proof.Machine.execSet r ts s
  | .setAV r x => Sys2Proof.Machine.execSetAV r x s
  | .setLV r x => Sys2Proof.Machine.execSetLV r x s
  | .mov d src => Sys2Proof.Machine.execMov d src s
  | .movv d src => Sys2Proof.Machine.execMovv d src s
  -- arithmetic and bitwise (42_arithmetic)
  | .add d x => Sys2Proof.Machine.execAdd d x s
  | .sub d x => Sys2Proof.Machine.execSub d x s
  | .mul d x => Sys2Proof.Machine.execMul d x s
  | .div d x => Sys2Proof.Machine.execDiv d x s
  | .mod d x => Sys2Proof.Machine.execMod d x s
  | .shl d x => Sys2Proof.Machine.execShl d x s
  | .shr d x => Sys2Proof.Machine.execShr d x s
  | .and d x => Sys2Proof.Machine.execAnd d x s
  | .or d x => Sys2Proof.Machine.execOr d x s
  | .xor d x => Sys2Proof.Machine.execXor d x s
  | .not d => Sys2Proof.Machine.execNot d s
  -- comparison and flag writes (43_comparison)
  | .cmp d x => Sys2Proof.Machine.execCmp d x s
  | .cmpv t1 t2 => Sys2Proof.Machine.execCmpv t1 t2 s
  | .setflag f => Sys2Proof.Machine.execSetflag f s
  | .clearflag f => Sys2Proof.Machine.execClearflag f s
  -- control flow and stack (44_control_flow)
  | .jmp l => Sys2Proof.Machine.execJmp l s
  | .jz l => Sys2Proof.Machine.execJz l s
  | .jnz l => Sys2Proof.Machine.execJnz l s
  | .jn l => Sys2Proof.Machine.execJn l s
  | .jnn l => Sys2Proof.Machine.execJnn l s
  | .jp l => Sys2Proof.Machine.execJp l s
  | .jnp l => Sys2Proof.Machine.execJnp l s
  | .jf l => Sys2Proof.Machine.execJf l s
  | .jnf l => Sys2Proof.Machine.execJnf l s
  | .jo l => Sys2Proof.Machine.execJo l s
  | .jno l => Sys2Proof.Machine.execJno l s
  | .call l => Sys2Proof.Machine.execCall l s
  | .ret => Sys2Proof.Machine.execRet s
  | .loop l => Sys2Proof.Machine.execLoop l s
  | .exit n => Sys2Proof.Machine.execExit n s
  | .push x => Sys2Proof.Machine.execPush x s
  | .pop r => Sys2Proof.Machine.execPop r s
  -- memory (45_memory_ops)
  | .readMem a r => Sys2Proof.Machine.execReadMem a r s
  | .writeRawMem a v => Sys2Proof.Machine.execWriteRawMem a v s
  | .writeMem a ts => Sys2Proof.Machine.execWriteMem a ts s
  | .fillMem a n v => Sys2Proof.Machine.execFillMem a n v s
  | .copyMem src dst n => Sys2Proof.Machine.execCopyMem src dst n s
  | .cmpMem a b n => Sys2Proof.Machine.execCmpMem a b n s
  | .cmpStr a b => Sys2Proof.Machine.execCmpStr a b s
  | .printMem a n => Sys2Proof.Machine.execPrintMem a n s
  | .printStr a => Sys2Proof.Machine.execPrintStr a s
  -- I/O and meta (46_io_meta)
  | .read r => Sys2Proof.Machine.execRead r s
  | .readKey r => Sys2Proof.Machine.execReadKey r s
  | .write ts => Sys2Proof.Machine.execWrite ts s
  | .writeln ts => Sys2Proof.Machine.execWriteln ts s
  | .writeAV r => Sys2Proof.Machine.execWriteAV r s
  | .writeLV r => Sys2Proof.Machine.execWriteLV r s
  | .writeFV r => Sys2Proof.Machine.execWriteFV r s
  | .writeVal r => Sys2Proof.Machine.execWriteVal r s
  | .dump => Sys2Proof.Machine.execDump s
  | .sleep ms => Sys2Proof.Machine.execSleep ms s
  | .rand r lo hi => Sys2Proof.Machine.execRand r lo hi s
  | .os r => Sys2Proof.Machine.execOs r s
  | .beep => Sys2Proof.Machine.execBeep s
  | .cmovf f d src => Sys2Proof.Machine.execCmovf f d src s
  | .brk => Sys2Proof.Machine.execBrk s
  -- the three no-op line classes (40_dispatch_loop R184-R186)
  | .label name => Sys2Proof.Machine.execLabel name s
  | .directive name => Sys2Proof.Machine.execDirective name s
  | .empty => Sys2Proof.Machine.execEmpty s

end Sys2Proof.Machine
end

