-- ==== Sys2Proof/Machine/Loop.lean ====
section
/-! DEFINITION. The fetch-dispatch-advance loop (40_dispatch_loop). -/

namespace Sys2Proof.Machine

/-- Fetch (40_dispatch_loop R182), for a program counter that is not negative; `none` when pc >= count. -/
def State.fetch (s : State) : Option Text := s.irom[s.pc.toNat]?

/-- After a line (40_dispatch_loop R189): the advance, unless the line left RUN other than Running. -/
def State.finish (s : State) : State :=
  match s.run with
  | .running => s.advance
  | .idle | .done | .halted _ | .terminated _ => s

/-- `finish` on what a meaning answers. -/
def finishResult : Result → Result
  | .next s => .next s.finish
  | .fault f => .fault f
  | .refused r => .refused r

/-- Dispatch a line and advance (40_dispatch_loop R180, R183, R187-R189). -/
def State.runLine (s : State) (line : Text) : Result :=
  match decode line with
  | .instr i => finishResult (exec i s)
  | .skip code => finishResult (s.skip code)
  | .unknown _ => .next (s.runHalt .unknownMnemonic)

/-- One step while RUN is Running (40_dispatch_loop R180, R181). The two loop-head tests exclude each other, so their
order cannot be observed. -/
def State.runStep (s : State) : Result :=
  if s.pc.toInt < 0 then .next (s.runHalt .pcRange)
  else
    match s.fetch with
    | none => .next { s with run := .done }
    | some line => s.runLine line

/-- Step (70_reset_and_hazards R453): when RUN is anything but Running it does nothing; log 7. -/
def State.stepOnce (s : State) : Result :=
  match s.run with
  | .running => s.runStep
  | .idle | .done | .halted _ | .terminated _ => .next s

end Sys2Proof.Machine
end

