-- ==== Sys2Proof/Machine/RegisterPort.lean ====
section
/-! DEFINITION. The register-file port of a host that reads or writes registers by id (10_state R35). No instruction
reaches it. The diagnostic for an unknown id carries the current program counter; DESIGN CHOICE, log 10. -/

namespace Sys2Proof.Machine

/-- Read an `av`; the sentinel is -1. -/
def State.portReadAv (s : State) (id : Nat) : Word × State :=
  match Reg.ofId id with
  | some r => ((s.reg r).av, s)
  | none => (wrap32 (-1), s.diag .unknownReg)

/-- Read an `lv`; the sentinel is -1. -/
def State.portReadLv (s : State) (id : Nat) : Wide × State :=
  match Reg.ofId id with
  | some r => ((s.reg r).lv, s)
  | none => (BitVec.ofInt 64 (-1), s.diag .unknownReg)

/-- Read an `fv`; the sentinel is 0. -/
def State.portReadFv (s : State) (id : Nat) : FlagBits × State :=
  match Reg.ofId id with
  | some r => ((s.reg r).fv, s)
  | none => (0, s.diag .unknownReg)

/-- Read a `val`; the sentinel is Empty. -/
def State.portReadVal (s : State) (id : Nat) : GVal × State :=
  match Reg.ofId id with
  | some r => ((s.reg r).val, s)
  | none => (.empty, s.diag .unknownReg)

/-- Write an `av`; dropped for an unknown id. -/
def State.portWriteAv (s : State) (id : Nat) (v : Word) : State :=
  match Reg.ofId id with
  | some r => s.setAv r v
  | none => s.diag .unknownReg

/-- Write an `lv`; dropped for an unknown id. -/
def State.portWriteLv (s : State) (id : Nat) (v : Wide) : State :=
  match Reg.ofId id with
  | some r => s.setLv r v
  | none => s.diag .unknownReg

/-- Write an `fv`; dropped for an unknown id. Bit 7 stays 0 (10_state R56; 93_implementation_defined: stuck at 0);
DEDUCED, log 10. -/
def State.portWriteFv (s : State) (id : Nat) (v : FlagBits) : State :=
  match Reg.ofId id with
  | some r => s.setFv r (v &&& 0x7F)
  | none => s.diag .unknownReg

/-- Write a `val`; dropped for an unknown id. -/
def State.portWriteVal (s : State) (id : Nat) (v : GVal) : State :=
  match Reg.ofId id with
  | some r => s.setVal r v
  | none => s.diag .unknownReg

end Sys2Proof.Machine
end

