-- ==== Sys2Proof/Machine/Toolchain.lean ====
section
/-! DEFINITION. The toolchain of 30_encoding R121-R128: imports, comments, blank lines, placeholder definitions (the
spec's macros), substitution, and the label indexer. -/

namespace Sys2Proof.Machine

/-- The host's line-source loader: the lines of each path it can find. How a path is resolved is the host's; log 9. -/
abbrev Loader := List (Text × List Text)

/-- Look a path up. -/
def Loader.find (files : Loader) (path : Text) : Option (List Text) :=
  (files.find? (fun f => f.1 == path)).map (fun f => f.2)

/-- The word `#import` (30_encoding R122). -/
def importWord : Text := chars ['#', 'i', 'm', 'p', 'o', 'r', 't']

/-- Everything before the first `;` (30_encoding R123). -/
def dropComment (t : Text) : Text := t.takeWhile (fun c => decide (c ≠ .scalar ';'))

/-- One pair of enclosing double quotes removed, if present (30_encoding R122). -/
def unquote (t : Text) : Text :=
  if 2 ≤ t.length ∧ t.head? = some (.scalar '"') ∧ t.getLast? = some (.scalar '"') then t.tail.dropLast else t

/-- The path of an import line (30_encoding R122). -/
def importPath (line : Text) : Text := unquote (trim (dropComment (afterFirstWord line)))

/-- Step (a) (30_encoding R122): imported lines are spliced in place and not tested again. -/
def resolveImports (files : Loader) : List Text → List Text × List DiagCode
  | [] => ([], [])
  | l :: ls =>
    let rest := resolveImports files ls
    if firstWord l = importWord then
      match files.find (importPath l) with
      | some lines => (lines ++ rest.1, rest.2)
      | none => (rest.1, .missingImport :: rest.2)
    else (l :: rest.1, rest.2)

/-- Step (b) (30_encoding R123). -/
def stripLine (t : Text) : Text := trim (dropComment t)

/-- A placeholder definition: name and raw value, or malformed (30_encoding R125). `none` for any other line. -/
def definitionOf (l : Text) : Option (Option (Text × Text)) :=
  if l.head? = some (.scalar '#') ∧ firstWord l ≠ importWord then
    let name := (firstWord l).tail
    let value := trim (afterFirstWord l)
    if name = [] ∨ value = [] then some none else some (some (name, value))
  else none

/-- What step (d) leaves: the lines that stay, the definitions (latest first), the diagnostics. -/
structure Extracted where
  lines : List Text
  table : List (Text × Text)
  diags : List DiagCode
deriving DecidableEq, Repr

/-- Step (d) (30_encoding R125): well-formed definition lines stay, malformed ones are removed; a later definition of a
name wins. -/
def extractDefinitions (table : List (Text × Text)) : List Text → Extracted
  | [] => ⟨[], table, []⟩
  | l :: ls =>
    match definitionOf l with
    | none =>
      let rest := extractDefinitions table ls
      ⟨l :: rest.lines, rest.table, rest.diags⟩
    | some (some d) =>
      let rest := extractDefinitions (d :: table) ls
      ⟨l :: rest.lines, rest.table, rest.diags⟩
    | some none =>
      let rest := extractDefinitions table ls
      ⟨rest.lines, rest.table, .malformedDefinition :: rest.diags⟩

/-- The value of a placeholder name; empty for an undefined one (30_encoding R126). -/
def placeholderValue (table : List (Text × Text)) (name : Text) : Text :=
  ((table.find? (fun d => d.1 == name)).map (fun d => d.2)).getD []

/-- Step (e), `subst` (30_encoding R126). The first argument holds the characters since an opening `%`, last first;
when no closing `%` comes, only that `%` is dropped (30_encoding R127). -/
def substScan (table : List (Text × Text)) : Option Text → Text → Text
  | none, [] => []
  | none, c :: cs => if c = .scalar '%' then substScan table (some []) cs else c :: substScan table none cs
  | some seen, [] => seen.reverse
  | some seen, c :: cs =>
    if c = .scalar '%' then placeholderValue table seen.reverse ++ substScan table none cs
    else substScan table (some (c :: seen)) cs

/-- `LROM[name] <- k`; a later declaration overwrites (30_encoding R128). -/
def setLabel (table : List (Text × Nat)) (name : Text) (k : Nat) : List (Text × Nat) :=
  table.filter (fun e => e.1 != name) ++ [(name, k)]

/-- The label indexer from index `k` on (30_encoding R128). -/
def indexFrom (table : List (Text × Nat)) (k : Nat) : List Text → List (Text × Nat)
  | [] => table
  | l :: ls =>
    if (firstWord l).getLast? = some (.scalar ':') then indexFrom (setLabel table (firstWord l).dropLast k) (k + 1) ls
    else indexFrom table (k + 1) ls

/-- The label index of a line sequence (30_encoding R128). -/
def indexLabels (lines : List Text) : List (Text × Nat) := indexFrom [] 0 lines

/-- What the toolchain writes into the block (30_encoding R129), and its diagnostics. -/
structure Program where
  lines : List Text
  labels : List (Text × Nat)
  diags : List DiagCode
deriving DecidableEq, Repr

/-- Steps (b) and (c): comments stripped, then blank lines removed (30_encoding R123, R124). -/
def survivingLines (lines : List Text) : List Text := (lines.map stripLine).filter (fun l => !l.isEmpty)

/-- The whole pipeline (30_encoding R121). -/
def toolchain (files : Loader) (source : List Text) : Program :=
  let a := resolveImports files source
  let d := extractDefinitions [] (survivingLines a.1)
  let lines := d.lines.map (substScan d.table none)
  ⟨lines, indexLabels lines, a.2 ++ d.diags⟩

end Sys2Proof.Machine
end

