-- ==== Sys2Proof/Machine/RunControl.lean ====
section
/-! DEFINITION. Run control (70_reset_and_hazards): load and start. Construction is `State.reset`. -/

namespace Sys2Proof.Machine

/-- Emit a toolchain diagnostic; its pc field is -1 (60_exceptions R420, 70_reset_and_hazards R451). -/
def State.toolDiag (s : State) (code : DiagCode) : State := s.emit (.diagnostic code (wrap32 (-1)))

/-- RUN is Running. -/
def State.isRunning (s : State) : Bool := decide (s.run = .running)

/-- Load(source lines) (70_reset_and_hazards R451, 30_encoding R129). -/
def State.load (s : State) (files : Loader) (source : List Text) : Result :=
  if s.isRunning then .refused .loadWhileRunning
  else
    let p := toolchain files source
    if Config.maxLines < p.lines.length then .refused .programTooLong
    else
      let t := p.diags.foldl State.toolDiag s
      .next { t with irom := p.lines, lrom := p.labels, run := .idle }

/-- Memory as an initialization leaves it: the text seed at 0, every other cell 0 (20_memory R104). -/
def seededMemory (p : Config.Params) : Memory := Memory.writeList [] 0 p.textSeed

/-- Start(MEMINIT) (70_reset_and_hazards R452, 20_memory R104). -/
def State.start (s : State) (memInit : Bool) : Result :=
  if s.isRunning then .refused .startWhileRunning
  else
    let m := if memInit || s.firstRun then seededMemory s.params else s.mem
    .next { s.setPc 0 with mem := m, firstRun := false, run := .running }

end Sys2Proof.Machine
end

