-- ==== Sys2Proof/Machine/Step.lean ====
section
/-! DEFINITION. The step of the block, and the placing of one table word where the step fetches. -/

namespace Sys2Proof.Machine

/-- One step (70_reset_and_hazards R453). -/
def step (s : State) : Host.Outcome State Fault Refusal := s.stepOnce

/-- `s` with the line of a table word loaded as the whole program and started: IROM and LROM as a load of that one line
leaves them, the program counter 0, RUN Running. Nothing else changes; for a word of no row `s` stays as it is. DESIGN
CHOICE; log 8. -/
def State.withFetchWord (s : State) (nbits w : Nat) : State :=
  match lineOfTableWord nbits w with
  | some line => { s.setPc 0 with irom := [line], lrom := indexLabels [line], run := .running }
  | none => s

end Sys2Proof.Machine
end

