-- ==== Sys2Proof/Safety.lean ====
section
/-! DEFINITION. The terms statements use: the invariant of the block, frames, and runs. -/

namespace Sys2Proof.Machine

/-- What the spec keeps true of every state of the block: the parameters meet their constraints (00_scope R7); memory is
canonical and lists only addresses in range (20_memory R90); the stack is within its capacity (10_state R61); the IROM
is within MAX_LINES and every label indexes it, each name once (10_state R65, R66); bit 7 of every `fv` is 0 (10_state
R56). -/
structure State.Inv (s : State) : Prop where
  params : s.params.wf
  mem : Memory.wf s.mem
  memInRange : ∀ c ∈ s.mem, c.1 < s.params.memSize
  stack : ∀ d, s.params.stackDepth = some d → s.stack.length ≤ d
  irom : s.irom.length ≤ Config.maxLines
  labels : ∀ e ∈ s.lrom, e.2 < s.irom.length
  labelNames : (s.lrom.map (fun e => e.1)).Nodup
  reservedBit : ∀ r, (s.reg r).fv.getLsbD 7 = false

/-- A queued Random answer, if there is one, lies in [lo, hi) (60_exceptions R422). -/
def State.drawReady (s : State) (lo hi : Word) : Prop := ∀ v ∈ s.answers.draws.head?, drawOk lo hi v = true

/-- Every facet of every register is as before, but the named facets of the named registers. -/
structure FacetsKept (s t : State) (vals avs lvs fvs : List Reg) : Prop where
  val : ∀ r, r ∉ vals → (t.reg r).val = (s.reg r).val
  av : ∀ r, r ∉ avs → (t.reg r).av = (s.reg r).av
  lv : ∀ r, r ∉ lvs → (t.reg r).lv = (s.reg r).lv
  fv : ∀ r, r ∉ fvs → (t.reg r).fv = (s.reg r).fv

/-- Every cell of data memory reads as before. -/
def MemoryKept (s t : State) : Prop := ∀ a : Int, t.cell a = s.cell a

/-- What no instruction writes: IROM, LROM, the parameters, the first-run marker (10_state R65, R66). -/
structure ProgramKept (s t : State) : Prop where
  irom : t.irom = s.irom
  lrom : t.lrom = s.lrom
  params : t.params = s.params
  firstRun : t.firstRun = s.firstRun

/-- The state outside registers, memory and the port's record is as before, and no host answer was taken. -/
structure MachineKept (s t : State) : Prop where
  program : ProgramKept s t
  stack : t.stack = s.stack
  run : t.run = s.run
  answers : t.answers = s.answers

/-- The state outside the register file is as before, and nothing went out on the port. -/
structure OnlyRegisters (s t : State) : Prop where
  machine : MachineKept s t
  memory : MemoryKept s t
  events : t.events = s.events

/-- All facets of all registers are as before. -/
def RegistersKept (s t : State) : Prop := ∀ r, t.reg r = s.reg r

/-- F has Z, P, N from the signed value `v`, and bits 3..7 are as before (10_state R51). -/
structure SignFlagsSet (s t : State) (v : Int) : Prop where
  zero : flagOf t.flagBits .zero = decide (v = 0)
  positive : flagOf t.flagBits .positive = decide (0 < v)
  negative : flagOf t.flagBits .negative = decide (v < 0)
  others : ∀ n, 3 ≤ n → t.flagBits.getLsbD n = s.flagBits.getLsbD n

/-- How many of the `n` addresses from `a` on are out of range; each access to one gives a diagnostic (20_memory R94). -/
def State.outside (s : State) (a : Int) (n : Nat) : Nat := (List.range n).countP (fun i : Nat => !s.inRange (a + i))

/-- `n` diagnostics of out-of-range accesses. -/
def oobDiags (s : State) (n : Nat) : List HostEvent := List.replicate n (.diagnostic .memOob s.pc)

/-- `s` after `n` out-of-range accesses. -/
def State.oob (s : State) (n : Nat) : State := { s with events := s.events ++ oobDiags s n }

/-- `r` is the sign by which the cells `x i` and `y i` compare, and `k` the index where the comparison ends
(45_memory_ops R315): they agree below `k`, and either `k` is `n` and `r` is 0, or at `k` they differ and `r` is -1 or 1 by
the signed order. -/
def FirstDifference (x y : Nat → Word) (n k : Nat) (r : Int) : Prop :=
  (∀ i < k, x i = y i) ∧
    ((k = n ∧ r = 0) ∨ (k < n ∧ x k ≠ y k ∧ r = if (x k).toInt < (y k).toInt then -1 else 1))

/-- `r` is the sign by which two strings of cells compare, and `k` the index where the comparison ends
(45_memory_ops R316): below `k` they agree and hold no null cell, and at `k` both hold a null cell and `r` is 0, or they
differ and `r` is -1 or 1 by the signed order. -/
def StringOrder (x y : Nat → Word) (k : Nat) (r : Int) : Prop :=
  (∀ i < k, x i = y i ∧ x i ≠ 0) ∧
    ((x k = 0 ∧ y k = 0 ∧ r = 0) ∨ (x k ≠ y k ∧ r = if (x k).toInt < (y k).toInt then -1 else 1))

/-- White space (30_encoding R123). -/
abbrev White (c : CodePoint) : Prop := c = .scalar ' ' ∨ c = .scalar '\t' ∨ c = .scalar '\r'

/-- `m` is `t` with leading and trailing white space removed (30_encoding R123). -/
def TrimsTo (t m : Text) : Prop :=
  ∃ a b, t = a ++ m ++ b ∧ (∀ c ∈ a, White c) ∧ (∀ c ∈ b, White c) ∧
    (∀ c ∈ m.head?, ¬ White c) ∧ ∀ c ∈ m.getLast?, ¬ White c

/-- `u` is what stands before the first `;` of `t`, all of `t` when there is none (30_encoding R123). -/
def BeforeComment (t u : Text) : Prop :=
  ∃ r, t = u ++ r ∧ .scalar ';' ∉ u ∧ ∀ c ∈ r.head?, c = .scalar ';'

/-- The first white-space-delimited token of `l` is `w`, and `rest` follows it (30_encoding R122, R135). -/
def OpensWith (l w rest : Text) : Prop :=
  ∃ a, l = a ++ w ++ rest ∧ (∀ c ∈ a, White c) ∧ w ≠ [] ∧ (∀ c ∈ w, ¬ White c) ∧ ∀ c ∈ rest.head?, White c

/-- `l` is an import line for the path `p`: after the token `#import`, without comment and outer white space, stands `p`
in double quotes, or a text that is not in double quotes and is `p` itself (30_encoding R122). -/
def ImportsPath (l p : Text) : Prop :=
  ∃ rest u v, OpensWith l "#import".toText rest ∧ BeforeComment rest u ∧ TrimsTo u v ∧
    (v = .scalar '"' :: p ++ [.scalar '"'] ∨
      (v = p ∧ ∀ q, p ≠ .scalar '"' :: q ++ [.scalar '"']))

/-- The instructions the table of 10_state R50 lists as writing Zero, Positive and Negative, but `setflag` and
`clearflag`. -/
def writesSigns : Instr → Bool
  | .add _ _ | .sub _ _ | .mul _ _ | .div _ _ | .mod _ _ | .shl _ _ | .shr _ _ | .and _ _ | .or _ _ | .xor _ _
  | .not _ | .cmp _ _ | .cmpv _ _ | .cmpMem _ _ _ | .cmpStr _ _ => true
  | .set _ _ | .setAV _ _ | .setLV _ _ | .mov _ _ | .movv _ _ | .setflag _ | .clearflag _
  | .jmp _ | .jz _ | .jnz _ | .jn _ | .jnn _ | .jp _ | .jnp _ | .jf _ | .jnf _ | .jo _ | .jno _
  | .call _ | .ret | .loop _ | .exit _ | .push _ | .pop _
  | .readMem _ _ | .writeRawMem _ _ | .writeMem _ _ | .fillMem _ _ _ | .copyMem _ _ _ | .printMem _ _ | .printStr _
  | .read _ | .readKey _ | .write _ | .writeln _ | .writeAV _ | .writeLV _ | .writeFV _ | .writeVal _
  | .dump | .sleep _ | .rand _ _ _ | .os _ | .beep | .cmovf _ _ _ | .brk
  | .label _ | .directive _ | .empty => false

/-- The argument counts a row's `arity` admits (30_encoding R154 and the `arity` of spec/opcode_table.json): `set`,
`writeMem`, `write` and `writeln` take any number from their least, `exit` and `readMem` one more than their least, every
other instruction exactly its least. -/
def arityAdmits (row : OpRow) (n : Nat) : Bool :=
  if row.opcode ∈ [0x01, 0x52, 0x62, 0x63] then decide (row.needs.length ≤ n)
  else if row.opcode ∈ [0x3E, 0x50] then decide (row.needs.length ≤ n ∧ n ≤ row.needs.length + 1)
  else decide (n = row.needs.length)

/-- A diagnostic went out, and nothing else changed (00_scope R13, Skip). -/
def Skips (s : State) (code : DiagCode) (o : Host.Outcome State Fault Refusal) : Prop :=
  o = .next { s with events := s.events ++ [.diagnostic code s.pc] }

/-- Nothing changed but that diagnostics of out-of-range accesses went out (20_memory R94, R101). -/
def ReadsOnly (s t : State) : Prop := ∃ n, t = s.oob n

/-- A step from `s` answers a next state: neither a fault nor a refusal. -/
def StepSafe (s : State) : Prop := ∃ t, step s = .next t

end Sys2Proof.Machine
end

