-- ==== Sys2Proof/Certificates/Slice0/Obligations.lean ====
section
/-! DEFINITION. The statements for the provers. Each docstring names the rules it rests on; "model's choice" marks a
clause that rests on an entry of the assumption log. -/

open Sys2Proof Sys2Proof.Machine

/-! ## Movement -/

/-- R201, effect: `set` writes the joined text into `val`, and `av` exactly when its one token is an int32 literal. -/
def Obligations.SetWritesJoinedText : Prop :=
  ∀ (r : Reg) (ts : List Text) (s : State),
    ∃ t, exec (.set r ts) s = .next t ∧
      (t.reg r).val = .text (joinSpaced ts) ∧
      (∀ x v, ts = [x] → intValue x = some v → inInt32 v = true → (t.reg r).av = wrap32 v) ∧
      ((∀ x v, ts = [x] → intValue x = some v → inInt32 v = false) → (t.reg r).av = (s.reg r).av) ∧
      FacetsKept s t [r] [r] [] [] ∧ OnlyRegisters s t

/-- R202, R203, R205, effects: `setAV`, `setLV` and `movv` write one facet of one register. -/
def Obligations.OneFacetMovesWriteOneFacet : Prop :=
  (∀ (r : Reg) (x : SrcAv) (s : State),
    ∃ t, exec (.setAV r x) s = .next t ∧ (t.reg r).av = s.srcAv x ∧
      FacetsKept s t [] [r] [] [] ∧ OnlyRegisters s t) ∧
  (∀ (r : Reg) (x : SrcLv) (s : State),
    ∃ t, exec (.setLV r x) s = .next t ∧ (t.reg r).lv = s.srcLv x ∧
      FacetsKept s t [] [] [r] [] ∧ OnlyRegisters s t) ∧
  (∀ (d src : Reg) (s : State),
    ∃ t, exec (.movv d src) s = .next t ∧ (t.reg d).val = (s.reg src).val ∧
      FacetsKept s t [d] [] [] [] ∧ OnlyRegisters s t)

/-- R204 and R353, effects: the full move, unconditional in `mov` and gated by a flag in `cmovf`; a false condition
changes nothing. -/
def Obligations.FullMoveCopiesAndMarks : Prop :=
  ∀ (d src : Reg) (s : State),
    (∃ t, exec (.mov d src) s = .next t ∧
      (t.reg d).val = (s.reg src).val ∧ (t.reg d).av = (s.reg src).av ∧ (t.reg d).lv = (s.reg src).lv ∧
      (t.reg d).fv = (s.reg d).fv ||| 0x20 ∧ FacetsKept s t [d] [d] [d] [d] ∧ OnlyRegisters s t) ∧
    (∀ f, flagOf s.flagBits f = true → exec (.cmovf f d src) s = exec (.mov d src) s) ∧
    (∀ f, flagOf s.flagBits f = false → exec (.cmovf f d src) s = .next s)

/-! ## Arithmetic and bitwise -/

/-- R8: `wrap32` is reduction to the signed 32-bit range. -/
def Obligations.WrapIsReductionToInt32 : Prop :=
  ∀ v : Int, (wrap32 v).toInt = (v + 2 ^ 31) % 2 ^ 32 - 2 ^ 31

/-- R222, R223, R224, effects: sums, differences and products wrapped to 32 bits, Z, P, N from the result. -/
def Obligations.AddSubMulWrap : Prop :=
  ∀ (d : Reg) (x : SrcAv) (s : State),
    (∃ t, exec (.add d x) s = .next t ∧ (t.reg d).av = wrap32 ((s.reg d).av.toInt + (s.srcAv x).toInt) ∧
      SignFlagsSet s t (t.reg d).av.toInt ∧ FacetsKept s t [] [d] [] [.flags] ∧ OnlyRegisters s t) ∧
    (∃ t, exec (.sub d x) s = .next t ∧ (t.reg d).av = wrap32 ((s.reg d).av.toInt - (s.srcAv x).toInt) ∧
      SignFlagsSet s t (t.reg d).av.toInt ∧ FacetsKept s t [] [d] [] [.flags] ∧ OnlyRegisters s t) ∧
    (∃ t, exec (.mul d x) s = .next t ∧ (t.reg d).av = wrap32 ((s.reg d).av.toInt * (s.srcAv x).toInt) ∧
      SignFlagsSet s t (t.reg d).av.toInt ∧ FacetsKept s t [] [d] [] [.flags] ∧ OnlyRegisters s t)

/-- R225, R226, effects: for a divisor other than 0, the wrapped truncated quotient, and the remainder with its bound and
sign; a divisor of 0 skips with E_DIV_ZERO. -/
def Obligations.DivModTruncate : Prop :=
  ∀ (d : Reg) (x : SrcAv) (s : State),
    (s.srcAv x ≠ 0 →
      (∃ t, exec (.div d x) s = .next t ∧ (t.reg d).av = wrap32 ((s.reg d).av.toInt.tdiv (s.srcAv x).toInt) ∧
        SignFlagsSet s t (t.reg d).av.toInt ∧ FacetsKept s t [] [d] [] [.flags] ∧ OnlyRegisters s t) ∧
      (∃ t, exec (.mod d x) s = .next t ∧
        (t.reg d).av.toInt =
          (s.reg d).av.toInt - (s.srcAv x).toInt * (s.reg d).av.toInt.tdiv (s.srcAv x).toInt ∧
        |(t.reg d).av.toInt| < |(s.srcAv x).toInt| ∧
        ((t.reg d).av.toInt = 0 ∨ (t.reg d).av.toInt.sign = (s.reg d).av.toInt.sign) ∧
        SignFlagsSet s t (t.reg d).av.toInt ∧ FacetsKept s t [] [d] [] [.flags] ∧ OnlyRegisters s t)) ∧
    (s.srcAv x = 0 → Skips s .divZero (exec (.div d x) s) ∧ Skips s .divZero (exec (.mod d x) s))

/-- R227, R228, effects: the count is the low five bits of the second operand; the right shift is arithmetic. -/
def Obligations.ShiftsMaskTheirCount : Prop :=
  ∀ (d : Reg) (x : SrcAv) (s : State),
    (∃ t, exec (.shl d x) s = .next t ∧
      (t.reg d).av = wrap32 ((s.reg d).av.toInt * 2 ^ ((s.srcAv x).toNat % 32)) ∧
      SignFlagsSet s t (t.reg d).av.toInt ∧ FacetsKept s t [] [d] [] [.flags] ∧ OnlyRegisters s t) ∧
    (∃ t, exec (.shr d x) s = .next t ∧
      (t.reg d).av = (s.reg d).av.sshiftRight ((s.srcAv x).toNat % 32) ∧
      SignFlagsSet s t (t.reg d).av.toInt ∧ FacetsKept s t [] [d] [] [.flags] ∧ OnlyRegisters s t)

/-- R229 to R232, effects: the bitwise instructions, bit by bit; `not` is also `-a - 1`. -/
def Obligations.BitwiseActsOnEveryBit : Prop :=
  ∀ (d : Reg) (x : SrcAv) (s : State),
    (∃ t, exec (.and d x) s = .next t ∧
      (∀ n, (t.reg d).av.getLsbD n = ((s.reg d).av.getLsbD n && (s.srcAv x).getLsbD n)) ∧
      SignFlagsSet s t (t.reg d).av.toInt ∧ FacetsKept s t [] [d] [] [.flags] ∧ OnlyRegisters s t) ∧
    (∃ t, exec (.or d x) s = .next t ∧
      (∀ n, (t.reg d).av.getLsbD n = ((s.reg d).av.getLsbD n || (s.srcAv x).getLsbD n)) ∧
      SignFlagsSet s t (t.reg d).av.toInt ∧ FacetsKept s t [] [d] [] [.flags] ∧ OnlyRegisters s t) ∧
    (∃ t, exec (.xor d x) s = .next t ∧
      (∀ n, (t.reg d).av.getLsbD n = ((s.reg d).av.getLsbD n ^^ (s.srcAv x).getLsbD n)) ∧
      SignFlagsSet s t (t.reg d).av.toInt ∧ FacetsKept s t [] [d] [] [.flags] ∧ OnlyRegisters s t) ∧
    (∃ t, exec (.not d) s = .next t ∧
      (∀ n < 32, (t.reg d).av.getLsbD n = !(s.reg d).av.getLsbD n) ∧ (t.reg d).av.toInt = -(s.reg d).av.toInt - 1 ∧
      SignFlagsSet s t (t.reg d).av.toInt ∧ FacetsKept s t [] [d] [] [.flags] ∧ OnlyRegisters s t)

/-! ## Comparison and flag writes -/

/-- R250, effect: the signed order of the two operands, exact; only F is written. -/
def Obligations.CmpOrdersOperands : Prop :=
  ∀ (d : Reg) (x : SrcAv) (s : State),
    ∃ t, exec (.cmp d x) s = .next t ∧
      flagOf t.flagBits .zero = decide ((s.reg d).av = s.srcAv x) ∧
      flagOf t.flagBits .positive = decide ((s.reg d).av.toInt > (s.srcAv x).toInt) ∧
      flagOf t.flagBits .negative = decide ((s.reg d).av.toInt < (s.srcAv x).toInt) ∧
      (∀ n, 3 ≤ n → t.flagBits.getLsbD n = s.flagBits.getLsbD n) ∧
      FacetsKept s t [] [] [] [.flags] ∧ OnlyRegisters s t

/-- R251, effect: Z from equality, P cleared, N when both operands are true; and R255: `Boolean(true)` is true, a text
exactly when it is `true` in any case inside white space, and nothing else. Which white space is trimmed and which letters
are folded is the model's reading (log 13). -/
def Obligations.CmpvComparesValues : Prop :=
  (∀ (x y : GArg) (s : State),
    ∃ t, exec (.cmpv x y) s = .next t ∧
      flagOf t.flagBits .zero = decide (s.gArg x = s.gArg y) ∧
      flagOf t.flagBits .positive = false ∧
      flagOf t.flagBits .negative = (isTrue (s.gArg x) && isTrue (s.gArg y)) ∧
      (∀ n, 3 ≤ n → t.flagBits.getLsbD n = s.flagBits.getLsbD n) ∧
      FacetsKept s t [] [] [] [.flags] ∧ OnlyRegisters s t) ∧
  isTrue (GVal.boolean true) = true ∧ isTrue (GVal.boolean false) = false ∧ isTrue GVal.empty = false ∧
  (∀ n, isTrue (GVal.integer n) = false) ∧
  ∀ u, isTrue (GVal.text u) = true ↔
    ∃ a b c d, TrimsTo u (chars [a, b, c, d]) ∧
      (a = 't' ∨ a = 'T') ∧ (b = 'r' ∨ b = 'R') ∧ (c = 'u' ∨ c = 'U') ∧ (d = 'e' ∨ d = 'E')

/-- R252, R253, effects: the named bit, and no other. -/
def Obligations.FlagWritesTouchOneBit : Prop :=
  ∀ (f : Flag) (s : State),
    (∃ t, exec (.setflag f) s = .next t ∧
      (∀ n, t.flagBits.getLsbD n = if n = f.bit then true else s.flagBits.getLsbD n) ∧
      FacetsKept s t [] [] [] [.flags] ∧ OnlyRegisters s t) ∧
    (∃ t, exec (.clearflag f) s = .next t ∧
      (∀ n, t.flagBits.getLsbD n = if n = f.bit then false else s.flagBits.getLsbD n) ∧
      FacetsKept s t [] [] [] [.flags] ∧ OnlyRegisters s t)

/-- R254: two generic values are equal exactly when they are of one kind and hold the same. -/
def Obligations.GenericEqualityPerKind : Prop :=
  (∀ m n : Wide, eqv (.integer m) (.integer n) = decide (m = n)) ∧
  (∀ t u : Text, eqv (.text t) (.text u) = decide (t = u)) ∧
  (∀ b c : Bool, eqv (.boolean b) (.boolean c) = decide (b = c)) ∧
  eqv .empty .empty = true ∧
  ∀ a b : GVal, eqv a b = true ↔ a = b

/-! ## Control flow and stack -/

/-- R270 to R281, effects: each jump is taken exactly when its flag reads as its rule says. -/
def Obligations.JumpsRedirectOnTheirFlag : Prop :=
  ∀ (l : Text) (s : State) (k : Nat), s.labelIndex l = some k →
    ∀ p ∈ [(Instr.jmp l, true),
        (.jz l, flagOf s.flagBits .zero), (.jnz l, !flagOf s.flagBits .zero),
        (.jn l, flagOf s.flagBits .negative), (.jnn l, !flagOf s.flagBits .negative),
        (.jp l, flagOf s.flagBits .positive), (.jnp l, !flagOf s.flagBits .positive),
        (.jf l, flagOf s.flagBits .failure), (.jnf l, !flagOf s.flagBits .failure),
        (.jo l, flagOf s.flagBits .overflow), (.jno l, !flagOf s.flagBits .overflow)],
      ∃ t, exec p.1 s = .next t ∧ t.pc = (if p.2 then wrap32 ((k : Int) - 1) else s.pc) ∧
        FacetsKept s t [] [.pc] [] [] ∧ OnlyRegisters s t

/-- R270, R283, R285: an unknown label skips, whether or not the condition holds, with nothing pushed or counted. -/
def Obligations.UnknownLabelSkips : Prop :=
  ∀ (l : Text) (s : State), s.labelIndex l = none →
    ∀ i ∈ [Instr.jmp l, .jz l, .jnz l, .jn l, .jnn l, .jp l, .jnp l, .jf l, .jnf l, .jo l, .jno l, .call l, .loop l],
      Skips s .unknownLabel (exec i s)

/-- R283, effect: `call` pushes its own index and redirects; on a full stack it skips. -/
def Obligations.CallPushesItsIndex : Prop :=
  ∀ (l : Text) (s : State) (k : Nat), s.labelIndex l = some k →
    (s.params.stackDepth ≠ some s.stack.length →
      ∃ t, exec (.call l) s = .next t ∧ t.stack = s.pc :: s.stack ∧ t.pc = wrap32 ((k : Int) - 1) ∧
        FacetsKept s t [] [.pc] [] [] ∧ ProgramKept s t ∧ MemoryKept s t ∧ t.run = s.run ∧
        t.answers = s.answers ∧ t.events = s.events) ∧
    (s.params.stackDepth = some s.stack.length → Skips s .stackFull (exec (.call l) s))

/-- R284, effect: `ret` pops into pc; on an empty stack it emits T_RET_UNDERFLOW and terminates with status 1, and no
other state changes. -/
def Obligations.RetPopsOrTerminates : Prop :=
  ∀ s : State,
    (∀ v rest, s.stack = v :: rest →
      ∃ t, exec .ret s = .next t ∧ t.stack = rest ∧ t.pc = v ∧
        FacetsKept s t [] [.pc] [] [] ∧ ProgramKept s t ∧ MemoryKept s t ∧ t.run = s.run ∧
        t.answers = s.answers ∧ t.events = s.events) ∧
    (s.stack = [] →
      exec .ret s = .next { s with
        run := .terminated 1, events := s.events ++ [.diagnostic .retUnderflow s.pc, .terminate 1] })

/-- R285, effect: `loop` decrements `ecx` with wrapping and jumps while the result is not 0; no flag is written. -/
def Obligations.LoopCountsEcxDown : Prop :=
  ∀ (l : Text) (s : State) (k : Nat), s.labelIndex l = some k →
    ∃ t, exec (.loop l) s = .next t ∧ (t.reg .ecx).av = wrap32 ((s.reg .ecx).av.toInt - 1) ∧
      t.pc = (if (s.reg .ecx).av = 1 then s.pc else wrap32 ((k : Int) - 1)) ∧
      FacetsKept s t [] [.ecx, .pc] [] [] ∧ OnlyRegisters s t

/-- R286, effect: `exit` terminates with its operand, or 0, and pc stays. -/
def Obligations.ExitTerminates : Prop :=
  ∀ (n : Option SrcAv) (s : State),
    let st := match n with
      | some x => s.srcAv x
      | none => 0
    exec (.exit n) s = .next { s with run := .terminated st, events := s.events ++ [.terminate st] }

/-- R295, R296, effects: `push` and `pop`, with the full and the empty stack. -/
def Obligations.PushAndPop : Prop :=
  (∀ (x : SrcAv) (s : State),
    (s.params.stackDepth ≠ some s.stack.length → exec (.push x) s = .next { s with stack := s.srcAv x :: s.stack }) ∧
    (s.params.stackDepth = some s.stack.length → Skips s .stackFull (exec (.push x) s))) ∧
  (∀ (r : Reg) (s : State),
    (∀ v rest, s.stack = v :: rest →
      ∃ t, exec (.pop r) s = .next t ∧ t.stack = rest ∧ (t.reg r).av = v ∧
        FacetsKept s t [] [r] [] [] ∧ ProgramKept s t ∧ MemoryKept s t ∧ t.run = s.run ∧
        t.answers = s.answers ∧ t.events = s.events) ∧
    (s.stack = [] → Skips s .stackEmpty (exec (.pop r) s)))

/-- R63: `push x` then `pop y` leaves the pushed value in `y.av` and the stack as it was; an empty pop writes nothing. -/
def Obligations.PushThenPopRestoresStack : Prop :=
  (∀ (x : SrcAv) (y : Reg) (s t : State), s.params.stackDepth ≠ some s.stack.length → exec (.push x) s = .next t →
    ∃ u, exec (.pop y) t = .next u ∧ (u.reg y).av = s.srcAv x ∧ u.stack.length = s.stack.length ∧ u.stack = s.stack) ∧
  (∀ (y : Reg) (s : State), s.stack = [] →
    exec (.pop y) s = .next { s with events := s.events ++ [.diagnostic .stackEmpty s.pc] })

/-! ## Memory -/

/-- R92, R93: the two controllers, in and out of range. The premise on the memory is part of `State.Inv`. -/
def Obligations.ControllersReadAndWriteOneCell : Prop :=
  ∀ (s : State) (a : Int) (v : Word),
    (0 ≤ a → a < s.params.memSize →
      s.memRead a = (Memory.read s.mem a.toNat, s) ∧
      (Memory.wf s.mem →
        (s.memWrite a v).cell a = v ∧ (∀ b ≠ a, (s.memWrite a v).cell b = s.cell b) ∧
        ∃ m, s.memWrite a v = { s with mem := m })) ∧
    ((a < 0 ∨ (s.params.memSize : Int) ≤ a) →
      s.memRead a = (0, { s with events := s.events ++ [.diagnostic .memOob s.pc] }) ∧
      s.memWrite a v = { s with events := s.events ++ [.diagnostic .memOob s.pc] })

/-- R310, effect: the cell goes to `av` of the destination, `mc` when none is given; out of range it is 0 with one
diagnostic. -/
def Obligations.ReadMemLoadsCell : Prop :=
  ∀ (a : Addr) (r : Option Reg) (s : State),
    let d := r.getD .mc
    ∃ t, exec (.readMem a r) s = .next t ∧ (t.reg d).av = s.cell (s.addr a) ∧
      (s.inRange (s.addr a) = false → (t.reg d).av = 0) ∧
      t.events = s.events ++ (if s.inRange (s.addr a) then [] else [.diagnostic .memOob s.pc]) ∧
      FacetsKept s t [] [d] [] [] ∧ MachineKept s t ∧ MemoryKept s t

/-- R311, effect: one cell is stored, or one diagnostic goes out. -/
def Obligations.WriteRawMemStoresCell : Prop :=
  ∀ (a : Addr) (v : SrcAv) (s : State), Memory.wf s.mem →
    ∃ t, exec (.writeRawMem a v) s = .next t ∧
      (s.inRange (s.addr a) = true → t.cell (s.addr a) = s.srcAv v) ∧
      (∀ b, b ≠ s.addr a → t.cell b = s.cell b) ∧
      t.events = s.events ++ (if s.inRange (s.addr a) then [] else [.diagnostic .memOob s.pc]) ∧
      RegistersKept s t ∧ MachineKept s t

/-- R312, effect: the cells of the tokens, one after the other from the base; an integer-shaped token outside int32 skips
before any write. -/
def Obligations.WriteMemStoresTokens : Prop :=
  ∀ (a : Addr) (ts : List Text) (s : State), Memory.wf s.mem →
    ((∀ t ∈ ts, ∀ v, intValue t = some v → inInt32 v = true) →
      let cells := ts.flatMap (fun t => match intValue t with
        | some v => [wrap32 v]
        | none => t.map (fun c => BitVec.ofNat 32 c.code))
      ∃ u, exec (.writeMem a ts) s = .next u ∧
        (∀ i (h : i < cells.length), s.inRange (s.addr a + i) = true → u.cell (s.addr a + i) = cells[i]) ∧
        (∀ b, b < s.addr a ∨ s.addr a + cells.length ≤ b → u.cell b = s.cell b) ∧
        u.events = s.events ++ oobDiags s (s.outside (s.addr a) cells.length) ∧
        RegistersKept s u ∧ MachineKept s u) ∧
    ((∃ t ∈ ts, ∃ v, intValue t = some v ∧ inInt32 v = false) → Skips s .literal (exec (.writeMem a ts) s))

/-- R313, effect: `len` cells from the base hold the value; `len <= 0` writes nothing. -/
def Obligations.FillMemStoresRange : Prop :=
  ∀ (a : Addr) (n v : SrcAv) (s : State), Memory.wf s.mem →
    ∃ t, exec (.fillMem a n v) s = .next t ∧
      (∀ b, s.addr a ≤ b → b < s.addr a + (s.srcAv n).toInt → s.inRange b = true → t.cell b = s.srcAv v) ∧
      (∀ b, b < s.addr a ∨ s.addr a + (s.srcAv n).toInt ≤ b → t.cell b = s.cell b) ∧
      t.events = s.events ++ oobDiags s (s.outside (s.addr a) (s.srcAv n).toInt.toNat) ∧
      RegistersKept s t ∧ MachineKept s t

/-- R314, effect: an exact copy when no destination cell is a later source cell; with an overlap upwards the first
`dst - src` cells repeat; every other cell stays. -/
def Obligations.CopyMemCopiesForward : Prop :=
  ∀ (src dst : Addr) (n : SrcAv) (s : State), Memory.wf s.mem →
    let p := s.addr src
    let q := s.addr dst
    let len := (s.srcAv n).toInt.toNat
    ∃ t, exec (.copyMem src dst n) s = .next t ∧
      (q ≤ p ∨ p + len ≤ q → ∀ i < len, s.inRange (q + i) = true → t.cell (q + i) = s.cell (p + i)) ∧
      (p < q → 0 ≤ p → q + len ≤ s.params.memSize →
        ∀ i < len, t.cell (q + i) = s.cell (p + ((i % (q - p).toNat : Nat) : Int))) ∧
      (∀ b, b < q ∨ q + len ≤ b → t.cell b = s.cell b) ∧
      t.events = s.events ++ oobDiags s (s.outside p len + s.outside q len) ∧
      RegistersKept s t ∧ MachineKept s t

/-- R315, effect: Z, P, N from the first difference, in the signed order; the cells after it are not read. -/
def Obligations.CmpMemFindsFirstDifference : Prop :=
  ∀ (a b : Addr) (n : SrcAv) (s : State),
    let p := s.addr a
    let q := s.addr b
    let len := (s.srcAv n).toInt.toNat
    ∃ t k r, exec (.cmpMem a b n) s = .next t ∧
      FirstDifference (fun i => s.cell (p + i)) (fun i => s.cell (q + i)) len k r ∧ SignFlagsSet s t r ∧
      t.events = s.events ++ oobDiags s (s.outside p (min (k + 1) len) + s.outside q (min (k + 1) len)) ∧
      FacetsKept s t [] [] [] [.flags] ∧ MachineKept s t ∧ MemoryKept s t

/-- R316, effect of the address form: Z, P, N from the order of the two strings; the scan always ends. -/
def Obligations.CmpStrOrdersStrings : Prop :=
  ∀ (a b : Addr) (s : State),
    let p := s.addr a
    let q := s.addr b
    ∃ t k r, exec (.cmpStr a (.addr b)) s = .next t ∧
      StringOrder (fun i => s.cell (p + i)) (fun i => s.cell (q + i)) k r ∧ SignFlagsSet s t r ∧
      t.events = s.events ++ oobDiags s (s.outside p (k + 1) + s.outside q (k + 1)) ∧
      FacetsKept s t [] [] [] [.flags] ∧ MachineKept s t ∧ MemoryKept s t

/-- R316, effect of the literal form: the string at `a`, with the literal standing in the reserved region, against the
literal and its null cell; the whole reserved region is 0 afterwards and every other cell stays. A literal that does not
fit skips. -/
def Obligations.CmpStrLiteralScrubsReserved : Prop :=
  ∀ (a : Addr) (l : Text) (s : State), s.Inv →
    let base : Int := (s.params.memSize : Int) - s.params.reservedSize
    let lit : List Word := l.map (fun c => BitVec.ofNat 32 c.code) ++ [0]
    let placed : Int → Word := fun b =>
      if base ≤ b ∧ b < base + lit.length then lit.getD (b - base).toNat 0 else s.cell b
    (l.length + 1 ≤ s.params.reservedSize →
      ∃ t k r, exec (.cmpStr a (.literal l)) s = .next t ∧
        StringOrder (fun i => placed (s.addr a + i)) (fun i => lit.getD i 0) k r ∧ SignFlagsSet s t r ∧
        (∀ b, base ≤ b → t.cell b = 0) ∧ (∀ b, b < base → t.cell b = s.cell b) ∧
        t.events = s.events ++ oobDiags s (s.outside (s.addr a) (k + 1)) ∧
        FacetsKept s t [] [] [] [.flags] ∧ MachineKept s t) ∧
    (s.params.reservedSize < l.length + 1 → Skips s .literalTooLong (exec (.cmpStr a (.literal l)) s))

/-- R317, R318, effects: the line of the range, and the characters up to the first null cell; nothing but the port
changes. A cell that is a Unicode scalar value prints as that character, every other one as U+FFFD. -/
def Obligations.PrintsReadMemoryOnly : Prop :=
  (∀ w : Word,
    let scalar := (0 ≤ w.toInt ∧ w.toInt < 0xD800) ∨ (0xE000 ≤ w.toInt ∧ w.toInt ≤ 0x10FFFF)
    (scalar → ∃ c : Char, cellChar w = .scalar c ∧ (c.toNat : Int) = w.toInt) ∧
    (¬ scalar → ∃ c : Char, cellChar w = .scalar c ∧ c.toNat = 0xFFFD)) ∧
  ∀ (a : Addr) (s : State),
    let p := s.addr a
    (∀ n : SrcAv,
      let len := (s.srcAv n).toInt.toNat
      exec (.printMem a n) s = .next { s with events := s.events ++ oobDiags s (s.outside p len) ++
        [.writeLine (joinSpaced ((List.range len).map (fun i : Nat => dec (s.cell (p + i)).toInt)))] }) ∧
    ∃ m : Nat, (∀ i < m, s.cell (p + i) ≠ 0) ∧ s.cell (p + m) = 0 ∧
      exec (.printStr a) s = .next { s with events := s.events ++ oobDiags s (s.outside p (m + 1)) ++
        [.write ((List.range m).map (fun i : Nat => cellChar (s.cell (p + i))))] }

/-! ## I/O and meta -/

/-- R340, R341, R351, effects: `read` and `os` write the host's answer into `val`, `readKey` its character, key code and
modifier mask into `val`, `av` and `lv`, and nothing else; the mask is in 0..7. The next queued answer is taken and every
other queue stays; without one the answer is a free value of the model (log 3). -/
def Obligations.ReadsTakeAnAnswer : Prop :=
  ∀ (r : Reg) (s : State),
    (∃ t x, exec (.read r) s = .next t ∧ (t.reg r).val = .text x ∧
      (∀ y ∈ s.answers.lines.head?, x = y) ∧
      t.answers = { s.answers with lines := s.answers.lines.tail, asked := s.answers.asked + 1 } ∧
      FacetsKept s t [r] [] [] [] ∧ ProgramKept s t ∧ MemoryKept s t ∧ t.stack = s.stack ∧ t.run = s.run ∧
      t.events = s.events ++ [.readLine]) ∧
    (∃ t k, exec (.readKey r) s = .next t ∧
      (t.reg r).val = .text k.char ∧ (t.reg r).av = k.code ∧ (t.reg r).lv.toInt = (k.mask.toNat : Int) ∧
      (t.reg r).lv.toNat ≤ 7 ∧
      (∀ y ∈ s.answers.keys.head?, k = y) ∧
      t.answers = { s.answers with keys := s.answers.keys.tail, asked := s.answers.asked + 1 } ∧
      FacetsKept s t [r] [r] [r] [] ∧ ProgramKept s t ∧ MemoryKept s t ∧ t.stack = s.stack ∧ t.run = s.run ∧
      t.events = s.events ++ [.readKey]) ∧
    (∃ t x, exec (.os r) s = .next t ∧ (t.reg r).val = .text x ∧
      (∀ y ∈ s.answers.osTexts.head?, x = y) ∧
      t.answers = { s.answers with osTexts := s.answers.osTexts.tail, asked := s.answers.asked + 1 } ∧
      FacetsKept s t [r] [] [] [] ∧ ProgramKept s t ∧ MemoryKept s t ∧ t.stack = s.stack ∧ t.run = s.run ∧
      t.events = s.events ++ [.osQuery])

/-- R342, R343, R344, R345, R346, R347, effects: each write is one transaction with its text, and no state changes. -/
def Obligations.WritesEmitTheirText : Prop :=
  (∀ (ts : List Text) (s : State),
    exec (.write ts) s = .next { s with events := s.events ++ [.write (joinSpaced ts)] } ∧
    exec (.writeln ts) s = .next { s with events := s.events ++ [.writeLine (joinSpaced ts)] }) ∧
  (∀ (r : Reg) (s : State),
    exec (.writeAV r) s = .next { s with events := s.events ++ [.write (dec (s.reg r).av.toInt)] } ∧
    exec (.writeLV r) s = .next { s with events := s.events ++ [.write (dec (s.reg r).lv.toInt)] } ∧
    exec (.writeFV r) s = .next { s with events := s.events ++ [.write (dec ((s.reg r).fv.toNat : Int))] } ∧
    ∃ x, exec (.writeVal r) s = .next { s with events := s.events ++ [.write x] } ∧
      (∀ u, (s.reg r).val = .text u → x = u) ∧
      (∀ n, (s.reg r).val = .integer n → x = dec n.toInt) ∧
      ((s.reg r).val = .boolean true → x = "true".toText) ∧
      ((s.reg r).val = .boolean false → x = "false".toText) ∧
      ((s.reg r).val = .empty → x = []))

/-- R348, R349, R352, R354, effects: one transaction each, and no state changes; the snapshot is all registers in id
order; a negative duration of `sleep` skips with no request. -/
def Obligations.DumpSleepBeepBreakEmitOnce : Prop :=
  ∀ s : State,
    (∃ snap, exec .dump s = .next { s with events := s.events ++ [.dump snap] } ∧ snap.length = 25 ∧
      ∀ r : Reg, snap[r.id.val]? = some (r, s.reg r)) ∧
    exec .beep s = .next { s with events := s.events ++ [.beep] } ∧
    exec .brk s = .next { s with events := s.events ++ [.breakpoint s.pc] } ∧
    ∀ x : SrcAv,
      (0 ≤ (s.srcAv x).toInt → exec (.sleep x) s = .next { s with events := s.events ++ [.sleep (s.srcAv x)] }) ∧
      ((s.srcAv x).toInt < 0 → Skips s .badRange (exec (.sleep x) s))

/-- R350, effect, with R422: the draw lies in [lo, hi); an empty range skips with no request; a queued answer outside the
range is the host's fault (log 5). The queued draw is taken and every other queue stays; without one the draw is a free
value of the model (log 3). -/
def Obligations.RandDrawsInRange : Prop :=
  ∀ (r : Reg) (lo hi : SrcAv) (s : State),
    ((s.srcAv lo).toInt < (s.srcAv hi).toInt → s.drawReady (s.srcAv lo) (s.srcAv hi) →
      ∃ t, exec (.rand r lo hi) s = .next t ∧
        (s.srcAv lo).toInt ≤ (t.reg r).av.toInt ∧ (t.reg r).av.toInt < (s.srcAv hi).toInt ∧
        (∀ v ∈ s.answers.draws.head?, (t.reg r).av = v) ∧
        t.answers = { s.answers with draws := s.answers.draws.tail, asked := s.answers.asked + 1 } ∧
        FacetsKept s t [] [r] [] [] ∧ ProgramKept s t ∧ MemoryKept s t ∧ t.stack = s.stack ∧ t.run = s.run ∧
        t.events = s.events ++ [.random (s.srcAv lo) (s.srcAv hi)]) ∧
    ((s.srcAv hi).toInt ≤ (s.srcAv lo).toInt → Skips s .badRange (exec (.rand r lo hi) s)) ∧
    ((s.srcAv lo).toInt < (s.srcAv hi).toInt → ¬ s.drawReady (s.srcAv lo) (s.srcAv hi) →
      exec (.rand r lo hi) s = .fault .randomAnswerOutOfRange)

/-! ## The loop -/

/-- R184, R185, R186: the three line classes change nothing before the advance. -/
def Obligations.NoOpLinesChangeNothing : Prop :=
  ∀ (n : Text) (s : State),
    exec (.label n) s = .next s ∧ exec (.directive n) s = .next s ∧ exec .empty s = .next s

/-- R180, R188, R189: a step at a line that decodes to an instruction is that instruction, then the advance by one unless
the instruction ended the run. -/
def Obligations.StepRunsTheDecodedInstruction : Prop :=
  ∀ (s : State) (line : Text) (i : Instr),
    s.run = .running → 0 ≤ s.pc.toInt → s.irom[s.pc.toNat]? = some line → decode line = .instr i →
    step s = match exec i s with
      | .next t => .next (if t.run = .running then t.setAv .pc (wrap32 (t.pc.toInt + 1)) else t)
      | .fault f => .fault f
      | .refused r => .refused r

/-- R181, R453: `pc >= count` ends the run with Done; `pc < 0` halts it with H_PC_RANGE; when RUN is anything but Running
a step does nothing. -/
def Obligations.LoopHeadEndsTheRun : Prop :=
  ∀ s : State,
    (s.run = .running → (s.count : Int) ≤ s.pc.toInt → step s = .next { s with run := .done }) ∧
    (s.run = .running → s.pc.toInt < 0 →
      step s = .next { s with run := .halted .pcRange, events := s.events ++ [.diagnostic .pcRange s.pc] }) ∧
    (s.run ≠ .running → step s = .next s)

/-- R187: an unknown mnemonic halts the run with its diagnostic; pc stays and nothing else changes. -/
def Obligations.UnknownMnemonicHalts : Prop :=
  ∀ (s : State) (line m : Text) (args : List Text),
    s.run = .running → 0 ≤ s.pc.toInt → s.irom[s.pc.toNat]? = some line →
    classify line = .instr → tokenize line = m :: args → rowOfMnemonic m = none →
    step s = .next { s with
      run := .halted .unknownMnemonic, events := s.events ++ [.diagnostic .unknownMnemonic s.pc] }

/-- R13, R188, R189: a line whose arity or operands fail emits its code and only advances. -/
def Obligations.OperandFailureSkips : Prop :=
  ∀ (s : State) (line : Text) (code : DiagCode),
    s.run = .running → 0 ≤ s.pc.toInt → s.irom[s.pc.toNat]? = some line → decode line = .skip code →
    ∃ t, step s = .next t ∧ t.pc = wrap32 (s.pc.toInt + 1) ∧ t.events = s.events ++ [.diagnostic code s.pc] ∧
      FacetsKept s t [] [.pc] [] [] ∧ MachineKept s t ∧ MemoryKept s t

/-- R16: a redirect writes target - 1 and the advance lands on the target. -/
def Obligations.RedirectLandsOnTarget : Prop :=
  ∀ (s : State) (k : Nat),
    s.redirect k = s.setAv .pc (wrap32 ((k : Int) - 1)) ∧ (s.redirect k).advance.pc = wrap32 k

/-- R283, R284, R184 over the loop: a step of `call` fetches the label line of its target next; that line moves on, and a
`ret` after it resumes after the call, with the stack as before the call. -/
def Obligations.CallThenRetResumes : Prop :=
  ∀ (s : State) (l n line line' line'' : Text) (k : Nat),
    s.run = .running → 0 ≤ s.pc.toInt → s.irom[s.pc.toNat]? = some line → decode line = .instr (.call l) →
    s.labelIndex l = some k → k + 1 < 2 ^ 31 → s.params.stackDepth ≠ some s.stack.length →
    s.irom[k]? = some line' → decode line' = .instr (.label n) →
    s.irom[k + 1]? = some line'' → decode line'' = .instr .ret →
    ∃ t u v, step s = .next t ∧ t.pc.toInt = k ∧ step t = .next u ∧ u.pc.toInt = k + 1 ∧ step u = .next v ∧
      v.pc = wrap32 (s.pc.toInt + 1) ∧ v.stack = s.stack ∧ v.run = .running

/-- R193: only these end a run: pc past the end, pc below 0, an unknown mnemonic, `ret` on an empty stack, `exit`; and
none of them changes more than RUN and the port's record. -/
def Obligations.RunEndsOnlyAsListed : Prop :=
  ∀ s t : State, s.run = .running → step s = .next t → t.run ≠ .running →
    t = { s with run := t.run, events := t.events } ∧
    ((t.run = .done ∧ (s.count : Int) ≤ s.pc.toInt) ∨
     (t.run = .halted .pcRange ∧ s.pc.toInt < 0) ∨
     ∃ line, s.irom[s.pc.toNat]? = some line ∧
       ((t.run = .halted .unknownMnemonic ∧ ∃ m, decode line = .unknown m) ∨
        (decode line = .instr .ret ∧ s.stack = [] ∧ t.run = .terminated 1) ∨
        (decode line = .instr (.exit none) ∧ t.run = .terminated 0) ∨
        ∃ x, decode line = .instr (.exit (some x)) ∧ t.run = .terminated (s.srcAv x)))

/-! ## Whole-machine statements -/

/-- Every step keeps `State.Inv`: canonical in-range memory, bounded stack, an indexed program, reserved flag bits 0
(R56, R61, R65, R66, R90). -/
def Obligations.StepKeepsInvariant : Prop :=
  ∀ s t : State, s.Inv → step s = .next t → t.Inv

/-- The state after construction meets `State.Inv`. -/
def Obligations.ResetMeetsInvariant : Prop := State.reset.Inv

/-- Load, start and the register-file port keep `State.Inv` (R451, R452, R35; bit 7 at the port: log 10). -/
def Obligations.RunControlKeepsInvariant : Prop :=
  ∀ s : State, s.Inv →
    (∀ files source t, s.load files source = .next t → t.Inv) ∧
    (∀ memInit t, s.start memInit = .next t → t.Inv) ∧
    ∀ (id : Nat) (v : GVal) (a : Word) (l : Wide) (f : FlagBits),
      (s.portWriteVal id v).Inv ∧ (s.portWriteAv id a).Inv ∧ (s.portWriteLv id l).Inv ∧ (s.portWriteFv id f).Inv

/-- R66, R103: no step changes the program, its labels, the parameters or the first-run marker. -/
def Obligations.StepKeepsTheProgram : Prop :=
  ∀ s t : State, step s = .next t → ProgramKept s t

/-- R52, and the table of R50: an instruction that leaves a flag changed is one of its writers; the `fv` of another register
changes only by Copied, in a full move to it. -/
def Obligations.FlagsChangeOnlyByTheirWriters : Prop :=
  ∀ (i : Instr) (s t : State), exec i s = .next t →
    (∀ f ∈ [Flag.carry, .overflow, .failure], flagOf t.flagBits f ≠ flagOf s.flagBits f →
      i = .setflag f ∨ i = .clearflag f) ∧
    (∀ f ∈ [Flag.zero, .positive, .negative], flagOf t.flagBits f ≠ flagOf s.flagBits f →
      i = .setflag f ∨ i = .clearflag f ∨ writesSigns i = true) ∧
    (flagOf t.flagBits .copied ≠ flagOf s.flagBits .copied →
      i = .setflag .copied ∨ i = .clearflag .copied ∨ (∃ r, i = .mov .flags r) ∨ ∃ f r, i = .cmovf f .flags r) ∧
    t.flagBits.getLsbD 7 = s.flagBits.getLsbD 7 ∧
    ∀ q, q ≠ .flags → (t.reg q).fv ≠ (s.reg q).fv →
      (t.reg q).fv = (s.reg q).fv ||| 0x20 ∧ ((∃ r, i = .mov q r) ∨ ∃ f r, i = .cmovf f q r)

/-- No step is refused, and the one fault is a queued Random answer outside its range, at a `rand` (R422; log 5). -/
def Obligations.OnlyRandCanFault : Prop :=
  ∀ s : State, (∀ r, step s ≠ .refused r) ∧
    (s.answers.draws = [] → StepSafe s) ∧
    ∀ f, step s = .fault f →
      ∃ line r lo hi, s.run = .running ∧ s.irom[s.pc.toNat]? = some line ∧ decode line = .instr (.rand r lo hi) ∧
        (s.srcAv lo).toInt < (s.srcAv hi).toInt ∧ ¬ s.drawReady (s.srcAv lo) (s.srcAv hi)

/-- R404, R424: what went out on the port, diagnostics included, never comes back: two states that differ only in the
record of the port step alike. -/
def Obligations.OutputIsUnobservable : Prop :=
  ∀ (s t : State) (es : List HostEvent), step s = .next t →
    ∃ new, t.events = s.events ++ new ∧
      step { s with events := es } = .next { t with events := es ++ new }

/-! ## Encoding, decoding, toolchain -/

/-- R135, R140 to R155, R160: every well-formed instruction is decoded from its line, with every operand. -/
def Obligations.DecodeAfterEncode : Prop :=
  ∀ i : Instr, i.wellFormed = true → decode (encode i) = .instr i

/-- Lines written out from the encodings of R160 decode to their instructions. -/
def Obligations.WrittenLinesDecode : Prop :=
  decode "set eax hello   big  world".toText = .instr (.set .eax ["hello".toText, "big".toText, "world".toText]) ∧
  decode "shr dr3 -12".toText = .instr (.shr .dr3 (.lit (-12))) ∧
  decode "cmpv eax \"a b\"".toText = .instr (.cmpv (.reg .eax) (.text "a b".toText)) ∧
  decode "jnz loop_start".toText = .instr (.jnz "loop_start".toText) ∧
  decode "readMem reserved".toText = .instr (.readMem (.memLabel .reserved) none) ∧
  decode "cmovf zero pc eax".toText = .instr (.cmovf .zero .pc .eax) ∧
  decode "top: extra tokens".toText = .instr (.label "top".toText) ∧
  decode "#N 3".toText = .instr (.directive "N".toText)

/-- R154: for every row of the opcode map, exactly the argument counts outside its arity give E_ARITY. -/
def Obligations.ArityDecidesFirst : Prop :=
  ∀ row ∈ opTable, ∀ args : List Text, row.read args = .error .arity ↔ arityAdmits row args.length = false

/-- R147, R148, R150: a literal in range, a memory label (ADDR), a register, or the code that fails. -/
def Obligations.SourceOperandsResolve : Prop :=
  ∀ t : Text,
    (∀ v, intValue t = some v → inInt32 v = true →
      srcAvOperand t = .ok (.lit (wrap32 v)) ∧ addrOperand t = .ok (.lit (wrap32 v))) ∧
    (∀ v, intValue t = some v → inInt32 v = false →
      srcAvOperand t = .error .literal ∧ addrOperand t = .error .literal) ∧
    (∀ v, intValue t = some v → inInt64 v = true → srcLvOperand t = .ok (.lit (BitVec.ofInt 64 v))) ∧
    (∀ v, intValue t = some v → inInt64 v = false → srcLvOperand t = .error .literal) ∧
    (∀ r : Reg, t = r.name →
      srcAvOperand t = .ok (.reg r) ∧ srcLvOperand t = .ok (.reg r) ∧ addrOperand t = .ok (.reg r)) ∧
    (∀ m : MemLabel, t = m.name → addrOperand t = .ok (.memLabel m) ∧ srcAvOperand t = .error .unknownReg) ∧
    (intValue t = none → (∀ r : Reg, t ≠ r.name) →
      srcAvOperand t = .error .unknownReg ∧ srcLvOperand t = .error .unknownReg ∧
      ((∀ m : MemLabel, t ≠ m.name) → addrOperand t = .error .unknownReg)) ∧
    (∀ (s : State) (v : Word), s.srcAv (.lit v) = v ∧ s.addr (.lit v) = v.toInt) ∧
    (∀ (s : State) (r : Reg), s.srcAv (.reg r) = (s.reg r).av ∧ s.addr (.reg r) = (s.reg r).av.toInt) ∧
    (∀ (s : State) (v : Wide), s.srcLv (.lit v) = v) ∧
    (∀ (s : State) (r : Reg), s.srcLv (.reg r) = (s.reg r).lv) ∧
    (∀ s : State, s.addr (.memLabel .text) = 0 ∧
      s.addr (.memLabel .reserved) = (s.params.memSize : Int) - s.params.reservedSize)

/-- R145, R151, R153, R155: registers, flags, the string operand of `cmpStr`, and the operands of `cmpv`. -/
def Obligations.NamedOperandsResolve : Prop :=
  ∀ t : Text,
    (∀ r : Reg, regOperand t = .ok r ↔ t = r.name) ∧
    ((∀ r : Reg, t ≠ r.name) → regOperand t = .error .unknownReg ∧ gArgOperand t = .text t) ∧
    (∀ r : Reg, t = r.name → gArgOperand t = .reg r) ∧
    (∀ f : Flag, flagOperand t = .ok f ↔ t = f.name) ∧
    ((∀ f : Flag, t ≠ f.name) → flagOperand t = .error .unknownFlag) ∧
    (∀ a : Addr, addrOperand t = .ok a → strAddrOperand t = .ok (.addr a)) ∧
    (addrOperand t = .error .unknownReg → strAddrOperand t = .ok (.literal t)) ∧
    (addrOperand t = .error .literal → strAddrOperand t = .error .literal) ∧
    (∀ (s : State) (r : Reg), s.gArg (.reg r) = (s.reg r).val) ∧
    (∀ (s : State) (u : Text), s.gArg (.text u) = .text u)

/-- R126, R127: text without a delimiter is kept; a placeholder becomes its value, or nothing when it is undefined, and is
not scanned again; an opening delimiter with no close is dropped alone. The scan is applied to every line that step (d)
leaves, and no line is removed after it. That the table is a list with the latest definition first, so that a name's value
is its first entry's, is the model's choice (log 11). -/
def Obligations.SubstitutionScansOnce : Prop :=
  (∀ (files : Loader) (source : List Text),
    let d := extractDefinitions [] (survivingLines (resolveImports files source).1)
    (toolchain files source).lines = d.lines.map (substScan d.table none)) ∧
  ∀ (table : List (Text × Text)) (a n b : Text), .scalar '%' ∉ a → .scalar '%' ∉ n →
    substScan table none a = a ∧
    substScan table none (a ++ .scalar '%' :: n ++ .scalar '%' :: b) = a ++ placeholderValue table n ++ substScan table none b ∧
    substScan table none (a ++ .scalar '%' :: n) = a ++ n ∧
    ((∀ d ∈ table, d.1 ≠ n) → placeholderValue table n = []) ∧
    (∀ before v after, table = before ++ (n, v) :: after → (∀ d ∈ before, d.1 ≠ n) → placeholderValue table n = v)

/-- R128: after a load, the index of a name is the last line of the loaded sequence that declares it. -/
def Obligations.LabelIndexIsLastDeclaration : Prop :=
  ∀ (s t : State) (files : Loader) (source : List Text) (name : Text) (k : Nat), s.load files source = .next t →
    (t.labelIndex name = some k ↔
      (t.irom[k]?.map firstWord = some (name ++ [.scalar ':']) ∧
        ∀ j, k < j → t.irom[j]?.map firstWord ≠ some (name ++ [.scalar ':'])))

/-! ## Reset and run control -/

/-- R39, R46, R62, R450: what construction leaves, in the spec's own state. -/
def Obligations.ConstructionLeavesReset : Prop :=
  (∀ r : Reg, State.reset.reg r = { val := .empty, av := 0, lv := 0, fv := 0 }) ∧
  State.reset.pc = 0 ∧ State.reset.flagBits = 0 ∧ State.reset.stack = [] ∧ (∀ a : Int, State.reset.cell a = 0) ∧
  State.reset.irom = [] ∧ State.reset.count = 0 ∧ State.reset.lrom = [] ∧ State.reset.run = .idle ∧
  State.reset.firstRun = true

/-- R452, R104: a start sets pc.av to 0, initializes memory with MEMINIT or on the first run, and keeps every other
register facet, F and the stack; it is not allowed while Running. The form of that refusal, in the last clause, is the
model's choice (log 6). -/
def Obligations.StartInitializesTheRun : Prop :=
  ∀ (s : State) (memInit : Bool), s.params.wf →
    (s.run ≠ .running →
      ∃ t, s.start memInit = .next t ∧ t.run = .running ∧ t.firstRun = false ∧ t.pc = 0 ∧
        FacetsKept s t [] [.pc] [] [] ∧ t.stack = s.stack ∧ t.irom = s.irom ∧ t.lrom = s.lrom ∧
        t.params = s.params ∧ t.answers = s.answers ∧ t.events = s.events ∧
        ((memInit = true ∨ s.firstRun = true) →
          (∀ i (h : i < s.params.textSeed.length), t.cell i = s.params.textSeed[i]) ∧
          (∀ a : Int, a < 0 ∨ (s.params.textSeed.length : Int) ≤ a → t.cell a = 0)) ∧
        (memInit = false → s.firstRun = false → MemoryKept s t) ∧
        (s.irom = [] → step t = .next { t with run := .done })) ∧
    (s.run = .running → s.start memInit = .refused .startWhileRunning)

/-- R451, R129: a load writes IROM and LROM from the toolchain and sets Idle; registers, stack and memory stay; it is not
allowed while Running, and a program of more than MAX_LINES lines is refused. R121 to R125: the toolchain's steps in their
order; an import line is replaced by the file's lines, or dropped with E_MISSING_IMPORT; comments and outer white space go,
then blank lines; a definition line stays and enters the table, a malformed one is dropped with its diagnostic, every other
line stays. That the toolchain's diagnostics are recorded in order, the form of a refusal, and that the loader is a list
whose first entry of a path counts, are the model's choice (logs 4, 6, 9). -/
def Obligations.LoadWritesTheProgram : Prop :=
  (∀ (files : Loader) (source : List Text),
    let read := resolveImports files source
    let d := extractDefinitions [] (survivingLines read.1)
    toolchain files source =
      { lines := d.lines.map (substScan d.table none)
        labels := indexLabels (d.lines.map (substScan d.table none)), diags := read.2 ++ d.diags }) ∧
  (∀ files : Loader, resolveImports files [] = ([], []) ∧
    ∀ (l : Text) (ls : List Text),
      let rest := resolveImports files ls
      ((∀ r, ¬ OpensWith l "#import".toText r) → resolveImports files (l :: ls) = (l :: rest.1, rest.2)) ∧
      ∀ p, ImportsPath l p →
        (∀ before lines after, files = before ++ (p, lines) :: after → (∀ f ∈ before, f.1 ≠ p) →
          resolveImports files (l :: ls) = (lines ++ rest.1, rest.2)) ∧
        ((∀ f ∈ files, f.1 ≠ p) → resolveImports files (l :: ls) = (rest.1, .missingImport :: rest.2))) ∧
  (survivingLines [] = [] ∧
    ∀ (l : Text) (ls : List Text) (u m : Text), BeforeComment l u → TrimsTo u m →
      survivingLines (l :: ls) = if m = [] then survivingLines ls else m :: survivingLines ls) ∧
  (∀ table : List (Text × Text), extractDefinitions table [] = { lines := [], table := table, diags := [] } ∧
    ∀ (l : Text) (ls : List Text),
      ((l.head? ≠ some (.scalar '#') ∨ ∃ r, OpensWith l "#import".toText r) →
        extractDefinitions table (l :: ls) =
          { extractDefinitions table ls with lines := l :: (extractDefinitions table ls).lines }) ∧
      ∀ n r v, l.head? = some (.scalar '#') → OpensWith l (.scalar '#' :: n) r → n ≠ "import".toText → TrimsTo r v →
        (n ≠ [] → v ≠ [] →
          extractDefinitions table (l :: ls) = { extractDefinitions ((n, v) :: table) ls with
            lines := l :: (extractDefinitions ((n, v) :: table) ls).lines }) ∧
        (n = [] ∨ v = [] →
          extractDefinitions table (l :: ls) = { extractDefinitions table ls with
            diags := .malformedDefinition :: (extractDefinitions table ls).diags })) ∧
  ∀ (s : State) (files : Loader) (source : List Text),
    let p := toolchain files source
    (s.run ≠ .running → p.lines.length ≤ 2 ^ 31 - 1 →
      s.load files source = .next { s with
        irom := p.lines, lrom := indexLabels p.lines, run := .idle,
        events := s.events ++ p.diags.map (fun c => .diagnostic c (wrap32 (-1))) }) ∧
    (s.run ≠ .running → 2 ^ 31 - 1 < p.lines.length → s.load files source = .refused .programTooLong) ∧
    (s.run = .running → s.load files source = .refused .loadWhileRunning)

/-- R35: a host's access to a register id outside 0..24 reads the sentinel of the facet, or drops the write, with one
E_UNKNOWN_REG; an id of R30 reads and writes its register. That the diagnostic carries the current pc, and that a write
of `fv` leaves bit 7 clear, are the model's choices (log 10). -/
def Obligations.UnknownRegisterIdAnswersSentinel : Prop :=
  ∀ (s : State) (id : Nat) (v : GVal) (a : Word) (l : Wide) (f : FlagBits),
    let t : State := { s with events := s.events ++ [.diagnostic .unknownReg s.pc] }
    (25 ≤ id →
      s.portReadVal id = (.empty, t) ∧ s.portReadAv id = (-1, t) ∧ s.portReadLv id = (-1, t) ∧
      s.portReadFv id = (0, t) ∧
      s.portWriteVal id v = t ∧ s.portWriteAv id a = t ∧ s.portWriteLv id l = t ∧ s.portWriteFv id f = t) ∧
    ∀ r : Reg, id = r.id.val →
      s.portReadVal id = ((s.reg r).val, s) ∧ s.portReadAv id = ((s.reg r).av, s) ∧
      s.portReadLv id = ((s.reg r).lv, s) ∧ s.portReadFv id = ((s.reg r).fv, s) ∧
      s.portWriteVal id v = s.setVal r v ∧ s.portWriteAv id a = s.setAv r a ∧ s.portWriteLv id l = s.setLv r l ∧
      s.portWriteFv id f = s.setFv r (f &&& 0x7F)
end

