-- ==== Sys2Proof/Laws/Decode.lean ====
section
/-! SUPPORT. Reading back the tokens the encoder writes: names, decimal text, and each operand kind. -/

namespace Sys2Proof

/-! ## Names -/

@[simp] theorem Reg.ofName_name (r : Reg) : Reg.ofName r.name = some r := by cases r <;> rfl

@[simp] theorem Flag.ofName_name (f : Flag) : Flag.ofName f.name = some f := by cases f <;> rfl

@[simp] theorem MemLabel.ofName_name (m : MemLabel) : MemLabel.ofName m.name = some m := by cases m <;> rfl

@[simp] theorem intValue_regName (r : Reg) : intValue r.name = none := by cases r <;> rfl

@[simp] theorem intValue_memLabelName (m : MemLabel) : intValue m.name = none := by cases m <;> rfl

@[simp] theorem MemLabel.ofName_regName (r : Reg) : MemLabel.ofName r.name = none := by cases r <;> rfl

theorem bareOk_regName (r : Reg) : bareOk r.name = true := by cases r <;> rfl

theorem bareOk_flagName (f : Flag) : bareOk f.name = true := by cases f <;> rfl

theorem bareOk_memLabelName (m : MemLabel) : bareOk m.name = true := by cases m <;> rfl

theorem tokenOk_of_bareOk {t : Text} (h : bareOk t = true) : tokenOk t = true := by simp [tokenOk, h]

/-! ## Decimal text -/

theorem digitValue_digitChar {d : Nat} (h : d < 10) : digitValue (digitChar d) = some d := by
  interval_cases d <;> rfl

theorem digitsFrom_natDigits (fuel n : Nat) (rest : Text) (h : n < 10 ^ fuel) :
    digitsFrom 0 (natDigits fuel n rest) = digitsFrom n rest := by
  induction fuel generalizing n rest with
  | zero =>
    have : n = 0 := by simpa using h
    subst this; rfl
  | succ fuel ih =>
    simp only [natDigits]
    split
    · next hn => simp [digitsFrom, digitValue_digitChar hn]
    · rw [ih (n / 10) _ (by rw [pow_succ] at h; omega)]
      simp only [digitsFrom, digitValue_digitChar (Nat.mod_lt n (by decide))]
      congr 1
      omega

/-- The decimal text of a number is digits, at least one. -/
theorem natDigits_digits (fuel n : Nat) (rest : Text) (hr : ∀ c ∈ rest, (digitValue c).isSome) :
    ∀ c ∈ natDigits fuel n rest, (digitValue c).isSome := by
  induction fuel generalizing n rest with
  | zero => exact hr
  | succ fuel ih =>
    simp only [natDigits]
    split
    · next hn =>
      intro c hc
      rcases List.mem_cons.mp hc with rfl | hc
      · simp [digitValue_digitChar hn]
      · exact hr c hc
    · refine ih _ _ ?_
      intro c hc
      rcases List.mem_cons.mp hc with rfl | hc
      · simp [digitValue_digitChar (Nat.mod_lt n (by decide : 10 > 0))]
      · exact hr c hc

theorem natDigits_ne_nil (fuel n : Nat) (rest : Text) (h : fuel ≠ 0 ∨ rest ≠ []) : natDigits fuel n rest ≠ [] := by
  induction fuel generalizing n rest with
  | zero =>
    rcases h with h | h
    · exact absurd rfl h
    · exact h
  | succ fuel ih =>
    simp only [natDigits]
    split
    · simp
    · exact ih _ _ (.inr (by simp))

theorem natText_digits (n : Nat) : ∀ c ∈ natText n, (digitValue c).isSome :=
  natDigits_digits _ _ _ (by simp)

theorem natText_ne_nil (n : Nat) : natText n ≠ [] := natDigits_ne_nil _ _ _ (.inl (by simp))

theorem digitsValue_natText (n : Nat) : digitsValue (natText n) = some n := by
  have h : digitsFrom 0 (natText n) = some n := by
    refine (digitsFrom_natDigits _ n [] ?_).trans rfl
    calc n < 2 ^ (Nat.log2 n + 1) := Nat.lt_log2_self
      _ ≤ 10 ^ (Nat.log2 n + 1) := Nat.pow_le_pow_left (by decide) _
  cases ht : natText n with
  | nil => exact absurd ht (natText_ne_nil n)
  | cons c cs => rw [ht] at h; exact h

theorem digit_bounds {c : CodePoint} (h : (digitValue c).isSome) : 48 ≤ c.code ∧ c.code ≤ 57 := by
  unfold digitValue at h
  split at h
  · next h' => exact h'
  · simp at h

theorem intValue_natText (n : Nat) : intValue (natText n) = some (n : Int) := by
  have hv := digitsValue_natText n
  cases ht : natText n with
  | nil => exact absurd ht (natText_ne_nil n)
  | cons c cs =>
    have hc := digit_bounds (natText_digits n c (by simp [ht]))
    have h1 : c ≠ .scalar '-' := by rintro rfl; exact absurd hc (by decide)
    have h2 : c ≠ .scalar '+' := by rintro rfl; exact absurd hc (by decide)
    rw [ht] at hv
    simp [intValue, h1, h2, hv]

/-- `dec` is read back by the integer syntax (00_scope R8, 30_encoding R146). -/
@[simp] theorem intValue_dec (v : Int) : intValue (dec v) = some v := by
  unfold dec
  split
  · next h =>
    have e : intValue (.scalar '-' :: natText v.natAbs) = some (-(v.natAbs : Int)) := by
      simp [intValue, digitsValue_natText]
    rw [e]
    congr 1
    omega
  · rw [intValue_natText]
    simp only [Option.some.injEq]
    omega

theorem bareOk_dec (v : Int) : bareOk (dec v) = true := by
  have digits : ∀ n, ∀ c ∈ natText n, isSpace c = false := by
    intro n c hc
    have := digit_bounds (natText_digits n c hc)
    have h1 : c ≠ .scalar ' ' := by rintro rfl; exact absurd this (by decide)
    have h2 : c ≠ .scalar '\t' := by rintro rfl; exact absurd this (by decide)
    have h3 : c ≠ .scalar '\r' := by rintro rfl; exact absurd this (by decide)
    simp [isSpace, h1, h2, h3]
  unfold dec
  split
  · have : isSpace (.scalar '-') = false := rfl
    simp only [bareOk, List.isEmpty_cons, Bool.not_false, List.all_cons, this, Bool.true_and, List.head?_cons,
      Bool.and_eq_true, List.all_eq_true, Bool.not_eq_true']
    exact ⟨fun c hc => digits _ c hc, rfl⟩
  · have hd := digits v.natAbs
    have hn := natText_digits v.natAbs
    cases ht : natText v.natAbs with
    | nil => exact absurd ht (natText_ne_nil _)
    | cons c cs =>
      rw [ht] at hd hn
      have hb := digit_bounds (hn c (by simp))
      have hq : c ≠ .scalar '"' := by rintro rfl; exact absurd hb (by decide)
      simp only [bareOk, List.isEmpty_cons, Bool.not_false, Bool.true_and, List.head?_cons,
        Bool.and_eq_true, List.all_eq_true, decide_eq_true_eq, Bool.not_eq_true', ne_eq, Option.some.injEq]
      exact ⟨fun d hd' => hd d hd', hq⟩

/-! ## Operands -/

theorem inInt32_toInt (v : Word) : inInt32 v.toInt = true := by
  have h1 := BitVec.le_toInt v
  have h2 := BitVec.toInt_lt (x := v)
  simp only [inInt32, Bool.and_eq_true, decide_eq_true_eq]
  omega

theorem inInt64_toInt (v : Wide) : inInt64 v.toInt = true := by
  have h1 := BitVec.le_toInt v
  have h2 := BitVec.toInt_lt (x := v)
  simp only [inInt64, Bool.and_eq_true, decide_eq_true_eq]
  omega

@[simp] theorem wrap32_toInt (v : Word) : wrap32 v.toInt = v := by simp [wrap32]

@[simp] theorem regOperand_name (r : Reg) : regOperand r.name = .ok r := by simp [regOperand]

@[simp] theorem flagOperand_name (f : Flag) : flagOperand f.name = .ok f := by simp [flagOperand]

@[simp] theorem srcAvOperand_token (x : SrcAv) : srcAvOperand x.token = .ok x := by
  cases x <;> simp [srcAvOperand, SrcAv.token, inInt32_toInt]

@[simp] theorem srcLvOperand_token (x : SrcLv) : srcLvOperand x.token = .ok x := by
  cases x <;> simp [srcLvOperand, SrcLv.token, inInt64_toInt]

@[simp] theorem addrOperand_token (a : Addr) : addrOperand a.token = .ok a := by
  cases a <;> simp [addrOperand, Addr.token, inInt32_toInt]

theorem strAddrOperand_token {b : StrAddr} (h : b.wellFormed = true) : strAddrOperand b.token = .ok b := by
  cases b with
  | addr a => simp [strAddrOperand, StrAddr.token]
  | literal t =>
    simp only [StrAddr.wellFormed, addressShaped, Bool.and_eq_true, Bool.not_eq_true', Bool.or_eq_false_iff,
      Option.isSome_eq_false_iff, Option.isNone_iff_eq_none] at h
    simp [strAddrOperand, addrOperand, StrAddr.token, h.2]

theorem gArgOperand_token {g : GArg} (h : g.wellFormed = true) : gArgOperand g.token = g := by
  cases g with
  | reg r => simp [gArgOperand, GArg.token]
  | text t =>
    simp only [GArg.wellFormed, Bool.and_eq_true, Option.isNone_iff_eq_none] at h
    simp [gArgOperand, GArg.token, h.2]

theorem tokenOk_srcAv (x : SrcAv) : tokenOk x.token = true := by
  cases x
  · exact tokenOk_of_bareOk (bareOk_dec _)
  · exact tokenOk_of_bareOk (bareOk_regName _)

theorem tokenOk_srcLv (x : SrcLv) : tokenOk x.token = true := by
  cases x
  · exact tokenOk_of_bareOk (bareOk_dec _)
  · exact tokenOk_of_bareOk (bareOk_regName _)

theorem tokenOk_addr (a : Addr) : tokenOk a.token = true := by
  cases a
  · exact tokenOk_of_bareOk (bareOk_dec _)
  · exact tokenOk_of_bareOk (bareOk_memLabelName _)
  · exact tokenOk_of_bareOk (bareOk_regName _)

theorem tokenOk_strAddr {b : StrAddr} (h : b.wellFormed = true) : tokenOk b.token = true := by
  cases b with
  | addr a => exact tokenOk_addr a
  | literal t => simp only [StrAddr.wellFormed, Bool.and_eq_true] at h; exact h.1

theorem tokenOk_gArg {g : GArg} (h : g.wellFormed = true) : tokenOk g.token = true := by
  cases g with
  | reg r => exact tokenOk_of_bareOk (bareOk_regName r)
  | text t => simp only [GArg.wellFormed, Bool.and_eq_true] at h; exact h.1

theorem tokenOk_regName (r : Reg) : tokenOk r.name = true := tokenOk_of_bareOk (bareOk_regName r)

theorem tokenOk_flagName (f : Flag) : tokenOk f.name = true := tokenOk_of_bareOk (bareOk_flagName f)

/-! ## The opcode map -/

/-- No two rows share an opcode id. -/
theorem opTable_opcodes_nodup : (opTable.map (fun row => row.opcode)).Nodup := by decide +kernel

/-- No two rows share a mnemonic. -/
theorem opTable_mnemonics_nodup : (opTable.map (fun row => row.mnemonic)).Nodup := by decide +kernel

/-- Every mnemonic stands bare, and opens an INSTR line. -/
theorem opTable_mnemonics_bare : opTable.all (fun row => bareOk row.mnemonic) = true := by decide +kernel

end Sys2Proof
end

