-- ==== Sys2Proof/Laws/State.lean ====
section
/-! SUPPORT. One lemma per field of the state and update, so that no later proof unfolds a record update. -/

namespace Sys2Proof.Machine

/-! ## Register numbers -/

theorem Reg.ofId_id (r : Reg) : Reg.ofId r.id.val = some r := by cases r <;> rfl

theorem Reg.id_injective {r q : Reg} (h : r.id = q.id) : r = q := by
  have := Reg.ofId_id r
  rw [h, Reg.ofId_id q] at this
  exact (Option.some.inj this).symm

/-! ## Reading a register after an update -/

theorem State.reg_setReg (s : State) (r q : Reg) (x : Register) :
    (s.setReg r x).reg q = if q = r then x else s.reg q := by
  simp only [State.reg, State.setReg, Vector.get_eq_getElem]
  rw [Vector.getElem_set]
  by_cases h : q = r
  · subst h; simp
  · have : r.id.val ≠ q.id.val := fun e => h (Reg.id_injective (Fin.ext e.symm))
    simp [h, this]

@[simp] theorem State.reg_setReg_self (s : State) (r : Reg) (x : Register) : (s.setReg r x).reg r = x := by
  simp [State.reg_setReg]

theorem State.reg_setReg_of_ne (s : State) {r q : Reg} (x : Register) (h : q ≠ r) :
    (s.setReg r x).reg q = s.reg q := by
  simp [State.reg_setReg, h]

@[simp] theorem State.val_setVal (s : State) (r q : Reg) (v : GVal) :
    ((s.setVal r v).reg q).val = if q = r then v else (s.reg q).val := by
  simp only [State.setVal, State.reg_setReg]; split <;> simp_all

@[simp] theorem State.av_setVal (s : State) (r q : Reg) (v : GVal) :
    ((s.setVal r v).reg q).av = (s.reg q).av := by
  simp only [State.setVal, State.reg_setReg]; split <;> simp_all

@[simp] theorem State.lv_setVal (s : State) (r q : Reg) (v : GVal) :
    ((s.setVal r v).reg q).lv = (s.reg q).lv := by
  simp only [State.setVal, State.reg_setReg]; split <;> simp_all

@[simp] theorem State.fv_setVal (s : State) (r q : Reg) (v : GVal) :
    ((s.setVal r v).reg q).fv = (s.reg q).fv := by
  simp only [State.setVal, State.reg_setReg]; split <;> simp_all

@[simp] theorem State.val_setAv (s : State) (r q : Reg) (v : Word) :
    ((s.setAv r v).reg q).val = (s.reg q).val := by
  simp only [State.setAv, State.reg_setReg]; split <;> simp_all

@[simp] theorem State.av_setAv (s : State) (r q : Reg) (v : Word) :
    ((s.setAv r v).reg q).av = if q = r then v else (s.reg q).av := by
  simp only [State.setAv, State.reg_setReg]; split <;> simp_all

@[simp] theorem State.lv_setAv (s : State) (r q : Reg) (v : Word) :
    ((s.setAv r v).reg q).lv = (s.reg q).lv := by
  simp only [State.setAv, State.reg_setReg]; split <;> simp_all

@[simp] theorem State.fv_setAv (s : State) (r q : Reg) (v : Word) :
    ((s.setAv r v).reg q).fv = (s.reg q).fv := by
  simp only [State.setAv, State.reg_setReg]; split <;> simp_all

@[simp] theorem State.val_setLv (s : State) (r q : Reg) (v : Wide) :
    ((s.setLv r v).reg q).val = (s.reg q).val := by
  simp only [State.setLv, State.reg_setReg]; split <;> simp_all

@[simp] theorem State.av_setLv (s : State) (r q : Reg) (v : Wide) :
    ((s.setLv r v).reg q).av = (s.reg q).av := by
  simp only [State.setLv, State.reg_setReg]; split <;> simp_all

@[simp] theorem State.lv_setLv (s : State) (r q : Reg) (v : Wide) :
    ((s.setLv r v).reg q).lv = if q = r then v else (s.reg q).lv := by
  simp only [State.setLv, State.reg_setReg]; split <;> simp_all

@[simp] theorem State.fv_setLv (s : State) (r q : Reg) (v : Wide) :
    ((s.setLv r v).reg q).fv = (s.reg q).fv := by
  simp only [State.setLv, State.reg_setReg]; split <;> simp_all

@[simp] theorem State.val_setFv (s : State) (r q : Reg) (v : FlagBits) :
    ((s.setFv r v).reg q).val = (s.reg q).val := by
  simp only [State.setFv, State.reg_setReg]; split <;> simp_all

@[simp] theorem State.av_setFv (s : State) (r q : Reg) (v : FlagBits) :
    ((s.setFv r v).reg q).av = (s.reg q).av := by
  simp only [State.setFv, State.reg_setReg]; split <;> simp_all

@[simp] theorem State.lv_setFv (s : State) (r q : Reg) (v : FlagBits) :
    ((s.setFv r v).reg q).lv = (s.reg q).lv := by
  simp only [State.setFv, State.reg_setReg]; split <;> simp_all

@[simp] theorem State.fv_setFv (s : State) (r q : Reg) (v : FlagBits) :
    ((s.setFv r v).reg q).fv = if q = r then v else (s.reg q).fv := by
  simp only [State.setFv, State.reg_setReg]; split <;> simp_all

/-! ## Every other field -/

@[simp] theorem State.params_setReg (s : State) (r : Reg) (x : Register) : (s.setReg r x).params = s.params := rfl
@[simp] theorem State.stack_setReg (s : State) (r : Reg) (x : Register) : (s.setReg r x).stack = s.stack := rfl
@[simp] theorem State.mem_setReg (s : State) (r : Reg) (x : Register) : (s.setReg r x).mem = s.mem := rfl
@[simp] theorem State.irom_setReg (s : State) (r : Reg) (x : Register) : (s.setReg r x).irom = s.irom := rfl
@[simp] theorem State.lrom_setReg (s : State) (r : Reg) (x : Register) : (s.setReg r x).lrom = s.lrom := rfl
@[simp] theorem State.run_setReg (s : State) (r : Reg) (x : Register) : (s.setReg r x).run = s.run := rfl
@[simp] theorem State.firstRun_setReg (s : State) (r : Reg) (x : Register) : (s.setReg r x).firstRun = s.firstRun := rfl
@[simp] theorem State.answers_setReg (s : State) (r : Reg) (x : Register) : (s.setReg r x).answers = s.answers := rfl
@[simp] theorem State.events_setReg (s : State) (r : Reg) (x : Register) : (s.setReg r x).events = s.events := rfl

@[simp] theorem State.params_setVal (s : State) (r : Reg) (v : GVal) : (s.setVal r v).params = s.params := rfl
@[simp] theorem State.stack_setVal (s : State) (r : Reg) (v : GVal) : (s.setVal r v).stack = s.stack := rfl
@[simp] theorem State.mem_setVal (s : State) (r : Reg) (v : GVal) : (s.setVal r v).mem = s.mem := rfl
@[simp] theorem State.irom_setVal (s : State) (r : Reg) (v : GVal) : (s.setVal r v).irom = s.irom := rfl
@[simp] theorem State.lrom_setVal (s : State) (r : Reg) (v : GVal) : (s.setVal r v).lrom = s.lrom := rfl
@[simp] theorem State.run_setVal (s : State) (r : Reg) (v : GVal) : (s.setVal r v).run = s.run := rfl
@[simp] theorem State.firstRun_setVal (s : State) (r : Reg) (v : GVal) : (s.setVal r v).firstRun = s.firstRun := rfl
@[simp] theorem State.answers_setVal (s : State) (r : Reg) (v : GVal) : (s.setVal r v).answers = s.answers := rfl
@[simp] theorem State.events_setVal (s : State) (r : Reg) (v : GVal) : (s.setVal r v).events = s.events := rfl

@[simp] theorem State.params_setAv (s : State) (r : Reg) (v : Word) : (s.setAv r v).params = s.params := rfl
@[simp] theorem State.stack_setAv (s : State) (r : Reg) (v : Word) : (s.setAv r v).stack = s.stack := rfl
@[simp] theorem State.mem_setAv (s : State) (r : Reg) (v : Word) : (s.setAv r v).mem = s.mem := rfl
@[simp] theorem State.irom_setAv (s : State) (r : Reg) (v : Word) : (s.setAv r v).irom = s.irom := rfl
@[simp] theorem State.lrom_setAv (s : State) (r : Reg) (v : Word) : (s.setAv r v).lrom = s.lrom := rfl
@[simp] theorem State.run_setAv (s : State) (r : Reg) (v : Word) : (s.setAv r v).run = s.run := rfl
@[simp] theorem State.firstRun_setAv (s : State) (r : Reg) (v : Word) : (s.setAv r v).firstRun = s.firstRun := rfl
@[simp] theorem State.answers_setAv (s : State) (r : Reg) (v : Word) : (s.setAv r v).answers = s.answers := rfl
@[simp] theorem State.events_setAv (s : State) (r : Reg) (v : Word) : (s.setAv r v).events = s.events := rfl

@[simp] theorem State.params_setLv (s : State) (r : Reg) (v : Wide) : (s.setLv r v).params = s.params := rfl
@[simp] theorem State.stack_setLv (s : State) (r : Reg) (v : Wide) : (s.setLv r v).stack = s.stack := rfl
@[simp] theorem State.mem_setLv (s : State) (r : Reg) (v : Wide) : (s.setLv r v).mem = s.mem := rfl
@[simp] theorem State.irom_setLv (s : State) (r : Reg) (v : Wide) : (s.setLv r v).irom = s.irom := rfl
@[simp] theorem State.lrom_setLv (s : State) (r : Reg) (v : Wide) : (s.setLv r v).lrom = s.lrom := rfl
@[simp] theorem State.run_setLv (s : State) (r : Reg) (v : Wide) : (s.setLv r v).run = s.run := rfl
@[simp] theorem State.firstRun_setLv (s : State) (r : Reg) (v : Wide) : (s.setLv r v).firstRun = s.firstRun := rfl
@[simp] theorem State.answers_setLv (s : State) (r : Reg) (v : Wide) : (s.setLv r v).answers = s.answers := rfl
@[simp] theorem State.events_setLv (s : State) (r : Reg) (v : Wide) : (s.setLv r v).events = s.events := rfl

@[simp] theorem State.params_setFv (s : State) (r : Reg) (v : FlagBits) : (s.setFv r v).params = s.params := rfl
@[simp] theorem State.stack_setFv (s : State) (r : Reg) (v : FlagBits) : (s.setFv r v).stack = s.stack := rfl
@[simp] theorem State.mem_setFv (s : State) (r : Reg) (v : FlagBits) : (s.setFv r v).mem = s.mem := rfl
@[simp] theorem State.irom_setFv (s : State) (r : Reg) (v : FlagBits) : (s.setFv r v).irom = s.irom := rfl
@[simp] theorem State.lrom_setFv (s : State) (r : Reg) (v : FlagBits) : (s.setFv r v).lrom = s.lrom := rfl
@[simp] theorem State.run_setFv (s : State) (r : Reg) (v : FlagBits) : (s.setFv r v).run = s.run := rfl
@[simp] theorem State.firstRun_setFv (s : State) (r : Reg) (v : FlagBits) : (s.setFv r v).firstRun = s.firstRun := rfl
@[simp] theorem State.answers_setFv (s : State) (r : Reg) (v : FlagBits) : (s.setFv r v).answers = s.answers := rfl
@[simp] theorem State.events_setFv (s : State) (r : Reg) (v : FlagBits) : (s.setFv r v).events = s.events := rfl

@[simp] theorem State.params_setPc (s : State) (v : Word) : (s.setPc v).params = s.params := rfl
@[simp] theorem State.stack_setPc (s : State) (v : Word) : (s.setPc v).stack = s.stack := rfl
@[simp] theorem State.mem_setPc (s : State) (v : Word) : (s.setPc v).mem = s.mem := rfl
@[simp] theorem State.irom_setPc (s : State) (v : Word) : (s.setPc v).irom = s.irom := rfl
@[simp] theorem State.lrom_setPc (s : State) (v : Word) : (s.setPc v).lrom = s.lrom := rfl
@[simp] theorem State.run_setPc (s : State) (v : Word) : (s.setPc v).run = s.run := rfl
@[simp] theorem State.firstRun_setPc (s : State) (v : Word) : (s.setPc v).firstRun = s.firstRun := rfl
@[simp] theorem State.answers_setPc (s : State) (v : Word) : (s.setPc v).answers = s.answers := rfl
@[simp] theorem State.events_setPc (s : State) (v : Word) : (s.setPc v).events = s.events := rfl

@[simp] theorem State.params_setFlagBits (s : State) (v : FlagBits) : (s.setFlagBits v).params = s.params := rfl
@[simp] theorem State.stack_setFlagBits (s : State) (v : FlagBits) : (s.setFlagBits v).stack = s.stack := rfl
@[simp] theorem State.mem_setFlagBits (s : State) (v : FlagBits) : (s.setFlagBits v).mem = s.mem := rfl
@[simp] theorem State.irom_setFlagBits (s : State) (v : FlagBits) : (s.setFlagBits v).irom = s.irom := rfl
@[simp] theorem State.lrom_setFlagBits (s : State) (v : FlagBits) : (s.setFlagBits v).lrom = s.lrom := rfl
@[simp] theorem State.run_setFlagBits (s : State) (v : FlagBits) : (s.setFlagBits v).run = s.run := rfl
@[simp] theorem State.firstRun_setFlagBits (s : State) (v : FlagBits) : (s.setFlagBits v).firstRun = s.firstRun := rfl
@[simp] theorem State.answers_setFlagBits (s : State) (v : FlagBits) : (s.setFlagBits v).answers = s.answers := rfl
@[simp] theorem State.events_setFlagBits (s : State) (v : FlagBits) : (s.setFlagBits v).events = s.events := rfl

@[simp] theorem State.params_setZPN (s : State) (z p n : Bool) : (s.setZPN z p n).params = s.params := rfl
@[simp] theorem State.stack_setZPN (s : State) (z p n : Bool) : (s.setZPN z p n).stack = s.stack := rfl
@[simp] theorem State.mem_setZPN (s : State) (z p n : Bool) : (s.setZPN z p n).mem = s.mem := rfl
@[simp] theorem State.irom_setZPN (s : State) (z p n : Bool) : (s.setZPN z p n).irom = s.irom := rfl
@[simp] theorem State.lrom_setZPN (s : State) (z p n : Bool) : (s.setZPN z p n).lrom = s.lrom := rfl
@[simp] theorem State.run_setZPN (s : State) (z p n : Bool) : (s.setZPN z p n).run = s.run := rfl
@[simp] theorem State.firstRun_setZPN (s : State) (z p n : Bool) : (s.setZPN z p n).firstRun = s.firstRun := rfl
@[simp] theorem State.answers_setZPN (s : State) (z p n : Bool) : (s.setZPN z p n).answers = s.answers := rfl
@[simp] theorem State.events_setZPN (s : State) (z p n : Bool) : (s.setZPN z p n).events = s.events := rfl

@[simp] theorem State.params_signFlags (s : State) (v : Int) : (s.signFlags v).params = s.params := rfl
@[simp] theorem State.stack_signFlags (s : State) (v : Int) : (s.signFlags v).stack = s.stack := rfl
@[simp] theorem State.mem_signFlags (s : State) (v : Int) : (s.signFlags v).mem = s.mem := rfl
@[simp] theorem State.irom_signFlags (s : State) (v : Int) : (s.signFlags v).irom = s.irom := rfl
@[simp] theorem State.lrom_signFlags (s : State) (v : Int) : (s.signFlags v).lrom = s.lrom := rfl
@[simp] theorem State.run_signFlags (s : State) (v : Int) : (s.signFlags v).run = s.run := rfl
@[simp] theorem State.firstRun_signFlags (s : State) (v : Int) : (s.signFlags v).firstRun = s.firstRun := rfl
@[simp] theorem State.answers_signFlags (s : State) (v : Int) : (s.signFlags v).answers = s.answers := rfl
@[simp] theorem State.events_signFlags (s : State) (v : Int) : (s.signFlags v).events = s.events := rfl

@[simp] theorem State.params_fullMove (s : State) (d r : Reg) : (s.fullMove d r).params = s.params := rfl
@[simp] theorem State.stack_fullMove (s : State) (d r : Reg) : (s.fullMove d r).stack = s.stack := rfl
@[simp] theorem State.mem_fullMove (s : State) (d r : Reg) : (s.fullMove d r).mem = s.mem := rfl
@[simp] theorem State.irom_fullMove (s : State) (d r : Reg) : (s.fullMove d r).irom = s.irom := rfl
@[simp] theorem State.lrom_fullMove (s : State) (d r : Reg) : (s.fullMove d r).lrom = s.lrom := rfl
@[simp] theorem State.run_fullMove (s : State) (d r : Reg) : (s.fullMove d r).run = s.run := rfl
@[simp] theorem State.firstRun_fullMove (s : State) (d r : Reg) : (s.fullMove d r).firstRun = s.firstRun := rfl
@[simp] theorem State.answers_fullMove (s : State) (d r : Reg) : (s.fullMove d r).answers = s.answers := rfl
@[simp] theorem State.events_fullMove (s : State) (d r : Reg) : (s.fullMove d r).events = s.events := rfl

@[simp] theorem State.params_redirect (s : State) (t : Nat) : (s.redirect t).params = s.params := rfl
@[simp] theorem State.stack_redirect (s : State) (t : Nat) : (s.redirect t).stack = s.stack := rfl
@[simp] theorem State.mem_redirect (s : State) (t : Nat) : (s.redirect t).mem = s.mem := rfl
@[simp] theorem State.irom_redirect (s : State) (t : Nat) : (s.redirect t).irom = s.irom := rfl
@[simp] theorem State.lrom_redirect (s : State) (t : Nat) : (s.redirect t).lrom = s.lrom := rfl
@[simp] theorem State.run_redirect (s : State) (t : Nat) : (s.redirect t).run = s.run := rfl
@[simp] theorem State.firstRun_redirect (s : State) (t : Nat) : (s.redirect t).firstRun = s.firstRun := rfl
@[simp] theorem State.answers_redirect (s : State) (t : Nat) : (s.redirect t).answers = s.answers := rfl
@[simp] theorem State.events_redirect (s : State) (t : Nat) : (s.redirect t).events = s.events := rfl

@[simp] theorem State.params_advance (s : State) : (s.advance).params = s.params := rfl
@[simp] theorem State.stack_advance (s : State) : (s.advance).stack = s.stack := rfl
@[simp] theorem State.mem_advance (s : State) : (s.advance).mem = s.mem := rfl
@[simp] theorem State.irom_advance (s : State) : (s.advance).irom = s.irom := rfl
@[simp] theorem State.lrom_advance (s : State) : (s.advance).lrom = s.lrom := rfl
@[simp] theorem State.run_advance (s : State) : (s.advance).run = s.run := rfl
@[simp] theorem State.firstRun_advance (s : State) : (s.advance).firstRun = s.firstRun := rfl
@[simp] theorem State.answers_advance (s : State) : (s.advance).answers = s.answers := rfl
@[simp] theorem State.events_advance (s : State) : (s.advance).events = s.events := rfl

@[simp] theorem State.params_emit (s : State) (e : HostEvent) : (s.emit e).params = s.params := rfl
@[simp] theorem State.stack_emit (s : State) (e : HostEvent) : (s.emit e).stack = s.stack := rfl
@[simp] theorem State.mem_emit (s : State) (e : HostEvent) : (s.emit e).mem = s.mem := rfl
@[simp] theorem State.irom_emit (s : State) (e : HostEvent) : (s.emit e).irom = s.irom := rfl
@[simp] theorem State.lrom_emit (s : State) (e : HostEvent) : (s.emit e).lrom = s.lrom := rfl
@[simp] theorem State.run_emit (s : State) (e : HostEvent) : (s.emit e).run = s.run := rfl
@[simp] theorem State.firstRun_emit (s : State) (e : HostEvent) : (s.emit e).firstRun = s.firstRun := rfl
@[simp] theorem State.answers_emit (s : State) (e : HostEvent) : (s.emit e).answers = s.answers := rfl
@[simp] theorem State.events_emit (s : State) (e : HostEvent) : (s.emit e).events = s.events ++ [e] := rfl
@[simp] theorem State.reg_emit (s : State) (e : HostEvent) (q : Reg) : (s.emit e).reg q = s.reg q := rfl
@[simp] theorem State.pc_emit (s : State) (e : HostEvent) : (s.emit e).pc = s.pc := rfl
@[simp] theorem State.flagBits_emit (s : State) (e : HostEvent) : (s.emit e).flagBits = s.flagBits := rfl

@[simp] theorem State.params_diag (s : State) (c : DiagCode) : (s.diag c).params = s.params := rfl
@[simp] theorem State.stack_diag (s : State) (c : DiagCode) : (s.diag c).stack = s.stack := rfl
@[simp] theorem State.mem_diag (s : State) (c : DiagCode) : (s.diag c).mem = s.mem := rfl
@[simp] theorem State.irom_diag (s : State) (c : DiagCode) : (s.diag c).irom = s.irom := rfl
@[simp] theorem State.lrom_diag (s : State) (c : DiagCode) : (s.diag c).lrom = s.lrom := rfl
@[simp] theorem State.run_diag (s : State) (c : DiagCode) : (s.diag c).run = s.run := rfl
@[simp] theorem State.firstRun_diag (s : State) (c : DiagCode) : (s.diag c).firstRun = s.firstRun := rfl
@[simp] theorem State.answers_diag (s : State) (c : DiagCode) : (s.diag c).answers = s.answers := rfl
@[simp] theorem State.events_diag (s : State) (c : DiagCode) : (s.diag c).events = s.events ++ [.diagnostic c s.pc] := rfl
@[simp] theorem State.reg_diag (s : State) (c : DiagCode) (q : Reg) : (s.diag c).reg q = s.reg q := rfl
@[simp] theorem State.pc_diag (s : State) (c : DiagCode) : (s.diag c).pc = s.pc := rfl
@[simp] theorem State.flagBits_diag (s : State) (c : DiagCode) : (s.diag c).flagBits = s.flagBits := rfl

@[simp] theorem State.params_answered (s : State) (a : HostAnswers) : (s.answered a).params = s.params := rfl
@[simp] theorem State.stack_answered (s : State) (a : HostAnswers) : (s.answered a).stack = s.stack := rfl
@[simp] theorem State.mem_answered (s : State) (a : HostAnswers) : (s.answered a).mem = s.mem := rfl
@[simp] theorem State.irom_answered (s : State) (a : HostAnswers) : (s.answered a).irom = s.irom := rfl
@[simp] theorem State.lrom_answered (s : State) (a : HostAnswers) : (s.answered a).lrom = s.lrom := rfl
@[simp] theorem State.run_answered (s : State) (a : HostAnswers) : (s.answered a).run = s.run := rfl
@[simp] theorem State.firstRun_answered (s : State) (a : HostAnswers) : (s.answered a).firstRun = s.firstRun := rfl
@[simp] theorem State.answers_answered (s : State) (a : HostAnswers) : (s.answered a).answers = { a with asked := s.answers.asked + 1 } := rfl
@[simp] theorem State.events_answered (s : State) (a : HostAnswers) : (s.answered a).events = s.events := rfl
@[simp] theorem State.reg_answered (s : State) (a : HostAnswers) (q : Reg) : (s.answered a).reg q = s.reg q := rfl
@[simp] theorem State.pc_answered (s : State) (a : HostAnswers) : (s.answered a).pc = s.pc := rfl
@[simp] theorem State.flagBits_answered (s : State) (a : HostAnswers) : (s.answered a).flagBits = s.flagBits := rfl

@[simp] theorem State.params_push (s : State) (v : Word) : (s.push v).params = s.params := rfl
@[simp] theorem State.stack_push (s : State) (v : Word) : (s.push v).stack = v :: s.stack := rfl
@[simp] theorem State.mem_push (s : State) (v : Word) : (s.push v).mem = s.mem := rfl
@[simp] theorem State.irom_push (s : State) (v : Word) : (s.push v).irom = s.irom := rfl
@[simp] theorem State.lrom_push (s : State) (v : Word) : (s.push v).lrom = s.lrom := rfl
@[simp] theorem State.run_push (s : State) (v : Word) : (s.push v).run = s.run := rfl
@[simp] theorem State.firstRun_push (s : State) (v : Word) : (s.push v).firstRun = s.firstRun := rfl
@[simp] theorem State.answers_push (s : State) (v : Word) : (s.push v).answers = s.answers := rfl
@[simp] theorem State.events_push (s : State) (v : Word) : (s.push v).events = s.events := rfl
@[simp] theorem State.reg_push (s : State) (v : Word) (q : Reg) : (s.push v).reg q = s.reg q := rfl
@[simp] theorem State.pc_push (s : State) (v : Word) : (s.push v).pc = s.pc := rfl
@[simp] theorem State.flagBits_push (s : State) (v : Word) : (s.push v).flagBits = s.flagBits := rfl

@[simp] theorem State.params_runHalt (s : State) (c : HaltCode) : (s.runHalt c).params = s.params := rfl
@[simp] theorem State.stack_runHalt (s : State) (c : HaltCode) : (s.runHalt c).stack = s.stack := rfl
@[simp] theorem State.mem_runHalt (s : State) (c : HaltCode) : (s.runHalt c).mem = s.mem := rfl
@[simp] theorem State.irom_runHalt (s : State) (c : HaltCode) : (s.runHalt c).irom = s.irom := rfl
@[simp] theorem State.lrom_runHalt (s : State) (c : HaltCode) : (s.runHalt c).lrom = s.lrom := rfl
@[simp] theorem State.run_runHalt (s : State) (c : HaltCode) : (s.runHalt c).run = .halted c := rfl
@[simp] theorem State.firstRun_runHalt (s : State) (c : HaltCode) : (s.runHalt c).firstRun = s.firstRun := rfl
@[simp] theorem State.answers_runHalt (s : State) (c : HaltCode) : (s.runHalt c).answers = s.answers := rfl
@[simp] theorem State.events_runHalt (s : State) (c : HaltCode) : (s.runHalt c).events = s.events ++ [.diagnostic c.diag s.pc] := rfl
@[simp] theorem State.reg_runHalt (s : State) (c : HaltCode) (q : Reg) : (s.runHalt c).reg q = s.reg q := rfl
@[simp] theorem State.pc_runHalt (s : State) (c : HaltCode) : (s.runHalt c).pc = s.pc := rfl
@[simp] theorem State.flagBits_runHalt (s : State) (c : HaltCode) : (s.runHalt c).flagBits = s.flagBits := rfl

@[simp] theorem State.params_terminate (s : State) (v : Word) : (s.terminate v).params = s.params := rfl
@[simp] theorem State.stack_terminate (s : State) (v : Word) : (s.terminate v).stack = s.stack := rfl
@[simp] theorem State.mem_terminate (s : State) (v : Word) : (s.terminate v).mem = s.mem := rfl
@[simp] theorem State.irom_terminate (s : State) (v : Word) : (s.terminate v).irom = s.irom := rfl
@[simp] theorem State.lrom_terminate (s : State) (v : Word) : (s.terminate v).lrom = s.lrom := rfl
@[simp] theorem State.run_terminate (s : State) (v : Word) : (s.terminate v).run = .terminated v := rfl
@[simp] theorem State.firstRun_terminate (s : State) (v : Word) : (s.terminate v).firstRun = s.firstRun := rfl
@[simp] theorem State.answers_terminate (s : State) (v : Word) : (s.terminate v).answers = s.answers := rfl
@[simp] theorem State.events_terminate (s : State) (v : Word) : (s.terminate v).events = s.events ++ [.terminate v] := rfl
@[simp] theorem State.reg_terminate (s : State) (v : Word) (q : Reg) : (s.terminate v).reg q = s.reg q := rfl
@[simp] theorem State.pc_terminate (s : State) (v : Word) : (s.terminate v).pc = s.pc := rfl
@[simp] theorem State.flagBits_terminate (s : State) (v : Word) : (s.terminate v).flagBits = s.flagBits := rfl

/-! ## The program counter and the condition code -/

@[simp] theorem State.pc_setPc (s : State) (v : Word) : (s.setPc v).pc = v := by simp [State.pc, State.setPc]

@[simp] theorem State.pc_redirect (s : State) (t : Nat) : (s.redirect t).pc = wrap32 ((t : Int) - 1) := by
  simp [State.redirect]

@[simp] theorem State.pc_advance (s : State) : s.advance.pc = wrap32 (s.pc.toInt + 1) := by simp [State.advance]

@[simp] theorem State.flagBits_setFlagBits (s : State) (v : FlagBits) : (s.setFlagBits v).flagBits = v := by
  simp [State.flagBits, State.setFlagBits]

@[simp] theorem State.flagBits_setAv (s : State) (r : Reg) (v : Word) : (s.setAv r v).flagBits = s.flagBits := by
  simp [State.flagBits]

@[simp] theorem State.flagBits_setVal (s : State) (r : Reg) (v : GVal) : (s.setVal r v).flagBits = s.flagBits := by
  simp [State.flagBits]

@[simp] theorem State.flagBits_setLv (s : State) (r : Reg) (v : Wide) : (s.setLv r v).flagBits = s.flagBits := by
  simp [State.flagBits]

@[simp] theorem State.flagBits_setPc (s : State) (v : Word) : (s.setPc v).flagBits = s.flagBits := by
  simp [State.setPc]

@[simp] theorem State.flagBits_setZPN (s : State) (z p n : Bool) :
    (s.setZPN z p n).flagBits = zpnBits z p n s.flagBits := by
  simp [State.setZPN]

/-! ## Facets after a write of pc or F -/

@[simp] theorem State.val_setPc (s : State) (v : Word) (q : Reg) :
    ((s.setPc v).reg q).val = (s.reg q).val := by
  simp [State.setPc]

@[simp] theorem State.av_setPc (s : State) (v : Word) (q : Reg) :
    ((s.setPc v).reg q).av = if q = .pc then v else (s.reg q).av := by
  simp [State.setPc]

@[simp] theorem State.lv_setPc (s : State) (v : Word) (q : Reg) :
    ((s.setPc v).reg q).lv = (s.reg q).lv := by
  simp [State.setPc]

@[simp] theorem State.fv_setPc (s : State) (v : Word) (q : Reg) :
    ((s.setPc v).reg q).fv = (s.reg q).fv := by
  simp [State.setPc]

@[simp] theorem State.val_redirect (s : State) (t : Nat) (q : Reg) :
    ((s.redirect t).reg q).val = (s.reg q).val := by
  simp [State.redirect]

@[simp] theorem State.av_redirect (s : State) (t : Nat) (q : Reg) :
    ((s.redirect t).reg q).av = if q = .pc then wrap32 ((t : Int) - 1) else (s.reg q).av := by
  simp [State.redirect]

@[simp] theorem State.lv_redirect (s : State) (t : Nat) (q : Reg) :
    ((s.redirect t).reg q).lv = (s.reg q).lv := by
  simp [State.redirect]

@[simp] theorem State.fv_redirect (s : State) (t : Nat) (q : Reg) :
    ((s.redirect t).reg q).fv = (s.reg q).fv := by
  simp [State.redirect]

@[simp] theorem State.val_advance (s : State) (q : Reg) :
    ((s.advance).reg q).val = (s.reg q).val := by
  simp [State.advance]

@[simp] theorem State.av_advance (s : State) (q : Reg) :
    ((s.advance).reg q).av = if q = .pc then wrap32 (s.pc.toInt + 1) else (s.reg q).av := by
  simp [State.advance]

@[simp] theorem State.lv_advance (s : State) (q : Reg) :
    ((s.advance).reg q).lv = (s.reg q).lv := by
  simp [State.advance]

@[simp] theorem State.fv_advance (s : State) (q : Reg) :
    ((s.advance).reg q).fv = (s.reg q).fv := by
  simp [State.advance]

@[simp] theorem State.val_setFlagBits (s : State) (v : FlagBits) (q : Reg) :
    ((s.setFlagBits v).reg q).val = (s.reg q).val := by
  simp [State.setFlagBits]

@[simp] theorem State.av_setFlagBits (s : State) (v : FlagBits) (q : Reg) :
    ((s.setFlagBits v).reg q).av = (s.reg q).av := by
  simp [State.setFlagBits]

@[simp] theorem State.lv_setFlagBits (s : State) (v : FlagBits) (q : Reg) :
    ((s.setFlagBits v).reg q).lv = (s.reg q).lv := by
  simp [State.setFlagBits]

@[simp] theorem State.fv_setFlagBits (s : State) (v : FlagBits) (q : Reg) :
    ((s.setFlagBits v).reg q).fv = if q = .flags then v else (s.reg q).fv := by
  simp [State.setFlagBits]

@[simp] theorem State.val_setZPN (s : State) (z p n : Bool) (q : Reg) :
    ((s.setZPN z p n).reg q).val = (s.reg q).val := by
  simp [State.setZPN]

@[simp] theorem State.av_setZPN (s : State) (z p n : Bool) (q : Reg) :
    ((s.setZPN z p n).reg q).av = (s.reg q).av := by
  simp [State.setZPN]

@[simp] theorem State.lv_setZPN (s : State) (z p n : Bool) (q : Reg) :
    ((s.setZPN z p n).reg q).lv = (s.reg q).lv := by
  simp [State.setZPN]

@[simp] theorem State.fv_setZPN (s : State) (z p n : Bool) (q : Reg) :
    ((s.setZPN z p n).reg q).fv = if q = .flags then zpnBits z p n s.flagBits else (s.reg q).fv := by
  simp [State.setZPN]

@[simp] theorem State.val_signFlags (s : State) (v : Int) (q : Reg) :
    ((s.signFlags v).reg q).val = (s.reg q).val := by
  simp [State.signFlags]

@[simp] theorem State.av_signFlags (s : State) (v : Int) (q : Reg) :
    ((s.signFlags v).reg q).av = (s.reg q).av := by
  simp [State.signFlags]

@[simp] theorem State.lv_signFlags (s : State) (v : Int) (q : Reg) :
    ((s.signFlags v).reg q).lv = (s.reg q).lv := by
  simp [State.signFlags]

@[simp] theorem State.fv_signFlags (s : State) (v : Int) (q : Reg) :
    ((s.signFlags v).reg q).fv = if q = .flags then zpnBits (decide (v = 0)) (decide (0 < v)) (decide (v < 0)) s.flagBits else (s.reg q).fv := by
  simp [State.signFlags]

/-! ## The full move -/

@[simp] theorem State.val_fullMove (s : State) (d r q : Reg) :
    ((s.fullMove d r).reg q).val = if q = d then (s.reg r).val else (s.reg q).val := by
  simp only [State.fullMove, State.reg_setReg]; split <;> rfl

@[simp] theorem State.av_fullMove (s : State) (d r q : Reg) :
    ((s.fullMove d r).reg q).av = if q = d then (s.reg r).av else (s.reg q).av := by
  simp only [State.fullMove, State.reg_setReg]; split <;> rfl

@[simp] theorem State.lv_fullMove (s : State) (d r q : Reg) :
    ((s.fullMove d r).reg q).lv = if q = d then (s.reg r).lv else (s.reg q).lv := by
  simp only [State.fullMove, State.reg_setReg]; split <;> rfl

@[simp] theorem State.fv_fullMove (s : State) (d r q : Reg) :
    ((s.fullMove d r).reg q).fv = if q = d then copiedBits (s.reg d).fv else (s.reg q).fv := by
  simp only [State.fullMove, State.reg_setReg]; split <;> rfl

/-! ## Cells -/

theorem State.cell_congr {s t : State} (hp : t.params = s.params) (hm : t.mem = s.mem) (a : Int) :
    t.cell a = s.cell a := by
  simp [State.cell, State.inRange, hp, hm]

theorem State.inRange_congr {s t : State} (hp : t.params = s.params) (a : Int) : t.inRange a = s.inRange a := by
  simp [State.inRange, hp]

/-! ## Construction -/

@[simp] theorem State.reg_reset (r : Reg) : State.reset.reg r = Register.reset := by cases r <;> rfl

end Sys2Proof.Machine
end

