-- ==== Sys2Proof/Laws/Memory.lean ====
section
/-! SUPPORT. Data memory: reads after writes, and the canonical form. -/

namespace Sys2Proof.Machine

/-! ## The list of cells -/

theorem Memory.read_put (m : Memory) (a b : Nat) (v : Word) (h : ∀ c ∈ m, a < c.1) :
    Memory.read (Memory.put a v m) b = if b = a then v else Memory.read m b := by
  unfold Memory.put
  by_cases hv : v = unlistedCell
  · simp only [hv, if_true]
    split
    · next hb =>
      subst hb
      clear hv
      induction m with
      | nil => rfl
      | cons c m ih =>
        have hc := h c (by simp)
        simp only [Memory.read, Nat.ne_of_lt hc, if_false]
        exact ih (fun d hd => h d (by simp [hd]))
    · rfl
  · simp only [hv, if_false, Memory.read]

theorem Memory.lt_of_wf {b : Nat} {w : Word} {m : Memory} (h : Memory.wf ((b, w) :: m)) : ∀ c ∈ m, b < c.1 :=
  fun c hc => (List.pairwise_cons.mp h.1).1 c hc

theorem Memory.wf_tail {c : Nat × Word} {m : Memory} (h : Memory.wf (c :: m)) : Memory.wf m :=
  ⟨(List.pairwise_cons.mp h.1).2, fun d hd => h.2 d (by simp [hd])⟩

/-- What a read sees after a write: the value at that address, and the old cells elsewhere. -/
theorem Memory.read_write {m : Memory} (h : Memory.wf m) (a b : Nat) (v : Word) :
    Memory.read (Memory.write m a v) b = if b = a then v else Memory.read m b := by
  induction m with
  | nil => exact Memory.read_put [] a b v (by simp)
  | cons c m ih =>
    obtain ⟨d, w⟩ := c
    have hlt := Memory.lt_of_wf h
    simp only [Memory.write]
    split
    · next had =>
      refine Memory.read_put _ a b v ?_
      intro e he
      rcases List.mem_cons.mp he with rfl | he
      · exact had
      · exact lt_trans had (hlt e he)
    · split
      · next had =>
        subst had
        rw [Memory.read_put m a b v hlt]
        simp only [Memory.read]
        split <;> simp_all
      · next h1 h2 =>
        simp only [Memory.read, ih (Memory.wf_tail h)]
        by_cases hb : b = d
        · subst hb; simp [Ne.symm h2]
        · simp [hb]

theorem Memory.mem_put {m : Memory} {a : Nat} {v : Word} {c : Nat × Word} (h : c ∈ Memory.put a v m) :
    c = (a, v) ∨ c ∈ m := by
  unfold Memory.put at h
  split at h
  · exact .inr h
  · simpa using h

theorem Memory.mem_write {m : Memory} {a : Nat} {v : Word} {c : Nat × Word} (h : c ∈ Memory.write m a v) :
    c = (a, v) ∨ c ∈ m := by
  induction m with
  | nil => exact Memory.mem_put h
  | cons d m ih =>
    simp only [Memory.write] at h
    split at h
    · exact Memory.mem_put h
    · split at h
      · exact (Memory.mem_put h).imp_right (List.mem_cons_of_mem d)
      · rcases List.mem_cons.mp h with rfl | h
        · exact .inr (by simp)
        · exact (ih h).imp_right (List.mem_cons_of_mem d)

theorem Memory.wf_put {m : Memory} (h : Memory.wf m) (a : Nat) (v : Word) (hlt : ∀ c ∈ m, a < c.1) :
    Memory.wf (Memory.put a v m) := by
  unfold Memory.put
  split
  · exact h
  · next hv =>
    refine ⟨List.pairwise_cons.mpr ⟨hlt, h.1⟩, ?_⟩
    intro c hc
    rcases List.mem_cons.mp hc with rfl | hc
    · exact hv
    · exact h.2 c hc

/-- A store keeps the canonical form. -/
theorem Memory.wf_write {m : Memory} (h : Memory.wf m) (a : Nat) (v : Word) : Memory.wf (Memory.write m a v) := by
  induction m with
  | nil => exact Memory.wf_put h a v (by simp)
  | cons c m ih =>
    obtain ⟨d, w⟩ := c
    have hlt := Memory.lt_of_wf h
    simp only [Memory.write]
    split
    · next had =>
      refine Memory.wf_put h a v ?_
      intro e he
      rcases List.mem_cons.mp he with rfl | he
      · exact had
      · exact lt_trans had (hlt e he)
    · split
      · next had => subst had; exact Memory.wf_put (Memory.wf_tail h) a v hlt
      · next h1 h2 =>
        have hm := ih (Memory.wf_tail h)
        refine ⟨List.pairwise_cons.mpr ⟨?_, hm.1⟩, ?_⟩
        · intro c hc
          rcases Memory.mem_write hc with rfl | hc
          · simp only; omega
          · exact hlt c hc
        · intro c hc
          rcases List.mem_cons.mp hc with rfl | hc
          · exact h.2 _ (by simp)
          · exact hm.2 c hc

theorem Memory.wf_writeList {m : Memory} (h : Memory.wf m) (a : Nat) (ws : List Word) :
    Memory.wf (Memory.writeList m a ws) := by
  induction ws generalizing m a with
  | nil => exact h
  | cons w ws ih => exact ih (Memory.wf_write h a w) (a + 1)

theorem Memory.wf_reset : Memory.wf State.reset.mem := by decide

/-! ## The controllers -/

@[simp] theorem State.inRange_iff (s : State) (a : Int) : s.inRange a = true ↔ 0 ≤ a ∧ a < s.params.memSize := by
  simp [State.inRange]

@[simp] theorem State.params_touch (s : State) (a : Int) : (s.touch a).params = s.params := by
  unfold State.touch; split <;> rfl

@[simp] theorem State.mem_touch (s : State) (a : Int) : (s.touch a).mem = s.mem := by
  unfold State.touch; split <;> rfl

/-! ## Diagnostics of out-of-range accesses -/

@[simp] theorem State.oob_zero (s : State) : s.oob 0 = s := by simp [State.oob, oobDiags]

@[simp] theorem State.oob_oob (s : State) (n m : Nat) : (s.oob n).oob m = s.oob (n + m) := by
  have h : oobDiags (s.oob n) m = oobDiags s m := rfl
  simp only [State.oob] at h ⊢
  rw [h]
  simp only [oobDiags, List.replicate_add, List.append_assoc]

@[simp] theorem State.params_oob (s : State) (n : Nat) : (s.oob n).params = s.params := rfl
@[simp] theorem State.mem_oob (s : State) (n : Nat) : (s.oob n).mem = s.mem := rfl
@[simp] theorem State.run_oob (s : State) (n : Nat) : (s.oob n).run = s.run := rfl
@[simp] theorem State.events_oob (s : State) (n : Nat) : (s.oob n).events = s.events ++ oobDiags s n := rfl
@[simp] theorem State.reg_oob (s : State) (n : Nat) (q : Reg) : (s.oob n).reg q = s.reg q := rfl
@[simp] theorem State.flagBits_oob (s : State) (n : Nat) : (s.oob n).flagBits = s.flagBits := rfl
@[simp] theorem State.pc_oob (s : State) (n : Nat) : (s.oob n).pc = s.pc := rfl
@[simp] theorem State.cell_oob (s : State) (n : Nat) (a : Int) : (s.oob n).cell a = s.cell a := rfl
@[simp] theorem State.inRange_oob (s : State) (n : Nat) (a : Int) : (s.oob n).inRange a = s.inRange a := rfl
@[simp] theorem State.outside_oob (s : State) (m : Nat) (a : Int) (n : Nat) : (s.oob m).outside a n = s.outside a n := rfl

@[simp] theorem State.outside_zero (s : State) (a : Int) : s.outside a 0 = 0 := rfl

theorem State.outside_succ (s : State) (a : Int) (n : Nat) :
    s.outside a (n + 1) = s.outside a 1 + s.outside (a + 1) n := by
  have hf : ((fun i : Nat => !s.inRange (a + i)) ∘ Nat.succ) = (fun i : Nat => !s.inRange (a + 1 + i)) := by
    funext i
    simp only [Function.comp]
    congr 2
    push_cast
    ring
  simp only [State.outside, List.range_succ_eq_map, List.countP_cons, List.countP_map, hf, List.range_zero,
    List.map_nil, List.countP_nil]
  omega

theorem State.outside_congr {s t : State} (h : t.params = s.params) (a : Int) (n : Nat) :
    t.outside a n = s.outside a n := by
  simp only [State.outside, State.inRange_congr h]

theorem State.outside_eq_zero {s : State} {a : Int} {n : Nat} (h : ∀ i < n, s.inRange (a + (i : Int)) = true) :
    s.outside a n = 0 := by
  simp only [State.outside, List.countP_eq_zero, List.mem_range]
  intro i hi
  simp [h i hi]

/-- `MemRead` changes nothing but the port: one diagnostic when the address is out of range. -/
theorem State.touch_eq (s : State) (a : Int) : s.touch a = s.oob (s.outside a 1) := by
  unfold State.touch
  split
  · next h => simp [State.outside, h]
  · next h => simp [State.outside, h, State.oob, oobDiags, State.diag, State.emit]

@[simp] theorem State.cell_touch (s : State) (a b : Int) : (s.touch a).cell b = s.cell b := by simp [State.touch_eq]

/-- All that `MemWrite` does. -/
theorem State.memWrite_eq (s : State) (a : Int) (v : Word) :
    (s.inRange a = true ∧ s.memWrite a v = { s with mem := Memory.write s.mem a.toNat v }) ∨
    (s.inRange a = false ∧ s.memWrite a v = s.diag .memOob) := by
  unfold State.memWrite
  cases h : s.inRange a
  · exact .inr ⟨rfl, rfl⟩
  · exact .inl ⟨rfl, rfl⟩

@[simp] theorem State.params_memWrite (s : State) (a : Int) (v : Word) : (s.memWrite a v).params = s.params := by
  rcases s.memWrite_eq a v with ⟨_, h⟩ | ⟨_, h⟩ <;> simp [h]

theorem State.wf_memWrite {s : State} (h : Memory.wf s.mem) (a : Int) (v : Word) : Memory.wf (s.memWrite a v).mem := by
  rcases s.memWrite_eq a v with ⟨_, e⟩ | ⟨_, e⟩ <;> rw [e]
  · exact Memory.wf_write h _ _
  · exact h

/-- What `MemRead` sees after `MemWrite`. -/
theorem State.cell_memWrite {s : State} (h : Memory.wf s.mem) (a b : Int) (v : Word) :
    (s.memWrite a v).cell b = if b = a ∧ s.inRange a = true then v else s.cell b := by
  rcases s.memWrite_eq a v with ⟨hr, e⟩ | ⟨hr, e⟩
  · rw [e]
    have ha := (State.inRange_iff s a).mp hr
    by_cases hb : s.inRange b = true
    · have hb' := (State.inRange_iff s b).mp hb
      have key : b.toNat = a.toNat ↔ b = a := by omega
      have hb2 : State.inRange { s with mem := Memory.write s.mem a.toNat v } b = true := hb
      simp only [State.cell, hb, hb2, if_true, Memory.read_write h, key, hr, and_true]
    · have : b ≠ a := fun e => hb (e ▸ hr)
      have hb2 : ¬ State.inRange { s with mem := Memory.write s.mem a.toNat v } b = true := hb
      simp [State.cell, hb, hb2, this]
  · rw [e]
    simp only [hr, Bool.false_eq_true, and_false, if_false]
    rfl

@[simp] theorem State.params_writeCells (s : State) (a : Int) (ws : List Word) :
    (s.writeCells a ws).params = s.params := by
  induction ws generalizing s a with
  | nil => rfl
  | cons w ws ih => simp [State.writeCells, ih]

theorem State.wf_writeCells {s : State} (h : Memory.wf s.mem) (a : Int) (ws : List Word) :
    Memory.wf (s.writeCells a ws).mem := by
  induction ws generalizing s a with
  | nil => exact h
  | cons w ws ih => exact ih (State.wf_memWrite h a w) (a + 1)

/-- A run of stores leaves every cell outside it alone. -/
theorem State.cell_writeCells_outside {s : State} (h : Memory.wf s.mem) (a b : Int) (ws : List Word)
    (hb : b < a ∨ a + ws.length ≤ b) : (s.writeCells a ws).cell b = s.cell b := by
  induction ws generalizing s a with
  | nil => rfl
  | cons w ws ih =>
    simp only [List.length_cons, Nat.cast_add, Nat.cast_one] at hb
    simp only [State.writeCells]
    rw [ih (State.wf_memWrite h a w) (a + 1) (by omega), State.cell_memWrite h]
    have : b ≠ a := by omega
    simp [this]

/-- A run of stores puts its `i`-th cell at offset `i`, where that is in range. -/
theorem State.cell_writeCells {s : State} (h : Memory.wf s.mem) (a : Int) (ws : List Word) (i : Nat)
    (hi : i < ws.length) (hr : s.inRange (a + i) = true) : (s.writeCells a ws).cell (a + i) = ws[i] := by
  induction ws generalizing s a i with
  | nil => simp at hi
  | cons w ws ih =>
    simp only [State.writeCells]
    cases i with
    | zero =>
      rw [State.cell_writeCells_outside (State.wf_memWrite h a w) _ _ _ (by simp), State.cell_memWrite h]
      simp only [Nat.cast_zero, add_zero] at hr ⊢
      simp [hr]
    | succ i =>
      have e : a + ((i + 1 : Nat) : Int) = a + 1 + (i : Int) := by push_cast; ring
      rw [e] at hr ⊢
      have := ih (s := s.memWrite a w) (State.wf_memWrite h a w) (a + 1) i (by simpa using hi)
        (by rw [State.inRange_congr (State.params_memWrite s a w)]; exact hr)
      simpa using this

theorem State.wf_copyCells {s : State} (h : Memory.wf s.mem) (p q : Int) (n : Nat) :
    Memory.wf (s.copyCells p q n).mem := by
  induction n generalizing s p q with
  | zero => exact h
  | succ n ih => exact ih (State.wf_memWrite (by simpa using h) _ _) _ _

@[simp] theorem State.params_copyCells (s : State) (p q : Int) (n : Nat) : (s.copyCells p q n).params = s.params := by
  induction n generalizing s p q with
  | zero => rfl
  | succ n ih => simp [State.copyCells, ih]

/-- A copy leaves every cell outside its destination alone. -/
theorem State.cell_copyCells_outside {s : State} (h : Memory.wf s.mem) (p q b : Int) (n : Nat)
    (hb : b < q ∨ q + n ≤ b) : (s.copyCells p q n).cell b = s.cell b := by
  induction n generalizing s p q with
  | zero => rfl
  | succ n ih =>
    push_cast at hb
    have h' : Memory.wf (s.touch p).mem := by simpa using h
    simp only [State.copyCells]
    rw [ih (State.wf_memWrite h' _ _) (p + 1) (q + 1) (by omega), State.cell_memWrite h']
    have : b ≠ q := by omega
    simp only [this, false_and, if_false]
    exact State.cell_congr (by simp) (by simp) b

/-- One iteration of a copy: the cell it stores. -/
theorem State.cell_copyStep {s : State} (h : Memory.wf s.mem) (p q b : Int) :
    ((s.touch p).memWrite q (s.cell p)).cell b = if b = q ∧ s.inRange q = true then s.cell p else s.cell b := by
  rw [State.cell_memWrite (by simpa using h), State.inRange_congr (State.params_touch s p), State.cell_touch]

theorem State.inRange_copyStep (s : State) (p q b : Int) :
    ((s.touch p).memWrite q (s.cell p)).inRange b = s.inRange b := State.inRange_congr (by simp) b

/-- A copy puts the old cells into its destination, when no destination cell is a later source cell. -/
theorem State.cell_copyCells_apart {s : State} (h : Memory.wf s.mem) (p q : Int) (n : Nat) (hd : q ≤ p ∨ p + n ≤ q)
    (i : Nat) (hi : i < n) (hr : s.inRange (q + i) = true) : (s.copyCells p q n).cell (q + i) = s.cell (p + i) := by
  induction n generalizing s p q i with
  | zero => omega
  | succ n ih =>
    have hw : Memory.wf ((s.touch p).memWrite q (s.cell p)).mem := State.wf_memWrite (by simpa using h) _ _
    simp only [State.copyCells]
    cases i with
    | zero =>
      simp only [Nat.cast_zero, add_zero] at hr ⊢
      rw [State.cell_copyCells_outside hw _ _ _ _ (by omega), State.cell_copyStep h]
      simp [hr]
    | succ i =>
      have e : ∀ z : Int, z + ((i + 1 : Nat) : Int) = z + 1 + (i : Int) := by intro z; push_cast; ring
      rw [e] at hr
      rw [e, e, ih hw (p + 1) (q + 1) (by push_cast at hd; omega) i (by omega)
        (by rw [State.inRange_copyStep]; exact hr), State.cell_copyStep h]
      have : p + 1 + (i : Int) ≠ q := by push_cast at hd; omega
      simp [this]

/-- A copy upwards leaves each destination cell equal to its source cell afterwards. -/
theorem State.cell_copyCells_upwards {s : State} (h : Memory.wf s.mem) (p q : Int) (n : Nat) (hd : p < q)
    (i : Nat) (hi : i < n) (hr : s.inRange (q + i) = true) :
    (s.copyCells p q n).cell (q + i) = (s.copyCells p q n).cell (p + i) := by
  induction n generalizing s p q i with
  | zero => omega
  | succ n ih =>
    have hw : Memory.wf ((s.touch p).memWrite q (s.cell p)).mem := State.wf_memWrite (by simpa using h) _ _
    simp only [State.copyCells]
    cases i with
    | zero =>
      simp only [Nat.cast_zero, add_zero] at hr ⊢
      rw [State.cell_copyCells_outside hw _ _ _ _ (by omega), State.cell_copyCells_outside hw _ _ _ _ (by omega),
        State.cell_copyStep h, State.cell_copyStep h]
      have : p ≠ q := by omega
      simp [hr, this]
    | succ i =>
      have e : ∀ z : Int, z + ((i + 1 : Nat) : Int) = z + 1 + (i : Int) := by intro z; push_cast; ring
      rw [e] at hr
      rw [e, e, ih hw (p + 1) (q + 1) (by omega) i (by omega) (by rw [State.inRange_copyStep]; exact hr)]

/-! ## What runs of stores change -/

/-- `MemWrite` changes the memory and, out of range, the port. -/
theorem State.memWrite_state (s : State) (a : Int) (v : Word) :
    ∃ m, s.memWrite a v = { s.oob (s.outside a 1) with mem := m } := by
  unfold State.memWrite
  split
  · next h => exact ⟨Memory.write s.mem a.toNat v, by simp only [State.outside, List.range_one, List.countP_singleton, Nat.cast_zero, add_zero, h,
      Bool.not_true, Bool.false_eq_true, if_false, State.oob_zero]⟩
  · next h => exact ⟨s.mem, by simp [State.outside, h, State.oob, oobDiags, State.diag, State.emit]⟩

/-- A run of stores changes the memory, and one diagnostic goes out for each address out of range. -/
theorem State.writeCells_state (s : State) (a : Int) (ws : List Word) :
    ∃ m, s.writeCells a ws = { s.oob (s.outside a ws.length) with mem := m } := by
  induction ws generalizing s a with
  | nil => exact ⟨s.mem, by simp [State.writeCells]⟩
  | cons w ws ih =>
    obtain ⟨m, e⟩ := ih (s.memWrite a w) (a + 1)
    obtain ⟨m', e'⟩ := s.memWrite_state a w
    refine ⟨m, ?_⟩
    simp only [State.writeCells, e, State.outside_congr (State.params_memWrite s a w), List.length_cons]
    rw [State.outside_succ, ← State.oob_oob, e']
    rfl

/-- A copy changes the memory, and one diagnostic goes out for each read and each store out of range. -/
theorem State.copyCells_state (s : State) (p q : Int) (n : Nat) :
    ∃ m, s.copyCells p q n = { s.oob (s.outside p n + s.outside q n) with mem := m } := by
  induction n generalizing s p q with
  | zero => exact ⟨s.mem, by simp [State.copyCells]⟩
  | succ n ih =>
    obtain ⟨m, e⟩ := ih ((s.touch p).memWrite q (s.cell p)) (p + 1) (q + 1)
    obtain ⟨m', e'⟩ := (s.touch p).memWrite_state q (s.cell p)
    have hp : ((s.touch p).memWrite q (s.cell p)).params = s.params := by simp
    refine ⟨m, ?_⟩
    simp only [State.copyCells, e, State.outside_congr hp]
    rw [e', State.touch_eq, State.outside_oob, State.oob_oob, State.outside_succ s p n, State.outside_succ s q n,
      show s.outside p 1 + s.outside (p + 1) n + (s.outside q 1 + s.outside (q + 1) n) =
        s.outside p 1 + s.outside q 1 + (s.outside (p + 1) n + s.outside (q + 1) n) by omega,
      ← State.oob_oob s (s.outside p 1 + s.outside q 1)]
    rfl

/-! ## The scans change nothing but the port -/

theorem ReadsOnly.refl (s : State) : ReadsOnly s s := ⟨0, by simp⟩

theorem ReadsOnly.trans {s t u : State} (h : ReadsOnly s t) (h' : ReadsOnly t u) : ReadsOnly s u := by
  obtain ⟨n, rfl⟩ := h
  obtain ⟨m, rfl⟩ := h'
  exact ⟨n + m, by simp⟩

/-- The loop of `cmpMem`: its answer, and what goes out on the port. -/
theorem State.compareCells_spec (s : State) (p q : Int) (n : Nat) :
    ∃ k, FirstDifference (fun i => s.cell (p + i)) (fun i => s.cell (q + i)) n k (s.compareCells p q n).1 ∧
      (s.compareCells p q n).2 = s.oob (s.outside p (min (k + 1) n) + s.outside q (min (k + 1) n)) := by
  induction n generalizing s p q with
  | zero => exact ⟨0, ⟨fun i hi => absurd hi (Nat.not_lt_zero i), .inl ⟨rfl, rfl⟩⟩, by simp [State.compareCells]⟩
  | succ n ih =>
    have e : ∀ (z : Int) (i : Nat), z + 1 + (i : Int) = z + ((i + 1 : Nat) : Int) := by intro z i; push_cast; ring
    simp only [State.compareCells]
    split
    · next h =>
      obtain ⟨k, ⟨h1, h2⟩, h3⟩ := ih ((s.touch p).touch q) (p + 1) (q + 1)
      simp only [State.cell_touch, e] at h1 h2
      refine ⟨k + 1, ⟨?_, ?_⟩, ?_⟩
      · intro i hi
        cases i with
        | zero => simpa using h
        | succ i => exact h1 i (by omega)
      · rcases h2 with ⟨rfl, h2⟩ | ⟨hk, h2⟩
        · exact .inl ⟨rfl, h2⟩
        · exact .inr ⟨by omega, h2⟩
      · rw [h3, State.touch_eq, State.touch_eq, show min (k + 1 + 1) (n + 1) = min (k + 1) n + 1 by omega,
          State.outside_succ s p (min (k + 1) n), State.outside_succ s q (min (k + 1) n)]
        simp only [State.outside_oob, State.oob_oob]
        congr 1
        omega
    · next h =>
      refine ⟨0, ⟨by simp, .inr ⟨by omega, by simpa using h, by simp [cellSign]⟩⟩, ?_⟩
      simp only [State.touch_eq, State.outside_oob, State.oob_oob, Nat.zero_add, show min 1 (n + 1) = 1 by omega]

/-- Within MEM_SIZE + 1 cells of any address there is one that reads 0 (45_memory_ops R316). -/
theorem State.null_within (s : State) (p : Int) : ∃ i < s.scanBound, s.cell (p + (i : Int)) = 0 := by
  by_contra hc
  push Not at hc
  have all : ∀ i < s.scanBound, s.inRange (p + (i : Int)) = true := by
    intro i hi
    by_contra h
    exact hc i hi (by simp [State.cell, h])
  have h0 := (State.inRange_iff s _).mp (all 0 (by simp [State.scanBound]))
  have h1 := (State.inRange_iff s _).mp (all s.params.memSize (by simp [State.scanBound]))
  omega

/-- `cstrcmp`, when a null cell of the first string is within its bound: its answer, and what goes out on the port. -/
theorem State.compareText_spec (s : State) (p q : Int) (n : Nat) (hn : ∃ i < n, s.cell (p + (i : Int)) = 0) :
    ∃ k, StringOrder (fun i => s.cell (p + i)) (fun i => s.cell (q + i)) k (s.compareText p q n).1 ∧
      (s.compareText p q n).2 = s.oob (s.outside p (k + 1) + s.outside q (k + 1)) := by
  induction n generalizing s p q with
  | zero => obtain ⟨i, hi, _⟩ := hn; omega
  | succ n ih =>
    have e : ∀ (z : Int) (i : Nat), z + 1 + (i : Int) = z + ((i + 1 : Nat) : Int) := by intro z i; push_cast; ring
    have two : (s.touch p).touch q = s.oob (s.outside p (0 + 1) + s.outside q (0 + 1)) := by
      simp only [State.touch_eq, State.outside_oob, State.oob_oob, Nat.zero_add]
    simp only [State.compareText]
    split
    · next h =>
      split
      · next h0 => exact ⟨0, ⟨by simp, .inl (by simp [← h, h0])⟩, two⟩
      · next h0 =>
        obtain ⟨k, ⟨h1, h2⟩, h3⟩ := ih ((s.touch p).touch q) (p + 1) (q + 1) (by
          obtain ⟨i, hi, hz⟩ := hn
          cases i with
          | zero => exact absurd (by simpa using hz) h0
          | succ i => exact ⟨i, by omega, by rw [State.cell_touch, State.cell_touch, e]; exact hz⟩)
        simp only [State.cell_touch, e] at h1 h2
        refine ⟨k + 1, ⟨?_, h2⟩, ?_⟩
        · intro i hi
          cases i with
          | zero => simpa [← h] using h0
          | succ i => exact h1 i (by omega)
        · rw [h3, two, State.outside_succ s p (k + 1), State.outside_succ s q (k + 1)]
          simp only [State.outside_oob, State.oob_oob, Nat.zero_add]
          congr 1
          omega
    · next h => exact ⟨0, ⟨by simp, .inr ⟨by simpa using h, by simp [cellSign]⟩⟩, two⟩

/-- The scan of `printStr`, when a null cell is within its bound: its answer, and what goes out on the port. -/
theorem State.scanText_spec (s : State) (a : Int) (n : Nat) (hn : ∃ i < n, s.cell (a + (i : Int)) = 0) :
    ∃ m : Nat, (∀ i < m, s.cell (a + (i : Int)) ≠ 0) ∧ s.cell (a + m) = 0 ∧
      s.scanText a n =
        ((List.range m).map (fun i : Nat => cellChar (s.cell (a + i))), s.oob (s.outside a (m + 1))) := by
  induction n generalizing s a with
  | zero => obtain ⟨i, hi, _⟩ := hn; omega
  | succ n ih =>
    have e : ∀ (z : Int) (i : Nat), z + 1 + (i : Int) = z + ((i + 1 : Nat) : Int) := by intro z i; push_cast; ring
    simp only [State.scanText]
    split
    · next h => exact ⟨0, by simp, by simpa using h, by simp [State.touch_eq]⟩
    · next h =>
      obtain ⟨m, h1, h2, h3⟩ := ih (s.touch a) (a + 1) (by
        obtain ⟨i, hi, hz⟩ := hn
        cases i with
        | zero => exact absurd (by simpa using hz) h
        | succ i => exact ⟨i, by omega, by rw [State.cell_touch, e]; exact hz⟩)
      simp only [State.cell_touch, e] at h1 h2 h3
      refine ⟨m + 1, ?_, h2, ?_⟩
      · intro i hi
        cases i with
        | zero => simpa using h
        | succ i => exact h1 i (by omega)
      · rw [h3, State.touch_eq, State.outside_succ s a (m + 1)]
        simp only [State.outside_oob, State.oob_oob, List.range_succ_eq_map, List.map_cons, List.map_map]
        simp

/-- The reads of `printMem`: their answer, and what goes out on the port. -/
theorem State.readCells_spec (s : State) (a : Int) (n : Nat) :
    s.readCells a n = ((List.range n).map (fun i : Nat => s.cell (a + i)), s.oob (s.outside a n)) := by
  induction n generalizing s a with
  | zero => simp [State.readCells]
  | succ n ih =>
    simp only [State.readCells, ih, State.touch_eq, State.cell_oob, State.outside_oob, State.oob_oob,
      State.outside_succ s a n, List.range_succ_eq_map, List.map_cons, List.map_map]
    simp
    intro i _
    congr 1
    ring

theorem State.compareCells_state (s : State) (p q : Int) (n : Nat) : ReadsOnly s (s.compareCells p q n).2 := by
  obtain ⟨k, _, h⟩ := s.compareCells_spec p q n
  exact ⟨_, h⟩

theorem State.compareText_state (s : State) (p q : Int) (n : Nat) : ReadsOnly s (s.compareText p q n).2 := by
  have two : ReadsOnly s ((s.touch p).touch q) := ⟨_, by rw [State.touch_eq, State.touch_eq, State.oob_oob]⟩
  induction n generalizing s p q with
  | zero => exact .refl s
  | succ n ih =>
    simp only [State.compareText]
    split
    · split
      · exact two
      · exact two.trans (ih _ _ _ ⟨_, by rw [State.touch_eq, State.touch_eq, State.oob_oob]⟩)
    · exact two

theorem State.scanText_state (s : State) (p : Int) (n : Nat) : ReadsOnly s (s.scanText p n).2 := by
  induction n generalizing s p with
  | zero => exact .refl s
  | succ n ih =>
    simp only [State.scanText]
    split
    · exact ⟨_, s.touch_eq p⟩
    · exact ReadsOnly.trans ⟨_, s.touch_eq p⟩ (ih _ _)

end Sys2Proof.Machine
end

