-- ==== Sys2Proof/Laws/Operations.lean ====
section
/-! SUPPORT. What the shared operations can do: flags, equality, jumps, arithmetic, host answers, the loop. -/

namespace Sys2Proof.Machine

/-! ## Flags -/

@[simp] theorem flagOf_zpnBits_zero (z p n : Bool) (b : FlagBits) : flagOf (zpnBits z p n b) .zero = z := by
  revert b; cases z <;> cases p <;> cases n <;> decide

@[simp] theorem flagOf_zpnBits_positive (z p n : Bool) (b : FlagBits) : flagOf (zpnBits z p n b) .positive = p := by
  revert b; cases z <;> cases p <;> cases n <;> decide

@[simp] theorem flagOf_zpnBits_negative (z p n : Bool) (b : FlagBits) : flagOf (zpnBits z p n b) .negative = n := by
  revert b; cases z <;> cases p <;> cases n <;> decide

/-- Bits 3 to 7 are kept. -/
theorem getLsbD_zpnBits (z p n : Bool) (b : FlagBits) (k : Nat) (h : 3 ≤ k) :
    (zpnBits z p n b).getLsbD k = b.getLsbD k := by
  rcases Nat.lt_or_ge k 8 with h8 | h8
  · revert b; interval_cases k <;> cases z <;> cases p <;> cases n <;> decide
  · rw [BitVec.getLsbD_of_ge _ _ h8, BitVec.getLsbD_of_ge _ _ h8]

/-- The flag law of 10_state R51. -/
theorem SignFlagsSet.signFlags (s t : State) (h : t.flagBits = s.flagBits) (v : Int) :
    SignFlagsSet s (t.signFlags v) v := by
  constructor
  all_goals simp only [State.signFlags, State.flagBits_setZPN, flagOf_zpnBits_zero, flagOf_zpnBits_positive,
    flagOf_zpnBits_negative, h]
  exact fun n hn => getLsbD_zpnBits _ _ _ _ n hn

/-! ## Equality, kind by kind -/

theorem eqv_integer (m n : Wide) : eqv (.integer m) (.integer n) = decide (m = n) := rfl

theorem eqv_text (t u : Text) : eqv (.text t) (.text u) = decide (t = u) := rfl

theorem eqv_boolean (b c : Bool) : eqv (.boolean b) (.boolean c) = decide (b = c) := rfl

theorem eqv_empty : eqv .empty .empty = true := rfl

/-! ## Frames -/

theorem MemoryKept.of_eq {s t : State} (hp : t.params = s.params) (hm : t.mem = s.mem) : MemoryKept s t :=
  fun a => State.cell_congr hp hm a

/-- What the arithmetic template does (42_arithmetic R220). -/
theorem State.arith_spec (d : Reg) (x : SrcAv) (s : State) (op : Word → Word → Word) :
    ∃ t, s.arith d x op = .next t ∧ (t.reg d).av = op (s.reg d).av (s.srcAv x) ∧
      SignFlagsSet s t (t.reg d).av.toInt ∧ FacetsKept s t [] [d] [] [.flags] ∧ OnlyRegisters s t := by
  refine ⟨_, rfl, by simp, by simpa using SignFlagsSet.signFlags s _ (by simp) _, ⟨?_, ?_, ?_, ?_⟩,
    ⟨⟨⟨rfl, rfl, rfl, rfl⟩, rfl, rfl, rfl⟩, .of_eq rfl rfl, rfl⟩⟩
  all_goals intro q hq; simp_all

theorem State.arithNonzero_zero {s : State} {x : SrcAv} (h : s.srcAv x = 0) (d : Reg) (op : Word → Word → Word) :
    s.arithNonzero d x op = s.skip .divZero := if_pos h

theorem State.arithNonzero_of_ne {s : State} {x : SrcAv} (h : s.srcAv x ≠ 0) (d : Reg) (op : Word → Word → Word) :
    s.arithNonzero d x op = s.arith d x op := if_neg h

/-! ## Skips and labels -/

theorem State.skip_eq (s : State) (code : DiagCode) :
    s.skip code = .next { s with events := s.events ++ [.diagnostic code s.pc] } := rfl

theorem State.withLabel_known {s : State} {l : Text} {n : Nat} (h : s.labelIndex l = some n) (k : Nat → Result) :
    s.withLabel l k = k n := by simp only [State.withLabel, h]

theorem State.withLabel_unknown {s : State} {l : Text} (h : s.labelIndex l = none) (k : Nat → Result) :
    s.withLabel l k = s.skip .unknownLabel := by simp only [State.withLabel, h]

/-- What the jump template does with a known label (44_control_flow R270). -/
theorem State.jumpIf_known {s : State} {l : Text} {n : Nat} (h : s.labelIndex l = some n) (c : Bool) :
    s.jumpIf l c = .next (if c = true then s.redirect n else s) := by
  simp only [State.jumpIf, State.withLabel_known h]
  cases c <;> rfl

/-- The last declaration of a name is the one looked up (30_encoding R128). -/
theorem lookupLabel_setLabel (table : List (Text × Nat)) (n m : Text) (k : Nat) :
    lookupLabel (setLabel table n k) m = if m = n then some k else lookupLabel table m := by
  simp only [lookupLabel, setLabel, List.find?_append]
  by_cases h : m = n
  · subst h
    have : List.find? (fun e : Text × Nat => e.1 == m) (table.filter (fun e => e.1 != m)) = none := by
      rw [List.find?_eq_none]
      intro e he
      simp at he ⊢
      exact he.2
    simp [this]
  · have h2 : List.find? (fun e : Text × Nat => e.1 == m) [(n, k)] = none := by simp [Ne.symm h]
    have h3 : List.find? (fun e : Text × Nat => e.1 == m) (table.filter (fun e => e.1 != n)) =
        List.find? (fun e => e.1 == m) table := by
      rw [List.find?_filter]
      congr 1
      funext e
      by_cases he : e.1 = m
      · simp [he, h]
      · simp [he]
    simp only [h2, h3, if_neg h, Option.or_none]

/-! ## Host answers -/

/-- What a line request does: the next queued answer is taken, every other queue stays (60_exceptions R421). -/
theorem State.askLine_spec (s : State) : (∀ y ∈ s.answers.lines.head?, s.askLine.1 = y) ∧
    s.askLine.2 = (s.emit .readLine).answered { s.answers with lines := s.answers.lines.tail } := by
  unfold State.askLine
  split
  · next h => simp [h]
  · next h =>
    refine ⟨by simp [h], ?_⟩
    rw [show s.answers.lines.tail = s.answers.lines by rw [h]; rfl]

/-- What a key request does. -/
theorem State.askKey_spec (s : State) : (∀ y ∈ s.answers.keys.head?, s.askKey.1 = y) ∧
    s.askKey.2 = (s.emit .readKey).answered { s.answers with keys := s.answers.keys.tail } := by
  unfold State.askKey
  split
  · next h => simp [h]
  · next h =>
    refine ⟨by simp [h], ?_⟩
    rw [show s.answers.keys.tail = s.answers.keys by rw [h]; rfl]

/-- What an OS query does. -/
theorem State.askOs_spec (s : State) : (∀ y ∈ s.answers.osTexts.head?, s.askOs.1 = y) ∧
    s.askOs.2 = (s.emit .osQuery).answered { s.answers with osTexts := s.answers.osTexts.tail } := by
  unfold State.askOs
  split
  · next h => simp [h]
  · next h =>
    refine ⟨by simp [h], ?_⟩
    rw [show s.answers.osTexts.tail = s.answers.osTexts by rw [h]; rfl]

/-- `wrap32` keeps a value of int32. -/
theorem toInt_wrap32 {v : Int} (h1 : -(2 ^ 31) ≤ v) (h2 : v < 2 ^ 31) : (wrap32 v).toInt = v := by
  simp only [wrap32, BitVec.toInt_ofInt, Int.bmod_def]
  split <;> omega

/-- What a Random request with lo < hi does: a draw in [lo, hi), the queued one if there is one. -/
theorem State.askRandom_spec {s : State} {lo hi v : Word} {t : State} (hlt : lo.toInt < hi.toInt)
    (h : s.askRandom lo hi = some (v, t)) :
    lo.toInt ≤ v.toInt ∧ v.toInt < hi.toInt ∧ (∀ y ∈ s.answers.draws.head?, v = y) ∧
      t = (s.emit (.random lo hi)).answered { s.answers with draws := s.answers.draws.tail } := by
  unfold State.askRandom at h
  split at h
  · next w rest hw =>
    split at h
    · next hok =>
      cases h
      simp only [drawOk, Bool.and_eq_true, decide_eq_true_eq] at hok
      exact ⟨hok.1, hok.2, by simp [hw], by simp [hw]⟩
    · cases h
  · next hw =>
    cases h
    have hpos : 0 < (hi.toInt - lo.toInt).toNat := by omega
    have hk := Nat.mod_lt (Config.randomAnswer s.answers.asked) hpos
    generalize Config.randomAnswer s.answers.asked % (hi.toInt - lo.toInt).toNat = k at hk ⊢
    have h1 := BitVec.le_toInt lo
    have h2 := BitVec.toInt_lt (x := hi)
    have e := toInt_wrap32 (v := lo.toInt + (k : Int)) (by omega) (by omega)
    refine ⟨by omega, by omega, by simp [hw], ?_⟩
    rw [show s.answers.draws.tail = s.answers.draws by rw [hw]; rfl]

/-! ## The loop -/

/-- While RUN is Running and pc names a line, a step is `runLine` of that line. -/
theorem step_of_line {s : State} {line : Text} (h : s.run = .running) (h0 : 0 ≤ s.pc.toInt)
    (hl : s.irom[s.pc.toNat]? = some line) : step s = s.runLine line := by
  simp only [step, State.stepOnce, h, State.runStep]
  rw [if_neg (by omega)]
  simp only [State.fetch, hl]

theorem State.finish_running {s : State} (h : s.run = .running) : s.finish = s.advance := by
  simp only [State.finish, h]

theorem State.finish_stopped {s : State} (h : s.run ≠ .running) : s.finish = s := by
  simp only [State.finish]
  cases hr : s.run <;> simp_all

/-! ## Register numbers and the toolchain's diagnostics -/

theorem Reg.ofId_of_ge {n : Nat} (h : 25 ≤ n) : Reg.ofId n = none := by
  rw [Reg.ofId, List.getElem?_eq_none_iff]
  exact h

theorem State.foldl_toolDiag (ds : List DiagCode) (s : State) :
    ds.foldl State.toolDiag s = { s with events := s.events ++ ds.map (fun c => .diagnostic c (wrap32 (-1))) } := by
  induction ds generalizing s with
  | nil => simp
  | cons d ds ih => simp [ih, State.toolDiag, State.emit]

end Sys2Proof.Machine
end

