-- ==== Sys2Proof/Laws/PerInstr.lean ====
section
/-! SUPPORT. The family `RowReads`: for every instruction, its row of the opcode map reads the encoder's tokens back. -/

namespace Sys2Proof.Laws

/-- A well-formed instruction is read back from its line: either its row of the opcode map, found by its mnemonic, reads
the tokens the encoder writes, each of which a line can spell; or, for a line class, the decoder does. -/
def RowReads.Statement (i : Instr) : Prop :=
  i.wellFormed = true →
    decode (encode i) = .instr i ∨
    ∃ row args, rowOfMnemonic row.mnemonic = some row ∧ encode i = encodeLine row.mnemonic args ∧
      (∀ t ∈ args, tokenOk t = true) ∧ row.read args = .ok i

/-- The shape of a proof for an instruction of the opcode map. -/
theorem rowReads_of_row {i : Instr} (row : OpRow) (args : List Text) (hrow : rowOfMnemonic row.mnemonic = some row)
    (henc : encode i = encodeLine row.mnemonic args) (htok : ∀ t ∈ args, tokenOk t = true)
    (hread : row.read args = .ok i) : RowReads.Statement i :=
  fun _ => .inr ⟨row, args, hrow, henc, htok, hread⟩

theorem RowReads.set (r : Reg) (ts : List Text) : RowReads.Statement (.set r ts) := by
  intro h
  simp only [Instr.wellFormed, textsOk, Bool.and_eq_true, decide_eq_true_eq, List.all_eq_true] at h
  obtain ⟨hlen, hok⟩ := h
  cases ts with
  | nil => simp at hlen
  | cons t ts =>
    exact .inr ⟨⟨0x01, chars ['s', 'e', 't'], [.reg, .text], argsRegTexts Instr.set⟩, r.name :: t :: ts, rfl, rfl,
      (by simpa [tokenOk_regName] using hok),
      (by simp [argsRegTexts, Bind.bind, Except.bind, Pure.pure, Except.pure])⟩

theorem RowReads.setAV (r : Reg) (x : SrcAv) : RowReads.Statement (.setAV r x) :=
  rowReads_of_row ⟨0x02, chars ['s', 'e', 't', 'A', 'V'], [.reg, .srcAv], argsRegSrc Instr.setAV⟩ [r.name, x.token] rfl rfl (by simp [tokenOk_regName, tokenOk_srcAv])
    (by simp [argsRegSrc, Bind.bind, Except.bind, Pure.pure, Except.pure])

theorem RowReads.setLV (r : Reg) (x : SrcLv) : RowReads.Statement (.setLV r x) :=
  rowReads_of_row ⟨0x03, chars ['s', 'e', 't', 'L', 'V'], [.reg, .srcLv], argsRegSrcLv Instr.setLV⟩ [r.name, x.token] rfl rfl (by simp [tokenOk_regName, tokenOk_srcLv])
    (by simp [argsRegSrcLv, Bind.bind, Except.bind, Pure.pure, Except.pure])

theorem RowReads.mov (d : Reg) (s : Reg) : RowReads.Statement (.mov d s) :=
  rowReads_of_row ⟨0x04, chars ['m', 'o', 'v'], [.reg, .reg], argsRegReg Instr.mov⟩ [d.name, s.name] rfl rfl (by simp [tokenOk_regName])
    (by simp [argsRegReg, Bind.bind, Except.bind, Pure.pure, Except.pure])

theorem RowReads.movv (d : Reg) (s : Reg) : RowReads.Statement (.movv d s) :=
  rowReads_of_row ⟨0x05, chars ['m', 'o', 'v', 'v'], [.reg, .reg], argsRegReg Instr.movv⟩ [d.name, s.name] rfl rfl (by simp [tokenOk_regName])
    (by simp [argsRegReg, Bind.bind, Except.bind, Pure.pure, Except.pure])

theorem RowReads.add (d : Reg) (x : SrcAv) : RowReads.Statement (.add d x) :=
  rowReads_of_row ⟨0x10, chars ['a', 'd', 'd'], [.reg, .srcAv], argsRegSrc Instr.add⟩ [d.name, x.token] rfl rfl (by simp [tokenOk_regName, tokenOk_srcAv])
    (by simp [argsRegSrc, Bind.bind, Except.bind, Pure.pure, Except.pure])

theorem RowReads.sub (d : Reg) (x : SrcAv) : RowReads.Statement (.sub d x) :=
  rowReads_of_row ⟨0x11, chars ['s', 'u', 'b'], [.reg, .srcAv], argsRegSrc Instr.sub⟩ [d.name, x.token] rfl rfl (by simp [tokenOk_regName, tokenOk_srcAv])
    (by simp [argsRegSrc, Bind.bind, Except.bind, Pure.pure, Except.pure])

theorem RowReads.mul (d : Reg) (x : SrcAv) : RowReads.Statement (.mul d x) :=
  rowReads_of_row ⟨0x12, chars ['m', 'u', 'l'], [.reg, .srcAv], argsRegSrc Instr.mul⟩ [d.name, x.token] rfl rfl (by simp [tokenOk_regName, tokenOk_srcAv])
    (by simp [argsRegSrc, Bind.bind, Except.bind, Pure.pure, Except.pure])

theorem RowReads.div (d : Reg) (x : SrcAv) : RowReads.Statement (.div d x) :=
  rowReads_of_row ⟨0x13, chars ['d', 'i', 'v'], [.reg, .srcAv], argsRegSrc Instr.div⟩ [d.name, x.token] rfl rfl (by simp [tokenOk_regName, tokenOk_srcAv])
    (by simp [argsRegSrc, Bind.bind, Except.bind, Pure.pure, Except.pure])

theorem RowReads.mod (d : Reg) (x : SrcAv) : RowReads.Statement (.mod d x) :=
  rowReads_of_row ⟨0x14, chars ['m', 'o', 'd'], [.reg, .srcAv], argsRegSrc Instr.mod⟩ [d.name, x.token] rfl rfl (by simp [tokenOk_regName, tokenOk_srcAv])
    (by simp [argsRegSrc, Bind.bind, Except.bind, Pure.pure, Except.pure])

theorem RowReads.shl (d : Reg) (x : SrcAv) : RowReads.Statement (.shl d x) :=
  rowReads_of_row ⟨0x15, chars ['s', 'h', 'l'], [.reg, .srcAv], argsRegSrc Instr.shl⟩ [d.name, x.token] rfl rfl (by simp [tokenOk_regName, tokenOk_srcAv])
    (by simp [argsRegSrc, Bind.bind, Except.bind, Pure.pure, Except.pure])

theorem RowReads.shr (d : Reg) (x : SrcAv) : RowReads.Statement (.shr d x) :=
  rowReads_of_row ⟨0x16, chars ['s', 'h', 'r'], [.reg, .srcAv], argsRegSrc Instr.shr⟩ [d.name, x.token] rfl rfl (by simp [tokenOk_regName, tokenOk_srcAv])
    (by simp [argsRegSrc, Bind.bind, Except.bind, Pure.pure, Except.pure])

theorem RowReads.and (d : Reg) (x : SrcAv) : RowReads.Statement (.and d x) :=
  rowReads_of_row ⟨0x17, chars ['a', 'n', 'd'], [.reg, .srcAv], argsRegSrc Instr.and⟩ [d.name, x.token] rfl rfl (by simp [tokenOk_regName, tokenOk_srcAv])
    (by simp [argsRegSrc, Bind.bind, Except.bind, Pure.pure, Except.pure])

theorem RowReads.or (d : Reg) (x : SrcAv) : RowReads.Statement (.or d x) :=
  rowReads_of_row ⟨0x18, chars ['o', 'r'], [.reg, .srcAv], argsRegSrc Instr.or⟩ [d.name, x.token] rfl rfl (by simp [tokenOk_regName, tokenOk_srcAv])
    (by simp [argsRegSrc, Bind.bind, Except.bind, Pure.pure, Except.pure])

theorem RowReads.xor (d : Reg) (x : SrcAv) : RowReads.Statement (.xor d x) :=
  rowReads_of_row ⟨0x19, chars ['x', 'o', 'r'], [.reg, .srcAv], argsRegSrc Instr.xor⟩ [d.name, x.token] rfl rfl (by simp [tokenOk_regName, tokenOk_srcAv])
    (by simp [argsRegSrc, Bind.bind, Except.bind, Pure.pure, Except.pure])

theorem RowReads.not (d : Reg) : RowReads.Statement (.not d) :=
  rowReads_of_row ⟨0x1A, chars ['n', 'o', 't'], [.reg], argsReg Instr.not⟩ [d.name] rfl rfl (by simp [tokenOk_regName])
    (by simp [argsReg, Bind.bind, Except.bind, Pure.pure, Except.pure])

theorem RowReads.cmp (d : Reg) (x : SrcAv) : RowReads.Statement (.cmp d x) :=
  rowReads_of_row ⟨0x20, chars ['c', 'm', 'p'], [.reg, .srcAv], argsRegSrc Instr.cmp⟩ [d.name, x.token] rfl rfl (by simp [tokenOk_regName, tokenOk_srcAv])
    (by simp [argsRegSrc, Bind.bind, Except.bind, Pure.pure, Except.pure])

theorem RowReads.cmpv (t1 : GArg) (t2 : GArg) : RowReads.Statement (.cmpv t1 t2) := by
  intro h
  simp only [Instr.wellFormed, Bool.and_eq_true] at h
  exact .inr ⟨⟨0x21, chars ['c', 'm', 'p', 'v'], [.gval, .gval], argsGvalGval Instr.cmpv⟩, [t1.token, t2.token], rfl, rfl, (by simp [tokenOk_gArg h.1, tokenOk_gArg h.2]),
    (by simp [argsGvalGval, gArgOperand_token h.1, gArgOperand_token h.2])⟩

theorem RowReads.setflag (f : Flag) : RowReads.Statement (.setflag f) :=
  rowReads_of_row ⟨0x22, chars ['s', 'e', 't', 'f', 'l', 'a', 'g'], [.flag], argsFlag Instr.setflag⟩ [f.name] rfl rfl (by simp [tokenOk_flagName])
    (by simp [argsFlag, Bind.bind, Except.bind, Pure.pure, Except.pure])

theorem RowReads.clearflag (f : Flag) : RowReads.Statement (.clearflag f) :=
  rowReads_of_row ⟨0x23, chars ['c', 'l', 'e', 'a', 'r', 'f', 'l', 'a', 'g'], [.flag], argsFlag Instr.clearflag⟩ [f.name] rfl rfl (by simp [tokenOk_flagName])
    (by simp [argsFlag, Bind.bind, Except.bind, Pure.pure, Except.pure])

theorem RowReads.jmp (l : Text) : RowReads.Statement (.jmp l) := fun h =>
  .inr ⟨⟨0x30, chars ['j', 'm', 'p'], [.label], argsLabel Instr.jmp⟩, [l], rfl, rfl, (by simpa [Instr.wellFormed] using h), rfl⟩

theorem RowReads.jz (l : Text) : RowReads.Statement (.jz l) := fun h =>
  .inr ⟨⟨0x31, chars ['j', 'z'], [.label], argsLabel Instr.jz⟩, [l], rfl, rfl, (by simpa [Instr.wellFormed] using h), rfl⟩

theorem RowReads.jnz (l : Text) : RowReads.Statement (.jnz l) := fun h =>
  .inr ⟨⟨0x32, chars ['j', 'n', 'z'], [.label], argsLabel Instr.jnz⟩, [l], rfl, rfl, (by simpa [Instr.wellFormed] using h), rfl⟩

theorem RowReads.jn (l : Text) : RowReads.Statement (.jn l) := fun h =>
  .inr ⟨⟨0x33, chars ['j', 'n'], [.label], argsLabel Instr.jn⟩, [l], rfl, rfl, (by simpa [Instr.wellFormed] using h), rfl⟩

theorem RowReads.jnn (l : Text) : RowReads.Statement (.jnn l) := fun h =>
  .inr ⟨⟨0x34, chars ['j', 'n', 'n'], [.label], argsLabel Instr.jnn⟩, [l], rfl, rfl, (by simpa [Instr.wellFormed] using h), rfl⟩

theorem RowReads.jp (l : Text) : RowReads.Statement (.jp l) := fun h =>
  .inr ⟨⟨0x35, chars ['j', 'p'], [.label], argsLabel Instr.jp⟩, [l], rfl, rfl, (by simpa [Instr.wellFormed] using h), rfl⟩

theorem RowReads.jnp (l : Text) : RowReads.Statement (.jnp l) := fun h =>
  .inr ⟨⟨0x36, chars ['j', 'n', 'p'], [.label], argsLabel Instr.jnp⟩, [l], rfl, rfl, (by simpa [Instr.wellFormed] using h), rfl⟩

theorem RowReads.jf (l : Text) : RowReads.Statement (.jf l) := fun h =>
  .inr ⟨⟨0x37, chars ['j', 'f'], [.label], argsLabel Instr.jf⟩, [l], rfl, rfl, (by simpa [Instr.wellFormed] using h), rfl⟩

theorem RowReads.jnf (l : Text) : RowReads.Statement (.jnf l) := fun h =>
  .inr ⟨⟨0x38, chars ['j', 'n', 'f'], [.label], argsLabel Instr.jnf⟩, [l], rfl, rfl, (by simpa [Instr.wellFormed] using h), rfl⟩

theorem RowReads.jo (l : Text) : RowReads.Statement (.jo l) := fun h =>
  .inr ⟨⟨0x39, chars ['j', 'o'], [.label], argsLabel Instr.jo⟩, [l], rfl, rfl, (by simpa [Instr.wellFormed] using h), rfl⟩

theorem RowReads.jno (l : Text) : RowReads.Statement (.jno l) := fun h =>
  .inr ⟨⟨0x3A, chars ['j', 'n', 'o'], [.label], argsLabel Instr.jno⟩, [l], rfl, rfl, (by simpa [Instr.wellFormed] using h), rfl⟩

theorem RowReads.call (l : Text) : RowReads.Statement (.call l) := fun h =>
  .inr ⟨⟨0x3B, chars ['c', 'a', 'l', 'l'], [.label], argsLabel Instr.call⟩, [l], rfl, rfl, (by simpa [Instr.wellFormed] using h), rfl⟩

theorem RowReads.ret : RowReads.Statement (.ret) :=
  rowReads_of_row ⟨0x3C, chars ['r', 'e', 't'], [], argsNone Instr.ret⟩ [] rfl rfl (by simp) rfl

theorem RowReads.loop (l : Text) : RowReads.Statement (.loop l) := fun h =>
  .inr ⟨⟨0x3D, chars ['l', 'o', 'o', 'p'], [.label], argsLabel Instr.loop⟩, [l], rfl, rfl, (by simpa [Instr.wellFormed] using h), rfl⟩

theorem RowReads.exit (n : Option SrcAv) : RowReads.Statement (.exit n) := by
  cases n with
  | none => exact rowReads_of_row ⟨0x3E, chars ['e', 'x', 'i', 't'], [], argsSrcOpt Instr.exit⟩ [] rfl rfl (by simp) rfl
  | some x =>
    exact rowReads_of_row ⟨0x3E, chars ['e', 'x', 'i', 't'], [], argsSrcOpt Instr.exit⟩ [x.token] rfl rfl (by simp [tokenOk_srcAv])
      (by simp [argsSrcOpt, Bind.bind, Except.bind, Pure.pure, Except.pure])

theorem RowReads.push (x : SrcAv) : RowReads.Statement (.push x) :=
  rowReads_of_row ⟨0x40, chars ['p', 'u', 's', 'h'], [.srcAv], argsSrc Instr.push⟩ [x.token] rfl rfl (by simp [tokenOk_srcAv])
    (by simp [argsSrc, Bind.bind, Except.bind, Pure.pure, Except.pure])

theorem RowReads.pop (r : Reg) : RowReads.Statement (.pop r) :=
  rowReads_of_row ⟨0x41, chars ['p', 'o', 'p'], [.reg], argsReg Instr.pop⟩ [r.name] rfl rfl (by simp [tokenOk_regName])
    (by simp [argsReg, Bind.bind, Except.bind, Pure.pure, Except.pure])

theorem RowReads.readMem (a : Addr) (r : Option Reg) : RowReads.Statement (.readMem a r) := by
  cases r with
  | none =>
    exact rowReads_of_row ⟨0x50, chars ['r', 'e', 'a', 'd', 'M', 'e', 'm'], [.addr], argsAddrRegOpt Instr.readMem⟩ [a.token] rfl rfl (by simp [tokenOk_addr])
      (by simp [argsAddrRegOpt, Bind.bind, Except.bind, Pure.pure, Except.pure])
  | some r =>
    exact rowReads_of_row ⟨0x50, chars ['r', 'e', 'a', 'd', 'M', 'e', 'm'], [.addr], argsAddrRegOpt Instr.readMem⟩ [a.token, r.name] rfl rfl (by simp [tokenOk_addr, tokenOk_regName])
      (by simp [argsAddrRegOpt, Bind.bind, Except.bind, Pure.pure, Except.pure])

theorem RowReads.writeRawMem (a : Addr) (v : SrcAv) : RowReads.Statement (.writeRawMem a v) :=
  rowReads_of_row ⟨0x51, chars ['w', 'r', 'i', 't', 'e', 'R', 'a', 'w', 'M', 'e', 'm'], [.addr, .srcAv], argsAddrSrc Instr.writeRawMem⟩ [a.token, v.token] rfl rfl (by simp [tokenOk_addr, tokenOk_srcAv])
    (by simp [argsAddrSrc, Bind.bind, Except.bind, Pure.pure, Except.pure])

theorem RowReads.writeMem (a : Addr) (ts : List Text) : RowReads.Statement (.writeMem a ts) := by
  intro h
  simp only [Instr.wellFormed, textsOk, Bool.and_eq_true, decide_eq_true_eq, List.all_eq_true] at h
  obtain ⟨hlen, hok⟩ := h
  cases ts with
  | nil => simp at hlen
  | cons t ts =>
    exact .inr ⟨⟨0x52, chars ['w', 'r', 'i', 't', 'e', 'M', 'e', 'm'], [.addr, .text], argsAddrTexts Instr.writeMem⟩, a.token :: t :: ts, rfl, rfl,
      (by simpa [tokenOk_addr] using hok),
      (by simp [argsAddrTexts, Bind.bind, Except.bind, Pure.pure, Except.pure])⟩

theorem RowReads.fillMem (a : Addr) (n : SrcAv) (v : SrcAv) : RowReads.Statement (.fillMem a n v) :=
  rowReads_of_row ⟨0x53, chars ['f', 'i', 'l', 'l', 'M', 'e', 'm'], [.addr, .srcAv, .srcAv], argsAddrSrcSrc Instr.fillMem⟩ [a.token, n.token, v.token] rfl rfl (by simp [tokenOk_addr, tokenOk_srcAv])
    (by simp [argsAddrSrcSrc, Bind.bind, Except.bind, Pure.pure, Except.pure])

theorem RowReads.copyMem (src : Addr) (dst : Addr) (n : SrcAv) : RowReads.Statement (.copyMem src dst n) :=
  rowReads_of_row ⟨0x54, chars ['c', 'o', 'p', 'y', 'M', 'e', 'm'], [.addr, .addr, .srcAv], argsAddrAddrSrc Instr.copyMem⟩ [src.token, dst.token, n.token] rfl rfl (by simp [tokenOk_addr, tokenOk_srcAv])
    (by simp [argsAddrAddrSrc, Bind.bind, Except.bind, Pure.pure, Except.pure])

theorem RowReads.cmpMem (a : Addr) (b : Addr) (n : SrcAv) : RowReads.Statement (.cmpMem a b n) :=
  rowReads_of_row ⟨0x55, chars ['c', 'm', 'p', 'M', 'e', 'm'], [.addr, .addr, .srcAv], argsAddrAddrSrc Instr.cmpMem⟩ [a.token, b.token, n.token] rfl rfl (by simp [tokenOk_addr, tokenOk_srcAv])
    (by simp [argsAddrAddrSrc, Bind.bind, Except.bind, Pure.pure, Except.pure])

theorem RowReads.cmpStr (a : Addr) (b : StrAddr) : RowReads.Statement (.cmpStr a b) := by
  intro h
  simp only [Instr.wellFormed] at h
  exact .inr ⟨⟨0x56, chars ['c', 'm', 'p', 'S', 't', 'r'], [.addr, .strAddr], argsAddrStr Instr.cmpStr⟩, [a.token, b.token], rfl, rfl, (by simp [tokenOk_addr, tokenOk_strAddr h]),
    (by simp [argsAddrStr, strAddrOperand_token h, Bind.bind, Except.bind, Pure.pure, Except.pure])⟩

theorem RowReads.printMem (a : Addr) (n : SrcAv) : RowReads.Statement (.printMem a n) :=
  rowReads_of_row ⟨0x57, chars ['p', 'r', 'i', 'n', 't', 'M', 'e', 'm'], [.addr, .srcAv], argsAddrSrc Instr.printMem⟩ [a.token, n.token] rfl rfl (by simp [tokenOk_addr, tokenOk_srcAv])
    (by simp [argsAddrSrc, Bind.bind, Except.bind, Pure.pure, Except.pure])

theorem RowReads.printStr (a : Addr) : RowReads.Statement (.printStr a) :=
  rowReads_of_row ⟨0x58, chars ['p', 'r', 'i', 'n', 't', 'S', 't', 'r'], [.addr], argsAddr Instr.printStr⟩ [a.token] rfl rfl (by simp [tokenOk_addr])
    (by simp [argsAddr, Bind.bind, Except.bind, Pure.pure, Except.pure])

theorem RowReads.read (r : Reg) : RowReads.Statement (.read r) :=
  rowReads_of_row ⟨0x60, chars ['r', 'e', 'a', 'd'], [.reg], argsReg Instr.read⟩ [r.name] rfl rfl (by simp [tokenOk_regName])
    (by simp [argsReg, Bind.bind, Except.bind, Pure.pure, Except.pure])

theorem RowReads.readKey (r : Reg) : RowReads.Statement (.readKey r) :=
  rowReads_of_row ⟨0x61, chars ['r', 'e', 'a', 'd', 'K', 'e', 'y'], [.reg], argsReg Instr.readKey⟩ [r.name] rfl rfl (by simp [tokenOk_regName])
    (by simp [argsReg, Bind.bind, Except.bind, Pure.pure, Except.pure])

theorem RowReads.write (ts : List Text) : RowReads.Statement (.write ts) := by
  intro h
  simp only [Instr.wellFormed, textsOk, Bool.and_eq_true, decide_eq_true_eq, List.all_eq_true] at h
  exact .inr ⟨⟨0x62, chars ['w', 'r', 'i', 't', 'e'], [], argsTexts Instr.write⟩, ts, rfl, rfl, h.2, rfl⟩

theorem RowReads.writeln (ts : List Text) : RowReads.Statement (.writeln ts) := by
  intro h
  simp only [Instr.wellFormed, textsOk, Bool.and_eq_true, decide_eq_true_eq, List.all_eq_true] at h
  exact .inr ⟨⟨0x63, chars ['w', 'r', 'i', 't', 'e', 'l', 'n'], [], argsTexts Instr.writeln⟩, ts, rfl, rfl, h.2, rfl⟩

theorem RowReads.writeAV (r : Reg) : RowReads.Statement (.writeAV r) :=
  rowReads_of_row ⟨0x64, chars ['w', 'r', 'i', 't', 'e', 'A', 'V'], [.reg], argsReg Instr.writeAV⟩ [r.name] rfl rfl (by simp [tokenOk_regName])
    (by simp [argsReg, Bind.bind, Except.bind, Pure.pure, Except.pure])

theorem RowReads.writeLV (r : Reg) : RowReads.Statement (.writeLV r) :=
  rowReads_of_row ⟨0x65, chars ['w', 'r', 'i', 't', 'e', 'L', 'V'], [.reg], argsReg Instr.writeLV⟩ [r.name] rfl rfl (by simp [tokenOk_regName])
    (by simp [argsReg, Bind.bind, Except.bind, Pure.pure, Except.pure])

theorem RowReads.writeFV (r : Reg) : RowReads.Statement (.writeFV r) :=
  rowReads_of_row ⟨0x66, chars ['w', 'r', 'i', 't', 'e', 'F', 'V'], [.reg], argsReg Instr.writeFV⟩ [r.name] rfl rfl (by simp [tokenOk_regName])
    (by simp [argsReg, Bind.bind, Except.bind, Pure.pure, Except.pure])

theorem RowReads.writeVal (r : Reg) : RowReads.Statement (.writeVal r) :=
  rowReads_of_row ⟨0x67, chars ['w', 'r', 'i', 't', 'e', 'V', 'a', 'l'], [.reg], argsReg Instr.writeVal⟩ [r.name] rfl rfl (by simp [tokenOk_regName])
    (by simp [argsReg, Bind.bind, Except.bind, Pure.pure, Except.pure])

theorem RowReads.dump : RowReads.Statement (.dump) :=
  rowReads_of_row ⟨0x68, chars ['d', 'u', 'm', 'p'], [], argsNone Instr.dump⟩ [] rfl rfl (by simp) rfl

theorem RowReads.sleep (ms : SrcAv) : RowReads.Statement (.sleep ms) :=
  rowReads_of_row ⟨0x69, chars ['s', 'l', 'e', 'e', 'p'], [.srcAv], argsSrc Instr.sleep⟩ [ms.token] rfl rfl (by simp [tokenOk_srcAv])
    (by simp [argsSrc, Bind.bind, Except.bind, Pure.pure, Except.pure])

theorem RowReads.rand (r : Reg) (lo : SrcAv) (hi : SrcAv) : RowReads.Statement (.rand r lo hi) :=
  rowReads_of_row ⟨0x6A, chars ['r', 'a', 'n', 'd'], [.reg, .srcAv, .srcAv], argsRegSrcSrc Instr.rand⟩ [r.name, lo.token, hi.token] rfl rfl (by simp [tokenOk_regName, tokenOk_srcAv])
    (by simp [argsRegSrcSrc, Bind.bind, Except.bind, Pure.pure, Except.pure])

theorem RowReads.os (r : Reg) : RowReads.Statement (.os r) :=
  rowReads_of_row ⟨0x6B, chars ['o', 's'], [.reg], argsReg Instr.os⟩ [r.name] rfl rfl (by simp [tokenOk_regName])
    (by simp [argsReg, Bind.bind, Except.bind, Pure.pure, Except.pure])

theorem RowReads.beep : RowReads.Statement (.beep) :=
  rowReads_of_row ⟨0x6C, chars ['b', 'e', 'e', 'p'], [], argsNone Instr.beep⟩ [] rfl rfl (by simp) rfl

theorem RowReads.cmovf (f : Flag) (d : Reg) (s : Reg) : RowReads.Statement (.cmovf f d s) :=
  rowReads_of_row ⟨0x6D, chars ['c', 'm', 'o', 'v', 'f'], [.flag, .reg, .reg], argsFlagRegReg Instr.cmovf⟩ [f.name, d.name, s.name] rfl rfl (by simp [tokenOk_flagName, tokenOk_regName])
    (by simp [argsFlagRegReg, Bind.bind, Except.bind, Pure.pure, Except.pure])

theorem RowReads.brk : RowReads.Statement (.brk) :=
  rowReads_of_row ⟨0x6E, chars ['b', 'r', 'e', 'a', 'k'], [], argsNone Instr.brk⟩ [] rfl rfl (by simp) rfl

/-! ## The line classes -/

theorem dropWhile_of_lineNameOk {n : Text} (h : lineNameOk n = true) : n.dropWhile isSpace = n := by
  cases n with
  | nil => rfl
  | cons c cs =>
    simp only [lineNameOk, List.all_cons, Bool.and_eq_true, Bool.not_eq_true'] at h
    simp [List.dropWhile, h.1]

theorem firstWord_of_lineNameOk {n : Text} (h : lineNameOk n = true) : firstWord n = n := by
  simp only [firstWord, trimLeft, dropWhile_of_lineNameOk h]
  exact List.takeWhile_eq_self_iff.mpr (by simpa [lineNameOk] using h)

theorem RowReads.label (name : Text) : RowReads.Statement (.label name) := by
  intro h
  have hw : firstWord (name ++ [.scalar ':']) = name ++ [.scalar ':'] := by
    apply firstWord_of_lineNameOk
    have : isSpace (.scalar ':') = false := rfl
    simpa [lineNameOk, this, Instr.wellFormed] using h
  exact .inl (by simp [encode, decode, classify, hw])

theorem RowReads.directive (name : Text) : RowReads.Statement (.directive name) := by
  intro h
  simp only [Instr.wellFormed, Bool.and_eq_true, decide_eq_true_eq] at h
  have hw : firstWord (.scalar '#' :: name) = .scalar '#' :: name := by
    apply firstWord_of_lineNameOk
    have : isSpace (.scalar '#') = false := rfl
    simpa [lineNameOk, this] using h.1
  have hl : (.scalar '#' :: name).getLast? ≠ some (.scalar ':') := by
    cases name with
    | nil => decide
    | cons c cs => rw [List.getLast?_cons_cons]; exact h.2
  exact .inl (by simp [encode, decode, classify, hw, hl])

theorem RowReads.empty : RowReads.Statement .empty := fun _ => .inl rfl

end Sys2Proof.Laws
end

