-- ==== Sys2Proof/Laws/Toolchain.lean ====
section
/-! SUPPORT. What the scans of a source line give: outer white space, comments, the first token, import paths, and the two
lookups by name. -/

namespace Sys2Proof.Machine

theorem isSpace_iff (c : CodePoint) : isSpace c = true ↔ White c := by
  simp [isSpace, White, or_assoc]

theorem isSpace_eq_false (c : CodePoint) : isSpace c = false ↔ ¬ White c := by
  rw [← isSpace_iff, Bool.not_eq_true]

/-- Leading white space goes, up to a text that does not begin with any. -/
theorem trimLeft_append {a m : Text} (ha : ∀ c ∈ a, White c) (hm : ∀ c ∈ m.head?, ¬ White c) :
    trimLeft (a ++ m) = m := by
  rw [trimLeft, List.dropWhile_append_of_pos (fun c hc => (isSpace_iff c).mpr (ha c hc))]
  cases m with
  | nil => rfl
  | cons c cs => simp [(isSpace_eq_false c).mpr (hm c rfl)]

theorem trimLeft_spec (t : Text) : ∃ a, t = a ++ trimLeft t ∧ (∀ c ∈ a, White c) ∧ ∀ c ∈ (trimLeft t).head?, ¬ White c := by
  refine ⟨t.takeWhile isSpace, (List.takeWhile_append_dropWhile).symm, ?_, ?_⟩
  · intro c hc
    exact (isSpace_iff c).mp (List.mem_takeWhile_imp hc)
  · intro c hc
    rw [← isSpace_eq_false]
    have := List.head?_dropWhile_not isSpace t
    rw [← trimLeft, Option.mem_def.mp hc] at this
    exact this

/-- `trim` is the one text that `TrimsTo` gives. -/
theorem trim_eq {t m : Text} (h : TrimsTo t m) : trim t = m := by
  obtain ⟨a, b, rfl, ha, hb, h1, h2⟩ := h
  cases m with
  | nil =>
    have e : trimLeft (a ++ [] ++ b) = [] := by
      simpa using trimLeft_append (a := a ++ b) (m := [])
        (fun c hc => (List.mem_append.mp hc).elim (ha c) (hb c)) (by simp)
    rw [trim, e]
    rfl
  | cons c cs =>
    have e : trimLeft (a ++ (c :: cs) ++ b) = (c :: cs) ++ b := by
      rw [List.append_assoc]
      exact trimLeft_append ha (by simpa using h1)
    rw [trim, e, List.reverse_append,
      trimLeft_append (by simpa using hb) (by rw [List.head?_reverse]; exact h2), List.reverse_reverse]

theorem trimsTo_trim (t : Text) : TrimsTo t (trim t) := by
  obtain ⟨a, h1, h2, h3⟩ := trimLeft_spec t
  obtain ⟨b, k1, k2, k3⟩ := trimLeft_spec (trimLeft t).reverse
  have e : trimLeft t = trim t ++ b.reverse := by
    have := congrArg List.reverse k1
    simpa [trim] using this
  refine ⟨a, b.reverse, ?_, h2, by simpa using k2, ?_, by simpa [trim] using k3⟩
  · rw [List.append_assoc, ← e, ← h1]
  · intro c hc
    refine h3 c ?_
    rw [e]
    cases ht : trim t with
    | nil => rw [ht] at hc; cases hc
    | cons d ds => rw [ht] at hc; exact hc

theorem dropComment_eq {t u : Text} (h : BeforeComment t u) : dropComment t = u := by
  obtain ⟨r, rfl, hu, hr⟩ := h
  rw [dropComment, List.takeWhile_append_of_pos (fun c hc => by
    simpa using show c ≠ .scalar ';' from fun e => hu (e ▸ hc))]
  cases r with
  | nil => simp
  | cons c cs => simp [hr c rfl]

/-- The first token and what follows it. -/
theorem firstWord_eq {l w rest : Text} (h : OpensWith l w rest) : firstWord l = w ∧ afterFirstWord l = rest := by
  obtain ⟨a, rfl, ha, hw, hs, hr⟩ := h
  have hp : ∀ c ∈ w, (!isSpace c) = true := fun c hc => by simpa using (isSpace_eq_false c).mpr (hs c hc)
  have e : trimLeft (a ++ w ++ rest) = w ++ rest := by
    rw [List.append_assoc]
    refine trimLeft_append ha ?_
    cases w with
    | nil => exact absurd rfl hw
    | cons c cs => intro d hd; cases hd; exact hs c (by simp)
  rw [firstWord, afterFirstWord, e, List.takeWhile_append_of_pos hp, List.dropWhile_append_of_pos hp]
  cases rest with
  | nil => simp
  | cons c cs => simp [(isSpace_iff c).mpr (hr c rfl)]

theorem opensWith_firstWord {l : Text} (h : firstWord l ≠ []) : OpensWith l (firstWord l) (afterFirstWord l) := by
  obtain ⟨a, h1, h2, -⟩ := trimLeft_spec l
  refine ⟨a, ?_, h2, h, ?_, ?_⟩
  · rw [List.append_assoc, firstWord, afterFirstWord, List.takeWhile_append_dropWhile]; exact h1
  · intro c hc
    have := List.mem_takeWhile_imp hc
    rw [← isSpace_eq_false]
    simpa using this
  · intro c hc
    have := List.head?_dropWhile_not (fun c => !isSpace c) (trimLeft l)
    rw [← afterFirstWord, Option.mem_def.mp hc] at this
    exact (isSpace_iff c).mp (by simpa using this)

theorem importPath_eq {l p : Text} (h : ImportsPath l p) : importPath l = p := by
  obtain ⟨rest, u, v, h1, h2, h3, h4⟩ := h
  rw [importPath, (firstWord_eq h1).2, dropComment_eq h2, trim_eq h3]
  rcases h4 with rfl | ⟨rfl, h4⟩
  · have : (CodePoint.scalar '"' :: p ++ [CodePoint.scalar '"']).getLast? = some (.scalar '"') := by
      rw [List.getLast?_append]; rfl
    rw [unquote, if_pos ⟨by simp, rfl, this⟩]
    simp
  · rw [unquote, if_neg]
    rintro ⟨hl, hh, hg⟩
    cases v with
    | nil => simp at hl
    | cons c cs =>
      have hne : cs ≠ [] := by rintro rfl; simp at hl
      refine h4 cs.dropLast ?_
      have hc : c = .scalar '"' := by simpa using hh
      have hl' : cs.getLast hne = .scalar '"' := by
        rw [List.getLast?_eq_some_getLast (by simp), Option.some.injEq, List.getLast_cons hne] at hg
        exact hg
      rw [hc, List.cons_append, ← hl', List.dropLast_append_getLast hne]

/-- The first entry of a name counts. -/
theorem find?_of_first {α : Type} {before after : List (Text × α)} {n : Text} {v : α} (h : ∀ d ∈ before, d.1 ≠ n) :
    (before ++ (n, v) :: after).find? (fun d => d.1 == n) = some (n, v) := by
  rw [List.find?_append, List.find?_eq_none.mpr (by simpa using h)]
  simp

theorem find?_of_absent {α : Type} {table : List (Text × α)} {n : Text} (h : ∀ d ∈ table, d.1 ≠ n) :
    table.find? (fun d => d.1 == n) = none := by
  rw [List.find?_eq_none]
  intro d hd
  simpa using h d hd

end Sys2Proof.Machine
end

