-- ==== Sys2Proof/Tests/Slice0.lean ====
section
/-! SUPPORT. Tests: ill-formed terms, lines written out from the encodings, one step of each instruction on a small state
(expected values from the rules' examples and corner cases), and a witness for the hypotheses of each statement. -/

namespace Sys2Proof.Tests

open Sys2Proof Sys2Proof.Machine

-- One theorem at a time: checked side by side, the tests below would hold one thread each.
set_option Elab.async false

/-! ## Well-formedness: one refused term per check -/

theorem test_wf_set_needs_a_token : (Instr.set .eax []).wellFormed = false := by decide +kernel
theorem test_wf_writeMem_needs_a_token : (Instr.writeMem (.lit 0) []).wellFormed = false := by decide +kernel
theorem test_wf_token_not_closed : (Instr.jmp "a b\\".toText).wellFormed = false := by decide +kernel
theorem test_wf_write_token_not_closed : (Instr.write ["a b\\".toText]).wellFormed = false := by decide +kernel
theorem test_wf_gval_text_is_a_register : (Instr.cmpv (.text "eax".toText) (.reg .ebx)).wellFormed = false := by
  decide +kernel
theorem test_wf_literal_is_an_integer : (Instr.cmpStr (.lit 0) (.literal "12".toText)).wellFormed = false := by
  decide +kernel
theorem test_wf_literal_is_a_register : (Instr.cmpStr (.lit 0) (.literal "eax".toText)).wellFormed = false := by
  decide +kernel
theorem test_wf_literal_is_a_memory_label : (Instr.cmpStr (.lit 0) (.literal "text".toText)).wellFormed = false := by
  decide +kernel
theorem test_wf_label_with_space : (Instr.label "a b".toText).wellFormed = false := by decide +kernel
theorem test_wf_directive_is_a_label : (Instr.directive "a:".toText).wellFormed = false := by decide +kernel

/-! ## Lines written out from the encodings (30_encoding R140-R155, R160) -/

theorem test_decode_movement :
    decode "set eax \"a  b\" c".toText = .instr (.set .eax ["a  b".toText, "c".toText]) ∧
    decode "setAV esp -2147483648".toText = .instr (.setAV .esp (.lit 0x80000000)) ∧
    decode "setLV cs 5000000000".toText = .instr (.setLV .cs (.lit 5000000000)) ∧
    decode "mov pc mc".toText = .instr (.mov .pc .mc) ∧
    decode "movv dr3 gs".toText = .instr (.movv .dr3 .gs) := by decide +kernel

theorem test_decode_arithmetic :
    decode "add eax 3".toText = .instr (.add .eax (.lit 3)) ∧
    decode "sub ecx +1".toText = .instr (.sub .ecx (.lit 1)) ∧
    decode "mul eax -7".toText = .instr (.mul .eax (.lit (-7))) ∧
    decode "div edx ebx".toText = .instr (.div .edx (.reg .ebx)) ∧
    decode "mod esi 007".toText = .instr (.mod .esi (.lit 7)) ∧
    decode "shl edi 4".toText = .instr (.shl .edi (.lit 4)) ∧
    decode "shr ebp cr0".toText = .instr (.shr .ebp (.reg .cr0)) := by decide +kernel

theorem test_decode_bitwise :
    decode "and ds 10".toText = .instr (.and .ds (.lit 10)) ∧
    decode "or es 3".toText = .instr (.or .es (.lit 3)) ∧
    decode "xor fs ss".toText = .instr (.xor .fs (.reg .ss)) ∧
    decode "not cr1".toText = .instr (.not .cr1) := by decide +kernel

theorem test_decode_comparison :
    decode "cmp cr2 cr3".toText = .instr (.cmp .cr2 (.reg .cr3)) ∧
    decode "cmpv true dr0".toText = .instr (.cmpv (.text "true".toText) (.reg .dr0)) ∧
    decode "setflag copied".toText = .instr (.setflag .copied) ∧
    decode "clearflag carry".toText = .instr (.clearflag .carry) := by decide +kernel

theorem test_decode_jumps :
    decode "jmp 5".toText = .instr (.jmp "5".toText) ∧ decode "jz L".toText = .instr (.jz "L".toText) ∧
    decode "jnz L".toText = .instr (.jnz "L".toText) ∧ decode "jn L".toText = .instr (.jn "L".toText) ∧
    decode "jnn L".toText = .instr (.jnn "L".toText) ∧ decode "jp L".toText = .instr (.jp "L".toText) ∧
    decode "jnp L".toText = .instr (.jnp "L".toText) ∧ decode "jf L".toText = .instr (.jf "L".toText) ∧
    decode "jnf L".toText = .instr (.jnf "L".toText) ∧ decode "jo L".toText = .instr (.jo "L".toText) ∧
    decode "jno L".toText = .instr (.jno "L".toText) := by decide +kernel

theorem test_decode_control :
    decode "call sub".toText = .instr (.call "sub".toText) ∧ decode "ret".toText = .instr .ret ∧
    decode "loop top".toText = .instr (.loop "top".toText) ∧ decode "exit".toText = .instr (.exit none) ∧
    decode "exit dr1".toText = .instr (.exit (some (.reg .dr1))) ∧
    decode "push -1".toText = .instr (.push (.lit (-1))) ∧ decode "pop dr2".toText = .instr (.pop .dr2) := by
  decide +kernel

theorem test_decode_memory :
    decode "readMem 10 eax".toText = .instr (.readMem (.lit 10) (some .eax)) ∧
    decode "readMem text".toText = .instr (.readMem (.memLabel .text) none) ∧
    decode "writeRawMem reserved 1".toText = .instr (.writeRawMem (.memLabel .reserved) (.lit 1)) ∧
    decode "writeMem 100 \"hi\" 0".toText = .instr (.writeMem (.lit 100) ["hi".toText, "0".toText]) ∧
    decode "fillMem 20 3 7".toText = .instr (.fillMem (.lit 20) (.lit 3) (.lit 7)) ∧
    decode "copyMem eax 200 3".toText = .instr (.copyMem (.reg .eax) (.lit 200) (.lit 3)) ∧
    decode "cmpMem 100 200 ecx".toText = .instr (.cmpMem (.lit 100) (.lit 200) (.reg .ecx)) ∧
    decode "cmpStr 100 hi".toText = .instr (.cmpStr (.lit 100) (.literal "hi".toText)) ∧
    decode "cmpStr 100 eax".toText = .instr (.cmpStr (.lit 100) (.addr (.reg .eax))) ∧
    decode "printMem 20 3".toText = .instr (.printMem (.lit 20) (.lit 3)) ∧
    decode "printStr 100".toText = .instr (.printStr (.lit 100)) := by decide +kernel

theorem test_decode_io :
    decode "read pc".toText = .instr (.read .pc) ∧ decode "readKey ebx".toText = .instr (.readKey .ebx) ∧
    decode "write \"a  b\" c".toText = .instr (.write ["a  b".toText, "c".toText]) ∧
    decode "writeln".toText = .instr (.writeln []) ∧ decode "writeAV eax".toText = .instr (.writeAV .eax) ∧
    decode "writeLV eax".toText = .instr (.writeLV .eax) ∧ decode "writeFV flags".toText = .instr (.writeFV .flags) ∧
    decode "writeVal eax".toText = .instr (.writeVal .eax) := by decide +kernel

theorem test_decode_meta :
    decode "dump".toText = .instr .dump ∧ decode "sleep 0".toText = .instr (.sleep (.lit 0)) ∧
    decode "rand eax 1 7".toText = .instr (.rand .eax (.lit 1) (.lit 7)) ∧ decode "os eax".toText = .instr (.os .eax) ∧
    decode "beep".toText = .instr .beep ∧
    decode "cmovf failure eax ebx".toText = .instr (.cmovf .failure .eax .ebx) ∧
    decode "break".toText = .instr .brk := by decide +kernel

theorem test_decode_line_classes :
    decode " top: add eax 1".toText = .instr (.label "top".toText) ∧
    decode "#x:".toText = .instr (.label "#x".toText) ∧
    decode "#N 3".toText = .instr (.directive "N".toText) ∧ decode " \t".toText = .instr .empty := by decide +kernel

/-- 30_encoding R142, R154, 60_exceptions R403: the mnemonic, then the arity, then the operands from the left. -/
theorem test_decode_failures :
    decode "ADD eax 1".toText = .unknown "ADD".toText ∧ decode "\"\"".toText = .unknown [] ∧
    decode "add xyz".toText = .skip .arity ∧ decode "add xyz 99999999999".toText = .skip .unknownReg ∧
    decode "add eax 2147483648".toText = .skip .literal ∧ decode "setflag Zero".toText = .skip .unknownFlag ∧
    decode "cmp 3 eax".toText = .skip .unknownReg ∧ decode "cmpStr 0 2147483648".toText = .skip .literal := by
  decide +kernel

/-- Every opcode id of the table stands for a line of its own row's mnemonic, and no other id does. -/
theorem test_table_words : (List.range 256).all (fun w =>
    decide ((decodeTableWord 8 w).isSome = (rowOfOpcode (BitVec.ofNat 8 w)).isSome)) = true := by decide +kernel

/-- The step after `withFetchWord` runs the placed line: opcode 0x02 is `setAV eax 0`, 0x6E is `break`. -/
theorem test_fetch_word : decodeTableWord 8 0x02 = some (.setAV .eax (.lit 0)) ∧
    (State.reset.withFetchWord 8 0x6E).fetch = some "break".toText := by decide +kernel

/-! ## One step of each instruction -/

/-- 16 cells, four of them reserved, a stack of two entries; a program with a call, its subroutine, and failing lines. -/
def small : State := { State.reset with
  params := { memSize := 16, textSeed := [65, 0], reservedSize := 4, stackDepth := some 2 }
  mem := [(0, 65), (4, 104), (5, 105), (8, 104), (9, 105), (10, 33), (12, 3)]
  irom := ["call sub".toText, "exit".toText, "sub: here".toText, "ret".toText, "bogus 1".toText, "add eax".toText]
  lrom := [("sub".toText, 2)]
  run := .running
  firstRun := false }

/-- `small` with eax.av = a and ebx.av = b. -/
def pair (a b : Word) : State := (small.setAv .eax a).setAv .ebx b

/-- `exec` answers a next state, and `p` holds of it. -/
def after (i : Instr) (s : State) (p : State → Bool) : Bool :=
  match exec i s with
  | .next t => p t
  | .fault _ => false
  | .refused _ => false

/-- `step` answers a next state, and `p` holds of it. -/
def stepped (s : State) (p : State → Bool) : Bool :=
  match step s with
  | .next t => p t
  | .fault _ => false
  | .refused _ => false

theorem next_of_stepped {s t : State} (h : stepped s (fun u => decide (u = t)) = true) : step s = .next t := by
  unfold stepped at h
  split at h
  · rename_i u hu
    rw [hu, of_decide_eq_true h]
  · cases h
  · cases h

theorem next_of_after {i : Instr} {s t : State} (h : after i s (fun u => decide (u = t)) = true) :
    exec i s = .next t := by
  unfold after at h
  split at h
  · rename_i u hu
    rw [hu, of_decide_eq_true h]
  · cases h
  · cases h

/-- The outcome is the fault of `rand`. -/
def faults (o : Host.Outcome State Fault Refusal) : Bool :=
  match o with
  | .next _ => false
  | .fault f => decide (f = .randomAnswerOutOfRange)
  | .refused _ => false

/-- Z, P, N. -/
def signs (s : State) : Bool × Bool × Bool :=
  (flagOf s.flagBits .zero, flagOf s.flagBits .positive, flagOf s.flagBits .negative)

theorem test_set : after (.set .eax ["+7".toText]) small (fun t =>
    decide ((t.reg .eax).val = .text "+7".toText ∧ (t.reg .eax).av = 7)) = true := by decide +kernel
theorem test_set_wide_token : after (.set .eax ["99999999999".toText]) (pair 4 0) (fun t =>
    decide ((t.reg .eax).av = 4)) = true := by decide +kernel
theorem test_setAV : after (.setAV .eax (.reg .ebx)) (pair 0 9) (fun t =>
    decide ((t.reg .eax).av = 9 ∧ (t.reg .eax).lv = 0)) = true := by decide +kernel
theorem test_setLV : after (.setLV .eax (.lit 5000000000)) (pair 3 0) (fun t =>
    decide ((t.reg .eax).lv = 5000000000 ∧ (t.reg .eax).av = 3)) = true := by decide +kernel
theorem test_mov : after (.mov .flags .ebx) ((pair 0 4).setFlagBits 0x43) (fun t =>
    decide ((t.reg .flags).av = 4 ∧ t.flagBits = 0x63 ∧ (t.reg .ebx).fv = 0)) = true := by decide +kernel
theorem test_movv : after (.movv .eax .ebx) ((pair 1 2).setVal .ebx (.text "hi".toText)) (fun t =>
    decide ((t.reg .eax).val = .text "hi".toText ∧ (t.reg .eax).av = 1)) = true := by decide +kernel

theorem test_add : after (.add .eax (.lit 1)) (pair 2147483647 0) (fun t =>
    decide ((t.reg .eax).av.toInt = -2147483648 ∧ signs t = (false, false, true))) = true := by decide +kernel
theorem test_add_same : after (.add .eax (.reg .eax)) (pair 21 0) (fun t =>
    decide ((t.reg .eax).av = 42 ∧ signs t = (false, true, false))) = true := by decide +kernel
theorem test_sub : after (.sub .eax (.reg .ebx)) (pair (-2147483648) 1) (fun t =>
    decide ((t.reg .eax).av.toInt = 2147483647 ∧ signs t = (false, true, false))) = true := by decide +kernel
theorem test_mul : after (.mul .eax (.lit 46341)) (pair 46341 0) (fun t =>
    decide ((t.reg .eax).av.toInt = -2147479015)) = true := by decide +kernel
theorem test_div : after (.div .eax (.lit 2)) (pair (-7) 0) (fun t =>
    decide ((t.reg .eax).av.toInt = -3 ∧ signs t = (false, false, true))) = true := by decide +kernel
theorem test_div_wraps : after (.div .eax (.lit (-1))) (pair (-2147483648) 0) (fun t =>
    decide ((t.reg .eax).av.toInt = -2147483648)) = true := by decide +kernel
theorem test_mod : after (.mod .eax (.lit (-2))) (pair 7 0) (fun t =>
    decide ((t.reg .eax).av.toInt = 1)) = true := by decide +kernel
theorem test_mod_zero : after (.mod .eax (.lit 0)) (pair 7 0) (fun t =>
    decide ((t.reg .eax).av = 7 ∧ t.events = [.diagnostic .divZero 0])) = true := by decide +kernel
theorem test_shl : after (.shl .eax (.lit (-1))) (pair 1 0) (fun t =>
    decide ((t.reg .eax).av.toInt = -2147483648)) = true := by decide +kernel
theorem test_shr : after (.shr .eax (.lit 33)) (pair (-3) 0) (fun t =>
    decide ((t.reg .eax).av.toInt = -2)) = true := by decide +kernel
theorem test_and : after (.and .eax (.lit 10)) (pair 12 0) (fun t => decide ((t.reg .eax).av = 8)) = true := by
  decide +kernel
theorem test_or : after (.or .eax (.lit 3)) (pair 12 0) (fun t => decide ((t.reg .eax).av = 15)) = true := by
  decide +kernel
theorem test_xor : after (.xor .eax (.lit 10)) (pair 12 0) (fun t => decide ((t.reg .eax).av = 6)) = true := by
  decide +kernel
theorem test_not : after (.not .eax) (pair 5 0) (fun t =>
    decide ((t.reg .eax).av.toInt = -6 ∧ signs t = (false, false, true))) = true := by decide +kernel

theorem test_cmp : after (.cmp .eax (.lit 1)) ((pair (-2147483648) 0).setFlagBits 0x7B) (fun t =>
    decide (t.flagBits = 0x7C ∧ (t.reg .eax).av = 0x80000000)) = true := by decide +kernel
theorem test_cmpv : after (.cmpv (.text "true".toText) (.text " TRUE ".toText)) small (fun t =>
    decide (signs t = (false, false, true))) = true := by decide +kernel
theorem test_cmpv_equal : after (.cmpv (.text "True".toText) (.text "True".toText)) small (fun t =>
    decide (signs t = (true, false, true))) = true := by decide +kernel
theorem test_setflag : after (.setflag .overflow) (small.setFlagBits 1) (fun t => decide (t.flagBits = 0x11)) = true := by
  decide +kernel
theorem test_clearflag : after (.clearflag .copied) (small.setFlagBits 0x7F) (fun t =>
    decide (t.flagBits = 0x5F)) = true := by decide +kernel

/-- A jump on flag bit `b`, set and clear; the taken one leaves pc at target - 1. -/
def jumpsOn (i : Instr) (b : FlagBits) (taken : Bool) : Bool :=
  after i (small.setFlagBits b) (fun t => decide (t.pc = if taken then 1 else 0))

theorem test_jmp : jumpsOn (.jmp "sub".toText) 0 true = true := by decide +kernel
theorem test_jz : (jumpsOn (.jz "sub".toText) 1 true && jumpsOn (.jz "sub".toText) 0x7E false) = true := by decide +kernel
theorem test_jnz : (jumpsOn (.jnz "sub".toText) 0x7E true && jumpsOn (.jnz "sub".toText) 1 false) = true := by
  decide +kernel
theorem test_jn : (jumpsOn (.jn "sub".toText) 4 true && jumpsOn (.jn "sub".toText) 0x7B false) = true := by decide +kernel
theorem test_jnn : (jumpsOn (.jnn "sub".toText) 0x7B true && jumpsOn (.jnn "sub".toText) 4 false) = true := by
  decide +kernel
theorem test_jp : (jumpsOn (.jp "sub".toText) 2 true && jumpsOn (.jp "sub".toText) 0x7D false) = true := by decide +kernel
theorem test_jnp : (jumpsOn (.jnp "sub".toText) 0x7D true && jumpsOn (.jnp "sub".toText) 2 false) = true := by
  decide +kernel
theorem test_jf : (jumpsOn (.jf "sub".toText) 0x40 true && jumpsOn (.jf "sub".toText) 0x3F false) = true := by
  decide +kernel
theorem test_jnf : (jumpsOn (.jnf "sub".toText) 0x3F true && jumpsOn (.jnf "sub".toText) 0x40 false) = true := by
  decide +kernel
theorem test_jo : (jumpsOn (.jo "sub".toText) 0x10 true && jumpsOn (.jo "sub".toText) 0x6F false) = true := by
  decide +kernel
theorem test_jno : (jumpsOn (.jno "sub".toText) 0x6F true && jumpsOn (.jno "sub".toText) 0x10 false) = true := by
  decide +kernel

theorem test_call : after (.call "sub".toText) small (fun t => decide (t.stack = [0] ∧ t.pc = 1)) = true := by
  decide +kernel
theorem test_call_full : after (.call "sub".toText) { small with stack := [7, 8] } (fun t =>
    decide (t.stack = [7, 8] ∧ t.pc = 0 ∧ t.events = [.diagnostic .stackFull 0])) = true := by decide +kernel
theorem test_ret : after .ret { small with stack := [9] } (fun t => decide (t.stack = [] ∧ t.pc = 9)) = true := by
  decide +kernel
theorem test_ret_empty : after .ret small (fun t =>
    decide (t.run = .terminated 1 ∧ t.events = [.diagnostic .retUnderflow 0, .terminate 1])) = true := by decide +kernel
theorem test_loop : after (.loop "sub".toText) (small.setAv .ecx 3) (fun t =>
    decide ((t.reg .ecx).av = 2 ∧ t.pc = 1)) = true := by decide +kernel
theorem test_loop_ends : after (.loop "sub".toText) (small.setAv .ecx 1) (fun t =>
    decide ((t.reg .ecx).av = 0 ∧ t.pc = 0)) = true := by decide +kernel
theorem test_exit : after (.exit (some (.lit 2))) small (fun t =>
    decide (t.run = .terminated 2 ∧ t.pc = 0)) = true := by decide +kernel
theorem test_push : after (.push (.reg .eax)) (pair 7 0) (fun t => decide (t.stack = [7])) = true := by decide +kernel
theorem test_pop : after (.pop .ebx) { small with stack := [7] } (fun t =>
    decide (t.stack = [] ∧ (t.reg .ebx).av = 7)) = true := by decide +kernel
theorem test_pop_empty : after (.pop .ebx) small (fun t => decide (t.events = [.diagnostic .stackEmpty 0])) = true := by
  decide +kernel

theorem test_readMem : after (.readMem (.memLabel .reserved) none) small (fun t =>
    decide ((t.reg .mc).av = 3)) = true := by decide +kernel
theorem test_readMem_out : after (.readMem (.lit 16) (some .eax)) (pair 5 0) (fun t =>
    decide ((t.reg .eax).av = 0 ∧ t.events = [.diagnostic .memOob 0])) = true := by decide +kernel
theorem test_writeRawMem : after (.writeRawMem (.lit 15) (.lit (-1))) small (fun t =>
    decide (t.cell 15 = 0xFFFFFFFF)) = true := by decide +kernel
theorem test_writeMem : after (.writeMem (.lit 1) ["hi".toText, "0".toText, "12".toText]) small (fun t =>
    decide (t.cell 1 = 104 ∧ t.cell 2 = 105 ∧ t.cell 3 = 0 ∧ t.cell 4 = 12)) = true := by decide +kernel
theorem test_fillMem : after (.fillMem (.lit 14) (.lit 3) (.lit 7)) small (fun t =>
    decide (t.cell 14 = 7 ∧ t.cell 15 = 7 ∧ t.events = [.diagnostic .memOob 0])) = true := by decide +kernel
theorem test_copyMem : after (.copyMem (.lit 4) (.lit 5) (.lit 3)) small (fun t =>
    decide (t.cell 5 = 104 ∧ t.cell 6 = 104 ∧ t.cell 7 = 104 ∧ t.cell 8 = 104)) = true := by decide +kernel
theorem test_cmpMem : after (.cmpMem (.lit 8) (.lit 4) (.lit 3)) small (fun t =>
    decide (signs t = (false, true, false))) = true := by decide +kernel
theorem test_cmpStr : after (.cmpStr (.lit 4) (.addr (.lit 8))) small (fun t =>
    decide (signs t = (false, false, true))) = true := by decide +kernel
theorem test_cmpStr_literal : after (.cmpStr (.lit 4) (.literal "hi".toText)) small (fun t =>
    decide (signs t = (true, false, false) ∧ t.cell 12 = 0 ∧ t.cell 4 = 104)) = true := by decide +kernel
theorem test_printMem : after (.printMem (.lit 8) (.lit 3)) small (fun t =>
    decide (t.events = [.writeLine "104 105 33".toText])) = true := by decide +kernel
theorem test_printStr : after (.printStr (.lit 8)) small (fun t => decide (t.events = [.write "hi!".toText])) = true := by
  decide +kernel

/-- `small` with one answer of each kind queued. -/
def asked : State := { small with answers := {
  lines := ["hello".toText], keys := [⟨"A".toText, 65, 5⟩], draws := [6], osTexts := ["Linux 6.1".toText], asked := 0 } }

theorem test_read : after (.read .eax) asked (fun t =>
    decide ((t.reg .eax).val = .text "hello".toText ∧ t.answers.lines = [] ∧ t.events = [.readLine])) = true := by
  decide +kernel
theorem test_readKey : after (.readKey .ebx) asked (fun t =>
    decide ((t.reg .ebx).val = .text "A".toText ∧ (t.reg .ebx).av = 65 ∧ (t.reg .ebx).lv = 5)) = true := by decide +kernel
theorem test_write : after (.write ["a  b".toText, "c".toText]) small (fun t =>
    decide (t.events = [.write "a  b c".toText])) = true := by decide +kernel
theorem test_writeln : after (.writeln []) small (fun t => decide (t.events = [.writeLine []])) = true := by
  decide +kernel
theorem test_writeAV : after (.writeAV .eax) (pair (-5) 0) (fun t => decide (t.events = [.write "-5".toText])) = true := by
  decide +kernel
theorem test_writeLV : after (.writeLV .eax) (small.setLv .eax 5000000000) (fun t =>
    decide (t.events = [.write "5000000000".toText])) = true := by decide +kernel
theorem test_writeFV : after (.writeFV .flags) (small.setFlagBits 0x85) (fun t =>
    decide (t.events = [.write "133".toText])) = true := by decide +kernel
theorem test_writeVal : after (.writeVal .eax) (small.setVal .eax (.boolean true)) (fun t =>
    decide (t.events = [.write "true".toText])) = true := by decide +kernel
theorem test_dump : after .dump (pair 5 0) (fun t => match t.events with
    | [.dump snap] => decide (snap.length = 25 ∧ snap.head? = some (.eax, ⟨.empty, 5, 0, 0⟩))
    | _ => false) = true := by decide +kernel
theorem test_sleep : after (.sleep (.lit (-1))) small (fun t => decide (t.events = [.diagnostic .badRange 0])) = true := by
  decide +kernel
theorem test_rand : after (.rand .eax (.lit 1) (.lit 7)) asked (fun t =>
    decide ((t.reg .eax).av = 6 ∧ t.events = [.random 1 7])) = true := by decide +kernel
theorem test_rand_out_of_range : faults (exec (.rand .eax (.lit 1) (.lit 6)) asked) = true := by decide +kernel
theorem test_os : after (.os .eax) asked (fun t =>
    decide ((t.reg .eax).val = .text "Linux 6.1".toText ∧ (t.reg .eax).av = 0)) = true := by decide +kernel
theorem test_beep : after .beep small (fun t => decide (t.events = [.beep])) = true := by decide +kernel
theorem test_cmovf : (after (.cmovf .carry .eax .ebx) ((pair 1 4).setFlagBits 8) (fun t =>
      decide ((t.reg .eax).av = 4 ∧ (t.reg .eax).fv = 0x20)) &&
    after (.cmovf .carry .eax .ebx) (pair 1 4) (fun t =>
      decide ((t.reg .eax).av = 1 ∧ (t.reg .eax).fv = 0))) = true := by decide +kernel
theorem test_break : after .brk (small.setPc 4) (fun t => decide (t.events = [.breakpoint 4])) = true := by decide +kernel
theorem test_no_op_lines : (stepped (small.setPc 2) (fun t => decide (t = small.setPc 3)) &&
    after (.directive "N".toText) small (fun t => decide (t = small)) &&
    after .empty small (fun t => decide (t = small))) = true := by decide +kernel

/-- 10_state R32, 45_memory_ops R312, R318: a surrogate is a code point of a text, is stored by its number, and prints as
U+FFFD; so does a negative cell. -/
theorem test_surrogate : after (.writeMem (.lit 1) [[.surrogate 5, .scalar 'a']]) small (fun t =>
      decide (t.cell 1 = 0xD805 ∧ t.cell 2 = 97)) = true ∧
    cellChar 0xD805 = .scalar (Char.ofNat 0xFFFD) ∧ cellChar 0xFFFFFFFF = .scalar (Char.ofNat 0xFFFD) ∧
    cellChar 97 = .scalar 'a' ∧ eqv (.text [.surrogate 5]) (.text [.surrogate 6]) = false := by decide +kernel

/-! ## The toolchain and run control -/

/-- 30_encoding R122-R128: import, comment, blank, definition, placeholder, later declaration. -/
theorem test_toolchain :
    toolchain [("f".toText, ["#N 3".toText])]
      ["#import \"f\" ; here".toText, "".toText, " L: ; first".toText, "add eax %N%%none%".toText, "# ".toText,
        "%L".toText, "L:".toText] =
    { lines := ["#N 3".toText, "L:".toText, "add eax 3".toText, "L".toText, "L:".toText]
      labels := [("L".toText, 4)], diags := [.malformedDefinition] } := by decide +kernel

/-- 70_reset_and_hazards R452: a start seeds memory and keeps the other registers and the stack. -/
theorem test_start : (match ({ pair 5 6 with run := .done, stack := [9] } : State).start true with
    | .next t => decide (t.mem = [(0, 65)] ∧ t.pc = 0 ∧ (t.reg .eax).av = 5 ∧ t.stack = [9] ∧ t.run = .running)
    | .fault _ => false
    | .refused _ => false) = true := by decide +kernel

/-! ## Witnesses: concrete states and operands that meet the hypotheses of the statements -/

theorem small_inv : small.Inv where
  params := by decide +kernel
  mem := by decide +kernel
  memInRange := by decide +kernel
  stack := by intro d _; exact Nat.zero_le d
  irom := by decide +kernel
  labels := by decide +kernel
  labelNames := by decide +kernel
  reservedBit := by intro r; cases r <;> decide +kernel

theorem witness_SetWritesJoinedText : intValue "2147483647".toText = some 2147483647 ∧ inInt32 2147483647 = true ∧
    intValue "2147483648".toText = some 2147483648 ∧ inInt32 2147483648 = false ∧
    intValue "-2147483648".toText = some (-2147483648) ∧ inInt32 (-2147483648) = true := by decide +kernel

theorem witness_FullMoveCopiesAndMarks : flagOf (small.setFlagBits 8).flagBits .carry = true ∧
    flagOf small.flagBits .carry = false := by decide +kernel

theorem witness_DivModTruncate : (pair 0 (-1)).srcAv (.reg .ebx) ≠ 0 ∧ (pair 0 0).srcAv (.reg .ebx) = 0 := by
  decide +kernel

theorem witness_JumpsRedirectOnTheirFlag : small.labelIndex "sub".toText = some 2 := by decide +kernel

theorem witness_UnknownLabelSkips : small.labelIndex "nowhere".toText = none := by decide +kernel

theorem witness_CallPushesItsIndex : small.labelIndex "sub".toText = some 2 ∧
    small.params.stackDepth ≠ some small.stack.length ∧
    ({ small with stack := [7, 8] } : State).params.stackDepth = some ({ small with stack := [7, 8] } : State).stack.length := by
  decide +kernel

theorem witness_RetPopsOrTerminates : ({ small with stack := [7] } : State).stack = 7 :: [] ∧ small.stack = [] := by
  decide +kernel

theorem witness_LoopCountsEcxDown : small.labelIndex "sub".toText = some 2 ∧ ((small.setAv .ecx 1).reg .ecx).av = 1 ∧
    (small.reg .ecx).av ≠ 1 := by decide +kernel

theorem witness_PushAndPop : small.params.stackDepth ≠ some small.stack.length ∧
    ({ small with stack := [7, 8] } : State).params.stackDepth = some 2 ∧ small.stack = [] := by decide +kernel

theorem witness_PushThenPopRestoresStack : small.params.stackDepth ≠ some small.stack.length ∧
    exec (.push (.lit 3)) small = .next { small with stack := [3] } ∧ small.stack = [] :=
  ⟨by decide +kernel, next_of_after (by decide +kernel), by decide +kernel⟩

theorem witness_ControllersReadAndWriteOneCell : Memory.wf small.mem ∧ (0 : Int) ≤ 15 ∧ (15 : Int) < small.params.memSize ∧
    (0 : Int) < small.params.memSize ∧ (-1 : Int) < 0 ∧ (small.params.memSize : Int) ≤ 16 := by decide +kernel

theorem witness_ReadMemLoadsCell : small.inRange (small.addr (.lit 16)) = false ∧ small.inRange (small.addr (.lit 15)) = true := by
  decide +kernel

theorem witness_WriteRawMemStoresCell : Memory.wf small.mem ∧ small.inRange (small.addr (.lit 0)) = true ∧
    small.inRange (small.addr (.lit (-1))) = false := by decide +kernel

theorem witness_WriteMemStoresTokens : Memory.wf small.mem ∧
    (["ab".toText, "2147483647".toText].any tokenTooWide) = false ∧
    intValue "2147483648".toText = some 2147483648 ∧ inInt32 2147483648 = false := by decide +kernel

theorem witness_FillMemStoresRange : Memory.wf small.mem ∧ small.addr (.lit 15) ≤ 15 ∧
    (15 : Int) < small.addr (.lit 15) + (small.srcAv (.lit 1)).toInt ∧ small.inRange 15 = true := by decide +kernel

/-- The clauses of the copy meet at `dst = src + len`, where both answer the old source cell. -/
theorem witness_CopyMemCopiesForward : Memory.wf small.mem ∧
    (small.addr (.lit 4) ≤ small.addr (.lit 4) ∧ small.addr (.lit 4) + 3 ≤ small.addr (.lit 7)) ∧
    (small.addr (.lit 4) < small.addr (.lit 5) ∧ 0 ≤ small.addr (.lit 4) ∧
      small.addr (.lit 13) + 3 ≤ small.params.memSize) ∧ small.inRange (7 + 2) = true := by decide +kernel

theorem witness_CmpStrLiteralScrubsReserved : small.Inv ∧
    "abc".toText.length + 1 ≤ small.params.reservedSize ∧ small.params.reservedSize < "abcd".toText.length + 1 :=
  ⟨small_inv, by decide +kernel, by decide +kernel⟩

theorem witness_ReadsTakeAnAnswer : asked.answers.lines = "hello".toText :: [] ∧
    asked.answers.keys = ⟨"A".toText, 65, 5⟩ :: [] ∧ asked.answers.osTexts = "Linux 6.1".toText :: [] := by decide +kernel

theorem witness_WritesEmitTheirText : ((small.setVal .eax (.text [])).reg .eax).val = .text [] ∧
    ((small.setVal .eax (.integer (-1))).reg .eax).val = .integer (-1) ∧
    ((small.setVal .eax (.boolean true)).reg .eax).val = .boolean true ∧
    ((small.setVal .eax (.boolean false)).reg .eax).val = .boolean false ∧ (small.reg .eax).val = .empty := by
  decide +kernel

theorem witness_DumpSleepBeepBreakEmitOnce : 0 ≤ (small.srcAv (.lit 0)).toInt ∧ (small.srcAv (.lit (-1))).toInt < 0 := by
  decide +kernel

/-- The queued draw 6 is in [6, 7) and not in [1, 6); the range [3, 3) is empty. -/
theorem witness_RandDrawsInRange : ((6 : Word).toInt < (7 : Word).toInt ∧ asked.drawReady 6 7) ∧
    (3 : Word).toInt ≤ (3 : Word).toInt ∧ ((1 : Word).toInt < (6 : Word).toInt ∧ ¬ asked.drawReady 1 6) := by
  refine ⟨⟨by decide, ?_⟩, by decide, by decide, ?_⟩
  · intro v hv
    have : v = 6 := by simpa [asked, Eq.comm] using hv
    subst this
    decide
  · intro h
    exact absurd (h 6 (by simp [asked])) (by decide)

theorem witness_StepRunsTheDecodedInstruction : small.run = .running ∧ 0 ≤ small.pc.toInt ∧
    small.irom[small.pc.toNat]? = some "call sub".toText ∧ decode "call sub".toText = .instr (.call "sub".toText) := by
  decide +kernel

theorem witness_LoopHeadEndsTheRun : small.run = .running ∧ (small.count : Int) ≤ (small.setPc 6).pc.toInt ∧
    (small.setPc (-1)).pc.toInt < 0 ∧ State.reset.run ≠ .running := by decide +kernel

theorem witness_UnknownMnemonicHalts : small.run = .running ∧ 0 ≤ (small.setPc 4).pc.toInt ∧
    (small.setPc 4).irom[(small.setPc 4).pc.toNat]? = some "bogus 1".toText ∧ classify "bogus 1".toText = .instr ∧
    tokenize "bogus 1".toText = "bogus".toText :: ["1".toText] ∧ (rowOfMnemonic "bogus".toText).isNone = true := by
  decide +kernel

theorem witness_OperandFailureSkips : small.run = .running ∧ 0 ≤ (small.setPc 5).pc.toInt ∧
    (small.setPc 5).irom[(small.setPc 5).pc.toNat]? = some "add eax".toText ∧
    decode "add eax".toText = .skip .arity := by decide +kernel

theorem witness_CallThenRetResumes : small.run = .running ∧ 0 ≤ small.pc.toInt ∧
    small.irom[small.pc.toNat]? = some "call sub".toText ∧ decode "call sub".toText = .instr (.call "sub".toText) ∧
    small.labelIndex "sub".toText = some 2 ∧ small.params.stackDepth ≠ some small.stack.length ∧
    small.irom[2]? = some "sub: here".toText ∧ decode "sub: here".toText = .instr (.label "sub".toText) ∧
    small.irom[3]? = some "ret".toText ∧ decode "ret".toText = .instr .ret := by decide +kernel

/-- Each of the ways a run ends: past the end, below 0, an unknown mnemonic, `ret` on an empty stack, `exit`. -/
theorem witness_RunEndsOnlyAsListed :
    (stepped (small.setPc 6) (fun t => decide (t.run = .done)) &&
    stepped (small.setPc (-1)) (fun t => decide (t.run = .halted .pcRange)) &&
    stepped (small.setPc 4) (fun t => decide (t.run = .halted .unknownMnemonic ∧ t.pc = 4)) &&
    stepped (small.setPc 3) (fun t => decide (t.run = .terminated 1)) &&
    stepped (small.setPc 1) (fun t => decide (t.run = .terminated 0))) = true := by decide +kernel

theorem witness_StepKeepsInvariant : small.Inv ∧ StepSafe small :=
  ⟨small_inv, ((small.push 0).redirect 2).advance, next_of_stepped (by decide +kernel)⟩

theorem witness_RunControlKeepsInvariant :
    (match ({ small with run := .idle } : State).load [] ["ret".toText] with
      | .next t => (match t.start false with
        | .next u => decide (u.run = .running ∧ u.irom = ["ret".toText])
        | .fault _ => false
        | .refused _ => false)
      | .fault _ => false
      | .refused _ => false) = true := by decide +kernel

/-- A fault does occur: a program of one `rand` whose queued answer is out of range. -/
theorem witness_OnlyRandCanFault : asked.answers.draws ≠ [] ∧ small.answers.draws = [] ∧
    faults (step { asked with irom := ["rand eax 1 6".toText] }) = true := by decide +kernel

theorem witness_OutputIsUnobservable : step (small.setPc 5) = .next { small.setPc 6 with
    events := [.diagnostic .arity 5] } := next_of_stepped (by decide +kernel)

theorem witness_FlagsChangeOnlyByTheirWriters :
    (after (.setflag .carry) small (fun t => flagOf t.flagBits .carry != flagOf small.flagBits .carry) &&
    after (.add .eax (.lit 1)) small (fun t => flagOf t.flagBits .positive != flagOf small.flagBits .positive) &&
    after (.mov .flags .eax) small (fun t => flagOf t.flagBits .copied != flagOf small.flagBits .copied) &&
    after (.mov .ebx .eax) small (fun t => (t.reg .ebx).fv != (small.reg .ebx).fv)) = true := by decide +kernel

theorem witness_DecodeAfterEncode : (Instr.writeMem (.memLabel .text) ["a \"b\"".toText, [], "\\".toText]).wellFormed = true ∧
    encode (.writeMem (.memLabel .text) ["a \"b\"".toText, [], "\\".toText]) =
      "writeMem text \"a \\\"b\\\"\" \"\" \\".toText := by decide +kernel

theorem witness_ArityDecidesFirst : opTable.any (fun row => arityAdmits row 2 && !arityAdmits row 3) = true ∧
    opTable.any (fun row => arityAdmits row 0 && arityAdmits row 1 && !arityAdmits row 2) = true := by decide +kernel

theorem witness_SourceOperandsResolve : intValue "2147483647".toText = some 2147483647 ∧ inInt32 2147483647 = true ∧
    intValue "2147483648".toText = some 2147483648 ∧ inInt32 2147483648 = false ∧ inInt64 2147483648 = true ∧
    intValue "9223372036854775808".toText = some 9223372036854775808 ∧ inInt64 9223372036854775808 = false ∧
    "pc".toText = Reg.pc.name ∧ "text".toText = MemLabel.text.name ∧ intValue "-".toText = none ∧
    Reg.ofName "-".toText = none ∧ MemLabel.ofName "-".toText = none := by decide +kernel

theorem witness_NamedOperandsResolve : "eax".toText = Reg.eax.name ∧ "failure".toText = Flag.failure.name ∧
    Reg.ofName "EAX".toText = none ∧ Flag.ofName "Zero".toText = none ∧ addrOperand "7".toText = .ok (.lit 7) ∧
    addrOperand "hi".toText = .error .unknownReg ∧ addrOperand "2147483648".toText = .error .literal := by decide +kernel

theorem witness_SubstitutionScansOnce : .scalar '%' ∉ "add ".toText ∧ .scalar '%' ∉ "N".toText ∧
    substScan [("N".toText, "%N%".toText)] none "add %N%%%".toText = "add %N%".toText ∧
    (∀ d ∈ [("A".toText, "1".toText)], d.1 ≠ "N".toText) ∧
    placeholderValue [("A".toText, "1".toText), ("N".toText, "2".toText), ("N".toText, "3".toText)] "N".toText =
      "2".toText := by decide +kernel

theorem witness_LabelIndexIsLastDeclaration : (match small.load [] ["ret".toText] with
    | .refused r => decide (r = .loadWhileRunning)
    | .next _ => false
    | .fault _ => false) = true ∧
    (match ({ small with run := .done } : State).load [] ["L:".toText, "L: x".toText] with
    | .next t => decide (t.labelIndex "L".toText = some 1)
    | .fault _ => false
    | .refused _ => false) = true := by decide +kernel

theorem witness_StartInitializesTheRun : small.params.wf ∧ State.reset.params.wf ∧ State.reset.run ≠ .running ∧
    State.reset.firstRun = true ∧ small.firstRun = false ∧ State.reset.irom = [] ∧ small.run = .running := by
  decide +kernel

/-- A program longer than MAX_LINES exists, though not one to write out; the other clauses at a load of one line. -/
theorem witness_LoadWritesTheProgram : State.reset.run ≠ .running ∧ small.run = .running ∧
    (toolchain [] ["ret".toText]).lines.length ≤ 2 ^ 31 - 1 := by decide +kernel

/-- Lines that open with `#import` and with another token, with nothing, and with white space alone before a comment. -/
theorem witness_import_lines : OpensWith " #import \"f\" ; x".toText "#import".toText " \"f\" ; x".toText ∧
    ImportsPath " #import \"f\" ; x".toText "f".toText ∧ ImportsPath "#import".toText [] ∧
    BeforeComment " a ; b".toText " a ".toText ∧ TrimsTo " a ".toText "a".toText ∧ TrimsTo " \t".toText [] := by
  refine ⟨⟨" ".toText, by decide +kernel⟩,
    ⟨" \"f\" ; x".toText, " \"f\" ".toText, "\"f\"".toText, ⟨" ".toText, by decide +kernel⟩, ⟨"; x".toText, by decide +kernel⟩,
      ⟨" ".toText, " ".toText, by decide +kernel⟩, .inl (by decide +kernel)⟩,
    ⟨[], [], [], ⟨[], by decide +kernel⟩, ⟨[], by decide +kernel⟩, ⟨[], [], by decide +kernel⟩, .inr ⟨rfl, by simp⟩⟩,
    ⟨"; b".toText, by decide +kernel⟩, ⟨" ".toText, " ".toText, by decide +kernel⟩, ⟨" \t".toText, [], by decide +kernel⟩⟩

/-- Definition lines of the four kinds: name and value, no value, no name, and `#import` left in a spliced file. -/
theorem witness_definition_lines : OpensWith "#N 3".toText "#N".toText " 3".toText ∧ TrimsTo " 3".toText "3".toText ∧
    OpensWith "#N".toText "#N".toText [] ∧ TrimsTo [] [] ∧ OpensWith "# 3".toText "#".toText " 3".toText ∧
    "N".toText ≠ "import".toText ∧ OpensWith "#import x".toText "#import".toText " x".toText := by
  refine ⟨⟨[], by decide +kernel⟩, ⟨" ".toText, [], by decide +kernel⟩, ⟨[], by decide +kernel⟩, ⟨[], [], by decide +kernel⟩,
    ⟨[], by decide +kernel⟩, by decide +kernel, ⟨[], by decide +kernel⟩⟩

/-- A loader with two entries of one path: the first counts. -/
theorem witness_loader : ([("f".toText, ["a".toText]), ("f".toText, [])] : Loader) = [] ++ ("f".toText, ["a".toText]) :: [("f".toText, [])] ∧
    ∀ f ∈ ([("f".toText, ["a".toText])] : Loader), f.1 ≠ "g".toText := by decide +kernel

theorem witness_UnknownRegisterIdAnswersSentinel : 25 ≤ 25 ∧ (24 : Nat) = Reg.pc.id.val ∧
    (small.portWriteFv 22 0xFF).flagBits = 0x7F := by decide +kernel

end Sys2Proof.Tests
end

namespace Sys2Proof.Proofs
open Sys2Proof Sys2Proof.Machine

/-- Narrowing a sum is not changed by narrowing its first term before (00_scope R8): wrap32 is reduction modulo 2 ^ 32. -/
theorem wrap32_toInt_wrap32_add (a b : Int) : wrap32 ((wrap32 a).toInt + b) = wrap32 (a + b) := by
  simp only [wrap32, BitVec.ofInt_add, BitVec.ofInt_toInt]

/-- Settles O40: the advance adds back the one that `redirect` took off, and wrapping in between loses nothing, also at
target 0, where pc passes through -1. -/
theorem redirectLandsOnTarget : Obligations.RedirectLandsOnTarget := by
  intro s k
  have writes_pc : s.redirect k = s.setAv .pc (wrap32 ((k : Int) - 1)) := rfl
  have lands : (s.redirect k).advance.pc = wrap32 k := by
    rw [State.pc_advance, State.pc_redirect, wrap32_toInt_wrap32_add, Int.sub_add_cancel]
  exact ⟨writes_pc, lands⟩

end Sys2Proof.Proofs

namespace Sys2Proof.Proofs
open Sys2Proof Sys2Proof.Machine

/-! ## The stack (O20) -/

theorem execPush_of_not_full {s : State} (h : s.params.stackDepth ≠ some s.stack.length) (x : SrcAv) :
    exec (.push x) s = .next (s.push (s.srcAv x)) := by
  have free : s.stackFull = false := by simp [State.stackFull, h]
  simp [exec, execPush, free]

theorem execPop_of_cons {s : State} {v : Word} {rest : List Word} (h : s.stack = v :: rest) (r : Reg) :
    exec (.pop r) s = .next (({ s with stack := rest } : State).setAv r v) := by
  simp only [exec, execPop, h]

theorem execPop_of_nil {s : State} (h : s.stack = []) (r : Reg) : exec (.pop r) s = s.skip .stackEmpty := by
  simp only [exec, execPop, h]

/-- Settles O20: what `push` puts on top is what `pop` takes off, and an empty `pop` is a skip. -/
theorem pushThenPopRestoresStack : Obligations.PushThenPopRestoresStack := by
  refine ⟨fun x y s t free pushed => ?_, fun y s empty => execPop_of_nil empty y⟩
  obtain rfl : s.push (s.srcAv x) = t := by simpa [execPush_of_not_full free] using pushed
  have stack : (s.push (s.srcAv x)).stack = s.srcAv x :: s.stack := rfl
  exact ⟨_, execPop_of_cons stack y, by simp, rfl, rfl⟩

/-! ## What the memory accesses and the host requests leave of the registers -/

@[simp] theorem reg_touch (s : State) (a : Int) (q : Reg) : (s.touch a).reg q = s.reg q := by
  rw [State.touch_eq, State.reg_oob]

@[simp] theorem reg_memWrite (s : State) (a : Int) (v : Word) (q : Reg) : (s.memWrite a v).reg q = s.reg q := by
  obtain ⟨m, written⟩ := s.memWrite_state a v
  rw [written]
  rfl

@[simp] theorem reg_writeCells (s : State) (a : Int) (ws : List Word) (q : Reg) :
    (s.writeCells a ws).reg q = s.reg q := by
  obtain ⟨m, written⟩ := s.writeCells_state a ws
  rw [written]
  rfl

@[simp] theorem reg_copyCells (s : State) (p d : Int) (n : Nat) (q : Reg) : (s.copyCells p d n).reg q = s.reg q := by
  obtain ⟨m, copied⟩ := s.copyCells_state p d n
  rw [copied]
  rfl

theorem reg_of_readsOnly {s t : State} (h : ReadsOnly s t) (q : Reg) : t.reg q = s.reg q := by
  obtain ⟨n, rfl⟩ := h
  exact s.reg_oob n q

@[simp] theorem reg_compareCells (s : State) (a b : Int) (n : Nat) (q : Reg) :
    (s.compareCells a b n).2.reg q = s.reg q := reg_of_readsOnly (s.compareCells_state a b n) q

@[simp] theorem reg_compareText (s : State) (a b : Int) (n : Nat) (q : Reg) :
    (s.compareText a b n).2.reg q = s.reg q := reg_of_readsOnly (s.compareText_state a b n) q

@[simp] theorem reg_scanText (s : State) (a : Int) (n : Nat) (q : Reg) :
    (s.scanText a n).2.reg q = s.reg q := reg_of_readsOnly (s.scanText_state a n) q

@[simp] theorem reg_readCells (s : State) (a : Int) (n : Nat) (q : Reg) : (s.readCells a n).2.reg q = s.reg q := by
  rw [State.readCells_spec, State.reg_oob]

@[simp] theorem reg_askLine (s : State) (q : Reg) : s.askLine.2.reg q = s.reg q := by
  rw [s.askLine_spec.2, State.reg_answered, State.reg_emit]

@[simp] theorem reg_askKey (s : State) (q : Reg) : s.askKey.2.reg q = s.reg q := by
  rw [s.askKey_spec.2, State.reg_answered, State.reg_emit]

@[simp] theorem reg_askOs (s : State) (q : Reg) : s.askOs.2.reg q = s.reg q := by
  rw [s.askOs_spec.2, State.reg_answered, State.reg_emit]

theorem reg_askRandom {s t : State} {lo hi v : Word} (hlt : lo.toInt < hi.toInt) (h : s.askRandom lo hi = some (v, t))
    (q : Reg) : t.reg q = s.reg q := by
  obtain ⟨-, -, -, rfl⟩ := State.askRandom_spec hlt h
  rw [State.reg_answered, State.reg_emit]

/-! ## One bit of a condition code after a write (10_state R50) -/

theorem bit_injective {f g : Flag} (h : f.bit = g.bit) : f = g := by
  cases f <;> cases g <;> simp_all [Flag.bit]

/-- Bit 7 is no flag (10_state R56). -/
theorem bit_lt_seven (f : Flag) : f.bit < 7 := by cases f <;> decide

theorem getLsbD_flagMask (f : Flag) (k : Nat) : ((1 : FlagBits) <<< f.bit).getLsbD k = decide (k = f.bit) := by
  have := bit_lt_seven f
  rw [Bool.eq_iff_iff]
  simp [BitVec.getLsbD_shiftLeft, BitVec.getLsbD_one]
  omega

theorem getLsbD_raiseFlag_of_ne (b : FlagBits) {f : Flag} {k : Nat} (h : k ≠ f.bit) :
    (raiseFlag b f).getLsbD k = b.getLsbD k := by
  rw [raiseFlag, BitVec.getLsbD_or, getLsbD_flagMask, decide_eq_false h, Bool.or_false]

theorem getLsbD_dropFlag_of_ne (b : FlagBits) {f : Flag} {k : Nat} (h : k ≠ f.bit) :
    (dropFlag b f).getLsbD k = b.getLsbD k := by
  rw [dropFlag, BitVec.getLsbD_and, BitVec.getLsbD_not, getLsbD_flagMask]
  have := b.getLsbD_of_ge k
  by_cases hk : k < 8 <;> simp_all

/-- The full move raises Copied (41_movement R204). -/
theorem copiedBits_eq_raiseFlag (b : FlagBits) : copiedBits b = raiseFlag b .copied := rfl

/-! ## What an instruction can do to the flags of the registers -/

/-- No register's `fv` differs. -/
def FvKept (s t : State) : Prop := ∀ q, (t.reg q).fv = (s.reg q).fv

/-- The `fv` of register `d` is `b` afterwards, and no other register's `fv` differs. -/
def FvWritten (s t : State) (d : Reg) (b : FlagBits) : Prop :=
  ∀ q, (t.reg q).fv = if q = d then b else (s.reg q).fv

/-- Zero, Positive and Negative of F are written, and nothing else of any `fv`. -/
def SignsWritten (s t : State) : Prop := ∃ z p n, FvWritten s t .flags (zpnBits z p n s.flagBits)

/-- A full move to `d` (41_movement R204, 46_io_meta R353). -/
def MovesTo (i : Instr) (d : Reg) : Prop := (∃ r, i = .mov d r) ∨ ∃ f r, i = .cmovf f d r

/-- All that an instruction can do to the `fv`s: the writers of the table of 10_state R50, each with what it writes. -/
inductive FvEffect (i : Instr) (s t : State) : Prop
  | kept (same : FvKept s t)
  | signs (listed : writesSigns i = true) (written : SignsWritten s t)
  | raised (f : Flag) (isSet : i = .setflag f) (written : FvWritten s t .flags (raiseFlag s.flagBits f))
  | dropped (f : Flag) (isClear : i = .clearflag f) (written : FvWritten s t .flags (dropFlag s.flagBits f))
  | moved (d : Reg) (moves : MovesTo i d) (written : FvWritten s t d (copiedBits (s.reg d).fv))

theorem FvKept.of_next {s t u : State} (h : (.next u : Result) = .next t) (kept : FvKept s u) : FvKept s t := by
  cases h
  exact kept

theorem FvKept.refl (s : State) : FvKept s s := fun _ => rfl

theorem FvKept.of_skip {s t : State} {code : DiagCode} (h : s.skip code = .next t) : FvKept s t := .of_next h (.refl s)

theorem FvWritten.of_setFlagBits {s t : State} {b : FlagBits} (h : (.next (s.setFlagBits b) : Result) = .next t) :
    FvWritten s t .flags b := by
  cases h
  exact s.fv_setFlagBits b

theorem FvWritten.of_fullMove {s t : State} {d r : Reg} (h : (.next (s.fullMove d r) : Result) = .next t) :
    FvWritten s t d (copiedBits (s.reg d).fv) := by
  cases h
  exact s.fv_fullMove d r

theorem SignsWritten.of_setZPN {s t u : State} {z p n : Bool} (h : (.next (u.setZPN z p n) : Result) = .next t)
    (kept : FvKept s u) : SignsWritten s t := by
  cases h
  have before : u.flagBits = s.flagBits := kept .flags
  exact ⟨z, p, n, fun q => by rw [State.fv_setZPN, before, kept q]⟩

/-! ## The flags after each shape of instruction -/

/-- A LABEL operand: an unknown name skips, a known one goes on with its index (30_encoding R149). -/
theorem withLabel_next {s t : State} {l : Text} {k : Nat → Result} (h : s.withLabel l k = .next t) :
    s.skip .unknownLabel = .next t ∨ ∃ n, k n = .next t := by
  cases known : s.labelIndex l with
  | none => exact .inl (by rwa [State.withLabel_unknown known] at h)
  | some n => exact .inr ⟨n, by rwa [State.withLabel_known known] at h⟩

theorem fvKept_jumpIf {s t : State} {l : Text} {c : Bool} (h : s.jumpIf l c = .next t) : FvKept s t := by
  obtain skips | ⟨n, jumps⟩ := withLabel_next h
  · exact .of_skip skips
  · cases c with
    | true => exact .of_next jumps (s.fv_redirect n)
    | false => exact .of_next jumps (.refl s)

theorem fvKept_call {s t : State} {l : Text} (h : exec (.call l) s = .next t) : FvKept s t := by
  obtain skips | ⟨n, calls⟩ := withLabel_next h
  · exact .of_skip skips
  · split at calls
    · exact .of_skip calls
    · exact .of_next calls ((s.push s.pc).fv_redirect n)

theorem fvKept_loop {s t : State} {l : Text} (h : exec (.loop l) s = .next t) : FvKept s t := by
  obtain skips | ⟨n, counts⟩ := withLabel_next h
  · exact .of_skip skips
  · dsimp only at counts
    split at counts
    · exact .of_next counts fun q => by rw [State.fv_redirect, State.fv_setAv]
    · exact .of_next counts (s.fv_setAv .ecx · _)

theorem fvKept_ret {s t : State} (h : exec .ret s = .next t) : FvKept s t := by
  simp only [exec, execRet] at h
  split at h
  · exact .of_next h (.refl s)
  · exact .of_next h (State.fv_setPc _ _)

theorem fvKept_exit {s t : State} {n : Option SrcAv} (h : exec (.exit n) s = .next t) : FvKept s t := by
  cases n with
  | none => exact .of_next h (.refl s)
  | some x => exact .of_next h (.refl s)

theorem fvKept_push {s t : State} {x : SrcAv} (h : exec (.push x) s = .next t) : FvKept s t := by
  simp only [exec, execPush] at h
  split at h
  · exact .of_skip h
  · exact .of_next h (.refl s)

theorem fvKept_pop {s t : State} {r : Reg} (h : exec (.pop r) s = .next t) : FvKept s t := by
  cases stack : s.stack with
  | nil => exact .of_skip (execPop_of_nil stack r ▸ h)
  | cons v rest =>
    rw [execPop_of_cons stack r] at h
    exact .of_next h (State.fv_setAv _ r · v)

theorem fvKept_set {s t : State} {r : Reg} {ts : List Text} (h : exec (.set r ts) s = .next t) : FvKept s t := by
  have named : FvKept s (s.setVal r (.text (joinSpaced ts))) := (s.fv_setVal r · _)
  simp only [exec, execSet] at h
  split at h
  · split at h
    · split at h
      · exact .of_next h fun q => by rw [State.fv_setAv, named q]
      · exact .of_next h named
    · exact .of_next h named
  · exact .of_next h named

theorem fvKept_writeMem {s t : State} {a : Addr} {ts : List Text} (h : exec (.writeMem a ts) s = .next t) :
    FvKept s t := by
  simp only [exec, execWriteMem] at h
  split at h
  · exact .of_skip h
  · exact .of_next h fun q => by rw [reg_writeCells]

theorem fvKept_sleep {s t : State} {ms : SrcAv} (h : exec (.sleep ms) s = .next t) : FvKept s t := by
  simp only [exec, execSleep] at h
  split at h
  · exact .of_skip h
  · exact .of_next h (.refl s)

theorem fvKept_rand {s t : State} {r : Reg} {lo hi : SrcAv} (h : exec (.rand r lo hi) s = .next t) : FvKept s t := by
  simp only [exec, execRand] at h
  split at h
  · exact .of_skip h
  · next nonempty =>
    split at h
    · next v u drawn => exact .of_next h fun q => by rw [State.fv_setAv, reg_askRandom (not_le.mp nonempty) drawn]
    · cases h

theorem signsWritten_arith {s t : State} {d : Reg} {x : SrcAv} {op : Word → Word → Word}
    (h : s.arith d x op = .next t) : SignsWritten s t := .of_setZPN h (s.fv_setAv d · _)

/-- A divisor of 0 skips before any flag is written (42_arithmetic R225, R226). -/
theorem fvEffect_arithNonzero {i : Instr} {s t : State} {d : Reg} {x : SrcAv} {op : Word → Word → Word}
    (listed : writesSigns i = true) (h : s.arithNonzero d x op = .next t) : FvEffect i s t := by
  by_cases zero : s.srcAv x = 0
  · exact .kept (.of_skip (State.arithNonzero_zero zero d op ▸ h))
  · exact .signs listed (signsWritten_arith (State.arithNonzero_of_ne zero d op ▸ h))

/-- A literal that does not fit skips before any flag is written (45_memory_ops R316). -/
theorem fvEffect_cmpStr {s t : State} {a : Addr} {b : StrAddr} (h : exec (.cmpStr a b) s = .next t) :
    FvEffect (.cmpStr a b) s t := by
  cases b with
  | addr b => exact .signs rfl (.of_setZPN h fun q => by rw [reg_compareText])
  | literal l =>
    simp only [exec, execCmpStr] at h
    split at h
    · exact .kept (.of_skip h)
    · exact .signs rfl (.of_setZPN h fun q => by rw [reg_writeCells, reg_compareText, reg_writeCells])

theorem fvEffect_cmovf {s t : State} {f : Flag} {d r : Reg} (h : exec (.cmovf f d r) s = .next t) :
    FvEffect (.cmovf f d r) s t := by
  simp only [exec, execCmovf] at h
  split at h
  · exact .moved d (.inr ⟨f, r, rfl⟩) (.of_fullMove h)
  · exact .kept (.of_next h (.refl s))

/-- Every instruction does to the `fv`s what `FvEffect` lists for it, and no more. -/
theorem exec_fvEffect {i : Instr} {s t : State} (h : exec i s = .next t) : FvEffect i s t := by
  cases i with
  | add | sub | mul | shl | shr | and | or | xor => exact .signs rfl (signsWritten_arith h)
  | div | mod => exact fvEffect_arithNonzero rfl h
  | not d => exact .signs rfl (.of_setZPN h (s.fv_setAv d · _))
  | cmp | cmpv => exact .signs rfl (.of_setZPN h (.refl s))
  | cmpMem => exact .signs rfl (.of_setZPN h fun q => by rw [reg_compareCells])
  | cmpStr => exact fvEffect_cmpStr h
  | setflag f => exact .raised f rfl (.of_setFlagBits h)
  | clearflag f => exact .dropped f rfl (.of_setFlagBits h)
  | mov d r => exact .moved d (.inl ⟨r, rfl⟩) (.of_fullMove h)
  | cmovf => exact fvEffect_cmovf h
  | jmp | jz | jnz | jn | jnn | jp | jnp | jf | jnf | jo | jno => exact .kept (fvKept_jumpIf h)
  | call => exact .kept (fvKept_call h)
  | ret => exact .kept (fvKept_ret h)
  | loop => exact .kept (fvKept_loop h)
  | exit => exact .kept (fvKept_exit h)
  | push => exact .kept (fvKept_push h)
  | pop => exact .kept (fvKept_pop h)
  | set => exact .kept (fvKept_set h)
  | setAV r => exact .kept (.of_next h (s.fv_setAv r · _))
  | setLV r => exact .kept (.of_next h (s.fv_setLv r · _))
  | movv d => exact .kept (.of_next h (s.fv_setVal d · _))
  | readMem => exact .kept (.of_next h fun q => by rw [State.fv_setAv, State.memRead, reg_touch])
  | writeRawMem => exact .kept (.of_next h fun q => by rw [reg_memWrite])
  | writeMem => exact .kept (fvKept_writeMem h)
  | fillMem => exact .kept (.of_next h fun q => by rw [reg_writeCells])
  | copyMem => exact .kept (.of_next h fun q => by rw [reg_copyCells])
  | printMem => exact .kept (.of_next h fun q => by rw [State.reg_emit, reg_readCells])
  | printStr => exact .kept (.of_next h fun q => by rw [State.reg_emit, reg_scanText])
  | read => exact .kept (.of_next h fun q => by rw [State.fv_setVal, reg_askLine])
  | readKey => exact .kept (.of_next h fun q => by rw [State.fv_setLv, State.fv_setAv, State.fv_setVal, reg_askKey])
  | os => exact .kept (.of_next h fun q => by rw [State.fv_setVal, reg_askOs])
  | rand => exact .kept (fvKept_rand h)
  | sleep => exact .kept (fvKept_sleep h)
  | write | writeln | writeAV | writeLV | writeFV | writeVal | dump | beep | brk | label | directive | empty =>
    exact .kept (.of_next h (.refl s))

/-! ## Who can have changed a bit (O47) -/

/-- The writers of bit `k` of F. -/
theorem FvEffect.bit_writer {i : Instr} {s t : State} (effect : FvEffect i s t) {k : Nat}
    (changed : t.flagBits.getLsbD k ≠ s.flagBits.getLsbD k) :
    (∃ f : Flag, k = f.bit ∧ (i = .setflag f ∨ i = .clearflag f)) ∨ (k < 3 ∧ writesSigns i = true) ∨
      (k = Flag.copied.bit ∧ MovesTo i .flags) := by
  by_contra unlisted
  push Not at unlisted
  obtain ⟨notFlag, notSigns, notCopied⟩ := unlisted
  apply changed
  cases effect with
  | kept same => exact congrArg (BitVec.getLsbD · k) (same .flags)
  | signs listed written =>
    obtain ⟨z, p, n, written⟩ := written
    rw [show t.flagBits = _ from written .flags]
    exact getLsbD_zpnBits z p n _ k (not_lt.mp fun low => notSigns low listed)
  | raised f isSet written =>
    rw [show t.flagBits = _ from written .flags]
    exact getLsbD_raiseFlag_of_ne _ fun hk => (notFlag f hk).1 isSet
  | dropped f isClear written =>
    rw [show t.flagBits = _ from written .flags]
    exact getLsbD_dropFlag_of_ne _ fun hk => (notFlag f hk).2 isClear
  | moved d moves written =>
    by_cases target : Reg.flags = d
    · subst target
      rw [State.flagBits, written .flags, if_pos rfl, copiedBits_eq_raiseFlag]
      exact getLsbD_raiseFlag_of_ne _ fun hk => notCopied hk moves
    · rw [State.flagBits, written .flags, if_neg target, State.flagBits]

/-- The writers of a flag (the table of 10_state R50). -/
theorem FvEffect.flag_writer {i : Instr} {s t : State} (effect : FvEffect i s t) {f : Flag}
    (changed : flagOf t.flagBits f ≠ flagOf s.flagBits f) :
    i = .setflag f ∨ i = .clearflag f ∨ (f.bit < 3 ∧ writesSigns i = true) ∨ (f = .copied ∧ MovesTo i .flags) := by
  obtain ⟨g, bit, writes⟩ | signs | ⟨bit, moves⟩ := effect.bit_writer changed
  · obtain rfl := bit_injective bit
    exact or_assoc.mp (.inl writes)
  · exact .inr (.inr (.inl signs))
  · exact .inr (.inr (.inr ⟨bit_injective bit, moves⟩))

/-- Bit 7 of F has no writer (10_state R56). -/
theorem FvEffect.bit_seven {i : Instr} {s t : State} (effect : FvEffect i s t) :
    t.flagBits.getLsbD 7 = s.flagBits.getLsbD 7 := by
  by_contra changed
  obtain ⟨f, bit, -⟩ | ⟨low, -⟩ | ⟨bit, -⟩ := effect.bit_writer changed
  · exact (bit_lt_seven f).ne bit.symm
  · omega
  · exact (bit_lt_seven .copied).ne bit.symm

/-- Outside F only a full move to the register writes its `fv`, and only Copied (10_state R55). -/
theorem FvEffect.other_fv {i : Instr} {s t : State} (effect : FvEffect i s t) {q : Reg} (other : q ≠ .flags)
    (changed : (t.reg q).fv ≠ (s.reg q).fv) : (t.reg q).fv = copiedBits (s.reg q).fv ∧ MovesTo i q := by
  have only_flags {b : FlagBits} (written : FvWritten s t .flags b) : (t.reg q).fv = (s.reg q).fv := by
    rw [written q, if_neg other]
  cases effect with
  | kept same => exact absurd (same q) changed
  | signs _ written =>
    obtain ⟨z, p, n, written⟩ := written
    exact absurd (only_flags written) changed
  | raised f _ written => exact absurd (only_flags written) changed
  | dropped f _ written => exact absurd (only_flags written) changed
  | moved d moves written =>
    by_cases target : q = d
    · subst target
      exact ⟨by rw [written q, if_pos rfl], moves⟩
    · exact absurd (by rw [written q, if_neg target]) changed

/-- Settles O47: each clause is the table of writers of `FvEffect.flag_writer`, read at the flags it names. -/
theorem flagsChangeOnlyByTheirWriters : Obligations.FlagsChangeOnlyByTheirWriters := by
  intro i s t answered
  have effect := exec_fvEffect answered
  refine ⟨fun f named changed => ?_, fun f named changed => ?_, fun changed => ?_, effect.bit_seven,
    fun q other changed => effect.other_fv other changed⟩
  · have high : ¬ f.bit < 3 ∧ f ≠ .copied := by clear changed; revert f; decide
    simpa [high] using effect.flag_writer changed
  · have notCopied : f ≠ .copied := by rintro rfl; simp at named
    obtain set | clear | ⟨-, signs⟩ | ⟨copied, -⟩ := effect.flag_writer changed
    · exact .inl set
    · exact .inr (.inl clear)
    · exact .inr (.inr signs)
    · exact absurd copied notCopied
  · obtain set | clear | ⟨low, -⟩ | ⟨-, moves⟩ := effect.flag_writer changed
    · exact .inl set
    · exact .inr (.inl clear)
    · exact absurd low (by decide)
    · exact .inr (.inr moves)

end Sys2Proof.Proofs

namespace Sys2Proof.Proofs
open Sys2Proof Sys2Proof.Machine

/-! ## The memory controllers (O21) -/

theorem inRange_eq_false_iff (s : State) (a : Int) :
    s.inRange a = false ↔ a < 0 ∨ (s.params.memSize : Int) ≤ a := by
  rw [← Bool.not_eq_true, State.inRange_iff]
  omega

section
variable {s : State} {a : Int}

theorem memRead_of_inRange (inside : s.inRange a = true) : s.memRead a = (Memory.read s.mem a.toNat, s) := by
  simp only [State.memRead, State.cell, State.touch, if_pos inside]

theorem memRead_of_outOfRange (outside : s.inRange a = false) : s.memRead a = (0, s.diag .memOob) := by
  simp only [State.memRead, State.cell, State.touch, outside, Bool.false_eq_true, if_false]

theorem memWrite_of_inRange (inside : s.inRange a = true) (v : Word) :
    s.memWrite a v = { s with mem := Memory.write s.mem a.toNat v } := if_pos inside

theorem memWrite_of_outOfRange (outside : s.inRange a = false) (v : Word) : s.memWrite a v = s.diag .memOob :=
  if_neg (Bool.not_eq_true _ ▸ outside)

end

/-- Settles O21: both controllers branch on `inRange` alone, and on a canonical memory the write in range is seen at its
own address only (`State.cell_memWrite`). -/
theorem controllersReadAndWriteOneCell : Obligations.ControllersReadAndWriteOneCell := by
  intro s a v
  constructor
  · intro low high
    have inside : s.inRange a = true := (State.inRange_iff s a).mpr ⟨low, high⟩
    refine ⟨memRead_of_inRange inside, fun canonical => ⟨?_, fun b other => ?_, _, memWrite_of_inRange inside v⟩⟩
    · rw [State.cell_memWrite canonical, if_pos ⟨rfl, inside⟩]
    · rw [State.cell_memWrite canonical, if_neg fun same => other same.1]
  · intro outOfRange
    have outside : s.inRange a = false := (inRange_eq_false_iff s a).mpr outOfRange
    exact ⟨memRead_of_outOfRange outside, memWrite_of_outOfRange outside v⟩

end Sys2Proof.Proofs

namespace Sys2Proof.Proofs
open Sys2Proof Sys2Proof.Machine

/-! ## The label indexer (O56) -/

/-- Line `k` of a sequence declares `name`: its first token is the name with a colon (30_encoding R128). -/
def DeclaresAt (lines : List Text) (name : Text) (k : Nat) : Prop :=
  lines[k]?.map firstWord = some (name ++ [.scalar ':'])

/-- Line `k` declares `name` and no later line does. -/
def LastDeclares (lines : List Text) (name : Text) (k : Nat) : Prop :=
  DeclaresAt lines name k ∧ ∀ j, k < j → ¬ DeclaresAt lines name j

theorem DeclaresAt.lt_length {lines : List Text} {name : Text} {k : Nat} (h : DeclaresAt lines name k) :
    k < lines.length := by
  by_contra beyond
  simp [DeclaresAt, List.getElem?_eq_none (not_lt.mp beyond)] at h

theorem not_lastDeclares_nil (name : Text) (k : Nat) : ¬ LastDeclares [] name k :=
  fun h => absurd h.1.lt_length (Nat.not_lt_zero k)

section
variable (ls : List Text) (l name : Text) (k : Nat)

theorem declaresAt_concat :
    DeclaresAt (ls ++ [l]) name k ↔
      DeclaresAt ls name k ∨ (k = ls.length ∧ firstWord l = name ++ [.scalar ':']) := by
  obtain before | rfl | beyond := lt_trichotomy k ls.length
  · simp [DeclaresAt, List.getElem?_append_left before, before.ne]
  · simp [DeclaresAt]
  · simp [DeclaresAt, List.getElem?_eq_none beyond.le, List.getElem?_eq_none (l := ls ++ [l]) (by simpa using beyond),
      beyond.ne']

variable {l name}

/-- A declaration at the end takes over from all before it. -/
theorem lastDeclares_concat_of_declares (h : firstWord l = name ++ [.scalar ':']) :
    LastDeclares (ls ++ [l]) name k ↔ k = ls.length := by
  have at_end : DeclaresAt (ls ++ [l]) name ls.length := (declaresAt_concat ..).mpr (.inr ⟨rfl, h⟩)
  constructor
  · rintro ⟨declares, last⟩
    have low : k < ls.length + 1 := by simpa using declares.lt_length
    have high : ¬ k < ls.length := fun earlier => last _ earlier at_end
    omega
  · rintro rfl
    refine ⟨at_end, fun j later declares => ?_⟩
    have low : j < ls.length + 1 := by simpa using declares.lt_length
    omega

/-- Any other line at the end leaves the last declaration where it is. -/
theorem lastDeclares_concat_of_not (h : firstWord l ≠ name ++ [.scalar ':']) :
    LastDeclares (ls ++ [l]) name k ↔ LastDeclares ls name k := by
  simp only [LastDeclares, declaresAt_concat, h, and_false, or_false]

end

theorem indexFrom_append (table : List (Text × Nat)) (k : Nat) (xs ys : List Text) :
    indexFrom table k (xs ++ ys) = indexFrom (indexFrom table k xs) (k + xs.length) ys := by
  induction xs generalizing table k with
  | nil => rfl
  | cons x xs ih =>
    have shift : k + (x :: xs).length = k + 1 + xs.length := by rw [List.length_cons]; omega
    rw [List.cons_append, shift]
    simp only [indexFrom]
    split
    · exact ih ..
    · exact ih ..

/-- The indexer's test of a line: it ends its first token in a colon, and the name is what stands before it. -/
theorem declares_iff (w name : Text) :
    w = name ++ [.scalar ':'] ↔ w.getLast? = some (.scalar ':') ∧ name = w.dropLast := by
  constructor
  · rintro rfl
    simp
  · rintro ⟨colon, rfl⟩
    exact (List.dropLast_append_getLast? _ colon).symm

/-- What one more line does to the lookup of a name. -/
theorem lookupLabel_indexLabels_concat (ls : List Text) (l name : Text) :
    lookupLabel (indexLabels (ls ++ [l])) name =
      if firstWord l = name ++ [.scalar ':'] then some ls.length else lookupLabel (indexLabels ls) name := by
  rw [indexLabels, indexFrom_append, Nat.zero_add]
  simp only [indexFrom, declares_iff]
  by_cases colon : (firstWord l).getLast? = some (.scalar ':')
  · simp only [colon, if_true, true_and, lookupLabel_setLabel, indexLabels]
  · simp only [colon, if_false, false_and, indexLabels]

/-- The label index holds every name's last declaration. -/
theorem lookupLabel_indexLabels (lines : List Text) (name : Text) (k : Nat) :
    lookupLabel (indexLabels lines) name = some k ↔ LastDeclares lines name k := by
  induction lines using List.reverseRecOn with
  | nil =>
    have absent : lookupLabel (indexLabels []) name = none := rfl
    simp [absent, not_lastDeclares_nil]
  | append_singleton ls l ih =>
    rw [lookupLabel_indexLabels_concat]
    by_cases declares : firstWord l = name ++ [.scalar ':']
    · rw [if_pos declares, lastDeclares_concat_of_declares ls k declares, Option.some.injEq, eq_comm]
    · rw [if_neg declares, lastDeclares_concat_of_not ls k declares, ih]

/-- A load that answers leaves beside its lines their own label index (30_encoding R129). -/
theorem lrom_of_load {s t : State} {files : Loader} {source : List Text} (h : s.load files source = .next t) :
    t.lrom = indexLabels t.irom := by
  simp only [State.load] at h
  split at h
  · cases h
  · split at h
    · cases h
    · cases h
      rfl

/-- Settles O56: the label ROM a load leaves is the index of the lines it leaves beside it. -/
theorem labelIndexIsLastDeclaration : Obligations.LabelIndexIsLastDeclaration := by
  intro s t files source name k loaded
  rw [State.labelIndex, lrom_of_load loaded]
  exact lookupLabel_indexLabels t.irom name k

end Sys2Proof.Proofs

namespace Sys2Proof.Proofs
open Sys2Proof Sys2Proof.Machine

/-! ## Names are matched exactly (10_state R34, 30_encoding R150, R151) -/

/-- What the lookup of a text by name finds is named by that text. -/
theorem eq_name_of_find? {α : Type} {all : List α} {name : α → Text} {t : Text} {x : α}
    (found : all.find? (fun y => name y == t) = some x) : t = name x :=
  (beq_iff_eq.mp (List.find?_some (p := fun y => name y == t) found)).symm

theorem regOfName_eq_some_iff (t : Text) (r : Reg) : Reg.ofName t = some r ↔ t = r.name :=
  ⟨eq_name_of_find?, fun named => named ▸ Reg.ofName_name r⟩

theorem flagOfName_eq_some_iff (t : Text) (f : Flag) : Flag.ofName t = some f ↔ t = f.name :=
  ⟨eq_name_of_find?, fun named => named ▸ Flag.ofName_name f⟩

theorem memLabelOfName_eq_some_iff (t : Text) (m : MemLabel) : MemLabel.ofName t = some m ↔ t = m.name :=
  ⟨eq_name_of_find?, fun named => named ▸ MemLabel.ofName_name m⟩

theorem regOfName_eq_none_iff (t : Text) : Reg.ofName t = none ↔ ∀ r : Reg, t ≠ r.name := by
  simp only [Option.eq_none_iff_forall_ne_some, ne_eq, regOfName_eq_some_iff]

theorem flagOfName_eq_none_iff (t : Text) : Flag.ofName t = none ↔ ∀ f : Flag, t ≠ f.name := by
  simp only [Option.eq_none_iff_forall_ne_some, ne_eq, flagOfName_eq_some_iff]

theorem memLabelOfName_eq_none_iff (t : Text) : MemLabel.ofName t = none ↔ ∀ m : MemLabel, t ≠ m.name := by
  simp only [Option.eq_none_iff_forall_ne_some, ne_eq, memLabelOfName_eq_some_iff]

/-- No memory label is named like a register. -/
theorem regOfName_memLabelName (m : MemLabel) : Reg.ofName m.name = none := by cases m <;> rfl

/-! ## The source operands, case by case (30_encoding R147, R148, R150) -/

section
variable {t : Text}

theorem srcAvOperand_of_intValue {v : Int} (h : intValue t = some v) :
    srcAvOperand t = if inInt32 v then .ok (.lit (wrap32 v)) else .error .literal := by
  simp only [srcAvOperand, h]

theorem srcLvOperand_of_intValue {v : Int} (h : intValue t = some v) :
    srcLvOperand t = if inInt64 v then .ok (.lit (BitVec.ofInt 64 v)) else .error .literal := by
  simp only [srcLvOperand, h]

theorem addrOperand_of_intValue {v : Int} (h : intValue t = some v) :
    addrOperand t = if inInt32 v then .ok (.lit (wrap32 v)) else .error .literal := by
  simp only [addrOperand, h]

theorem srcAvOperand_of_unknown (int : intValue t = none) (reg : Reg.ofName t = none) :
    srcAvOperand t = .error .unknownReg := by
  simp only [srcAvOperand, int, reg]

theorem srcLvOperand_of_unknown (int : intValue t = none) (reg : Reg.ofName t = none) :
    srcLvOperand t = .error .unknownReg := by
  simp only [srcLvOperand, int, reg]

theorem addrOperand_of_unknown (int : intValue t = none) (memLabel : MemLabel.ofName t = none)
    (reg : Reg.ofName t = none) : addrOperand t = .error .unknownReg := by
  simp only [addrOperand, int, memLabel, reg]

end

/-- Settles O53: a register's or a memory label's name is never integer-shaped, nor is one the other's. -/
theorem sourceOperandsResolve : Obligations.SourceOperandsResolve := by
  intro t
  refine ⟨fun v int inside => ?_, fun v int outside => ?_, fun v int inside => ?_, fun v int outside => ?_, ?_, ?_,
    fun int unnamed => ?_, fun s v => ⟨rfl, rfl⟩, fun s r => ⟨rfl, rfl⟩, fun s v => rfl, fun s r => rfl,
    fun s => ⟨rfl, rfl⟩⟩
  · simp [srcAvOperand_of_intValue int, addrOperand_of_intValue int, inside]
  · simp [srcAvOperand_of_intValue int, addrOperand_of_intValue int, outside]
  · simp [srcLvOperand_of_intValue int, inside]
  · simp [srcLvOperand_of_intValue int, outside]
  · rintro r rfl
    exact ⟨srcAvOperand_token (.reg r), srcLvOperand_token (.reg r), addrOperand_token (.reg r)⟩
  · rintro m rfl
    exact ⟨addrOperand_token (.memLabel m),
      srcAvOperand_of_unknown (intValue_memLabelName m) (regOfName_memLabelName m)⟩
  · have reg : Reg.ofName t = none := (regOfName_eq_none_iff t).mpr unnamed
    exact ⟨srcAvOperand_of_unknown int reg, srcLvOperand_of_unknown int reg,
      fun noLabel => addrOperand_of_unknown int ((memLabelOfName_eq_none_iff t).mpr noLabel) reg⟩

/-! ## REG, FLAG, STRADDR and GVAL (30_encoding R145, R151, R153, R155) -/

section
variable {t : Text}

theorem regOperand_eq_ok_iff (r : Reg) : regOperand t = .ok r ↔ t = r.name := by
  rw [← regOfName_eq_some_iff, regOperand]
  cases Reg.ofName t <;> simp

theorem regOperand_of_unknown (h : Reg.ofName t = none) : regOperand t = .error .unknownReg := by
  simp only [regOperand, h]

theorem flagOperand_eq_ok_iff (f : Flag) : flagOperand t = .ok f ↔ t = f.name := by
  rw [← flagOfName_eq_some_iff, flagOperand]
  cases Flag.ofName t <;> simp

theorem flagOperand_of_unknown (h : Flag.ofName t = none) : flagOperand t = .error .unknownFlag := by
  simp only [flagOperand, h]

theorem gArgOperand_of_ofName {r : Reg} (h : Reg.ofName t = some r) : gArgOperand t = .reg r := by
  simp only [gArgOperand, h]

theorem gArgOperand_of_unknown (h : Reg.ofName t = none) : gArgOperand t = .text t := by
  simp only [gArgOperand, h]

theorem strAddrOperand_of_ok {a : Addr} (h : addrOperand t = .ok a) : strAddrOperand t = .ok (.addr a) := by
  simp only [strAddrOperand, h]

theorem strAddrOperand_of_unknownReg (h : addrOperand t = .error .unknownReg) :
    strAddrOperand t = .ok (.literal t) := by
  simp only [strAddrOperand, h]

theorem strAddrOperand_of_literal (h : addrOperand t = .error .literal) : strAddrOperand t = .error .literal := by
  simp only [strAddrOperand, h]

end

/-- Settles O54: each clause is one case of an operand kind, and a name is matched by nothing but itself. -/
theorem namedOperandsResolve : Obligations.NamedOperandsResolve := by
  intro t
  refine ⟨regOperand_eq_ok_iff, fun unnamed => ?_, ?_, flagOperand_eq_ok_iff, fun unnamed => ?_,
    fun _ => strAddrOperand_of_ok, strAddrOperand_of_unknownReg, strAddrOperand_of_literal, fun _ _ => rfl,
    fun _ _ => rfl⟩
  · have reg : Reg.ofName t = none := (regOfName_eq_none_iff t).mpr unnamed
    exact ⟨regOperand_of_unknown reg, gArgOperand_of_unknown reg⟩
  · rintro r rfl
    exact gArgOperand_of_ofName (Reg.ofName_name r)
  · exact flagOperand_of_unknown ((flagOfName_eq_none_iff t).mpr unnamed)

end Sys2Proof.Proofs

namespace Sys2Proof.Proofs
open Sys2Proof Sys2Proof.Machine

/-! ## The loop head and an unknown mnemonic (O38, O42) -/

theorem step_of_pc_negative {s : State} (running : s.run = .running) (negative : s.pc.toInt < 0) :
    step s = .next (s.runHalt .pcRange) := by
  simp only [step, State.stepOnce, running, State.runStep, if_pos negative]

theorem step_of_no_line {s : State} (running : s.run = .running) (nonneg : 0 ≤ s.pc.toInt)
    (noLine : s.irom[s.pc.toNat]? = none) : step s = .next { s with run := .done } := by
  simp only [step, State.stepOnce, running, State.runStep, if_neg (not_lt.mpr nonneg), State.fetch, noLine]

theorem count_le_pc_of_no_line {s : State} (nonneg : 0 ≤ s.pc.toInt) (noLine : s.irom[s.pc.toNat]? = none) :
    (s.count : Int) ≤ s.pc.toInt := by
  have pastEnd : s.count ≤ s.pc.toNat := List.getElem?_eq_none_iff.mp noLine
  have sameIndex : s.pc.toInt = s.pc.toNat :=
    BitVec.toInt_eq_toNat_of_msb (by simpa [BitVec.msb_eq_toInt] using nonneg)
  omega

theorem decode_of_unknown_mnemonic {line m : Text} {args : List Text} (instr : classify line = .instr)
    (tokens : tokenize line = m :: args) (noRow : rowOfMnemonic m = none) : decode line = .unknown m := by
  simp only [decode, instr, tokens, decodeTokens, noRow]

theorem runLine_of_unknown {line m : Text} (unknown : decode line = .unknown m) (s : State) :
    s.runLine line = .next (s.runHalt .unknownMnemonic) := by
  simp only [State.runLine, unknown]

theorem runLine_of_skip {line : Text} {code : DiagCode} (skips : decode line = .skip code) (s : State) :
    s.runLine line = finishResult (s.skip code) := by
  simp only [State.runLine, skips]

theorem runLine_of_instr {line : Text} {i : Instr} (decoded : decode line = .instr i) (s : State) :
    s.runLine line = finishResult (exec i s) := by
  simp only [State.runLine, decoded]

/-- Settles O38: a mnemonic without a row makes the line one the decoder calls unknown, and the halt writes RUN and its
diagnostic only. -/
theorem unknownMnemonicHalts : Obligations.UnknownMnemonicHalts := by
  intro s line m args running nonneg fetched instr tokens noRow
  have unknown : decode line = .unknown m := decode_of_unknown_mnemonic instr tokens noRow
  rw [step_of_line running nonneg fetched, runLine_of_unknown unknown]
  rfl

/-! ## What the memory accesses and the host requests leave of RUN -/

@[simp] theorem run_touch (s : State) (a : Int) : (s.touch a).run = s.run := by
  rw [State.touch_eq, State.run_oob]

@[simp] theorem run_memWrite (s : State) (a : Int) (v : Word) : (s.memWrite a v).run = s.run := by
  obtain ⟨m, written⟩ := s.memWrite_state a v
  rw [written]
  rfl

@[simp] theorem run_writeCells (s : State) (a : Int) (ws : List Word) : (s.writeCells a ws).run = s.run := by
  obtain ⟨m, written⟩ := s.writeCells_state a ws
  rw [written]
  rfl

@[simp] theorem run_copyCells (s : State) (p d : Int) (n : Nat) : (s.copyCells p d n).run = s.run := by
  obtain ⟨m, copied⟩ := s.copyCells_state p d n
  rw [copied]
  rfl

theorem run_of_readsOnly {s t : State} (h : ReadsOnly s t) : t.run = s.run := by
  obtain ⟨n, rfl⟩ := h
  exact s.run_oob n

@[simp] theorem run_compareCells (s : State) (a b : Int) (n : Nat) : (s.compareCells a b n).2.run = s.run :=
  run_of_readsOnly (s.compareCells_state a b n)

@[simp] theorem run_compareText (s : State) (a b : Int) (n : Nat) : (s.compareText a b n).2.run = s.run :=
  run_of_readsOnly (s.compareText_state a b n)

@[simp] theorem run_scanText (s : State) (a : Int) (n : Nat) : (s.scanText a n).2.run = s.run :=
  run_of_readsOnly (s.scanText_state a n)

@[simp] theorem run_readCells (s : State) (a : Int) (n : Nat) : (s.readCells a n).2.run = s.run := by
  rw [State.readCells_spec, State.run_oob]

@[simp] theorem run_askLine (s : State) : s.askLine.2.run = s.run := by
  rw [s.askLine_spec.2, State.run_answered, State.run_emit]

@[simp] theorem run_askKey (s : State) : s.askKey.2.run = s.run := by
  rw [s.askKey_spec.2, State.run_answered, State.run_emit]

@[simp] theorem run_askOs (s : State) : s.askOs.2.run = s.run := by
  rw [s.askOs_spec.2, State.run_answered, State.run_emit]

theorem run_askRandom {s t : State} {lo hi v : Word} (hlt : lo.toInt < hi.toInt)
    (h : s.askRandom lo hi = some (v, t)) : t.run = s.run := by
  obtain ⟨-, -, -, rfl⟩ := State.askRandom_spec hlt h
  rw [State.run_answered, State.run_emit]

/-! ## Answers that keep RUN -/

/-- If the answer is a next state, its RUN is that of `s`. -/
def KeepsRun (s : State) (o : Result) : Prop := ∀ t, o = .next t → t.run = s.run

theorem KeepsRun.next {s u : State} (same : u.run = s.run) : KeepsRun s (.next u) := by
  rintro t ⟨⟩
  exact same

theorem KeepsRun.fault (s : State) (f : Fault) : KeepsRun s (.fault f) := nofun

theorem KeepsRun.skip (s : State) (code : DiagCode) : KeepsRun s (s.skip code) := .next rfl

theorem KeepsRun.ite {s : State} {c : Prop} [Decidable c] {o o' : Result} (yes : c → KeepsRun s o)
    (no : ¬ c → KeepsRun s o') : KeepsRun s (if c then o else o') := by
  split
  · next h => exact yes h
  · next h => exact no h

theorem KeepsRun.withLabel {s : State} {k : Nat → Result} (known : ∀ n, KeepsRun s (k n)) (l : Text) :
    KeepsRun s (s.withLabel l k) := by
  intro t answered
  obtain skips | ⟨n, goesOn⟩ := withLabel_next answered
  · exact KeepsRun.skip s _ t skips
  · exact known n t goesOn

theorem keepsRun_jumpIf (s : State) (l : Text) (c : Bool) : KeepsRun s (s.jumpIf l c) :=
  .withLabel (fun n => .ite (fun _ => .next (s.run_redirect n)) fun _ => .next rfl) l

theorem keepsRun_call (l : Text) (s : State) : KeepsRun s (exec (.call l) s) :=
  .withLabel (fun n => .ite (fun _ => .skip s _) fun _ => .next ((s.push s.pc).run_redirect n)) l

theorem keepsRun_loop (l : Text) (s : State) : KeepsRun s (exec (.loop l) s) := by
  refine .withLabel (fun n => ?_) l
  exact .ite (fun _ => .next rfl) fun _ => .next rfl

theorem keepsRun_arithNonzero (s : State) (d : Reg) (x : SrcAv) (op : Word → Word → Word) :
    KeepsRun s (s.arithNonzero d x op) :=
  .ite (fun _ => .skip s _) fun _ => .next rfl

theorem keepsRun_pop (r : Reg) (s : State) : KeepsRun s (exec (.pop r) s) := by
  cases stack : s.stack with
  | nil => rw [execPop_of_nil stack]; exact .skip s _
  | cons v rest => rw [execPop_of_cons stack]; exact .next rfl

theorem keepsRun_set (r : Reg) (ts : List Text) (s : State) : KeepsRun s (exec (.set r ts) s) := by
  simp only [exec, execSet]
  split
  · split
    · exact .ite (fun _ => .next rfl) fun _ => .next rfl
    · exact .next rfl
  · exact .next rfl

theorem keepsRun_cmpStr (a : Addr) (b : StrAddr) (s : State) : KeepsRun s (exec (.cmpStr a b) s) := by
  cases b with
  | addr b => exact .next (by simp)
  | literal l => exact .ite (fun _ => .skip s _) fun _ => .next (by simp)

theorem keepsRun_rand (r : Reg) (lo hi : SrcAv) (s : State) : KeepsRun s (exec (.rand r lo hi) s) := by
  refine .ite (fun _ => .skip s _) fun nonempty => ?_
  split
  · next v u drawn => exact .next (by rw [State.run_setAv, run_askRandom (not_le.mp nonempty) drawn])
  · exact .fault s _

/-! ## The two instructions that end a run -/

theorem execRet_of_nil {s : State} (empty : s.stack = []) :
    exec .ret s = .next ((s.diag .retUnderflow).terminate 1) := by
  simp only [exec, execRet, empty]
  rfl

theorem execRet_of_cons {s : State} {v : Word} {rest : List Word} (stack : s.stack = v :: rest) :
    exec .ret s = .next (({ s with stack := rest } : State).setPc v) := by
  simp only [exec, execRet, stack]

theorem exec_exit_none (s : State) : exec (.exit none) s = .next (s.terminate 0) := rfl

theorem exec_exit_some (x : SrcAv) (s : State) : exec (.exit (some x)) s = .next (s.terminate (s.srcAv x)) := rfl

/-- The instructions that end a run, where they do (44_control_flow R284, R286). -/
def EndsRun (i : Instr) (s : State) : Prop := (i = .ret ∧ s.stack = []) ∨ ∃ n, i = .exit n

/-- 40_dispatch_loop R193, for the instructions. -/
theorem exec_keepsRun {i : Instr} {s : State} (goesOn : ¬ EndsRun i s) : KeepsRun s (exec i s) := by
  cases i with
  | exit n => exact absurd (.inr ⟨n, rfl⟩) goesOn
  | ret =>
    cases stack : s.stack with
    | nil => exact absurd (.inl ⟨rfl, stack⟩) goesOn
    | cons v rest => rw [execRet_of_cons stack]; exact .next rfl
  | jmp | jz | jnz | jn | jnn | jp | jnp | jf | jnf | jo | jno => exact keepsRun_jumpIf s _ _
  | call l => exact keepsRun_call l s
  | loop l => exact keepsRun_loop l s
  | div d x | mod d x => exact keepsRun_arithNonzero s d x _
  | pop r => exact keepsRun_pop r s
  | set r ts => exact keepsRun_set r ts s
  | cmpStr a b => exact keepsRun_cmpStr a b s
  | rand r lo hi => exact keepsRun_rand r lo hi s
  | push | sleep => exact .ite (fun _ => .skip s _) fun _ => .next rfl
  | writeMem => exact .ite (fun _ => .skip s _) fun _ => .next (run_writeCells s _ _)
  | cmovf => exact .ite (fun _ => .next rfl) fun _ => .next rfl
  | readMem => exact .next (run_touch s _)
  | writeRawMem => exact .next (run_memWrite s _ _)
  | fillMem => exact .next (run_writeCells s _ _)
  | copyMem => exact .next (run_copyCells s _ _ _)
  | cmpMem => exact .next (run_compareCells s _ _ _)
  | printMem => exact .next (run_readCells s _ _)
  | printStr => exact .next (run_scanText s _ _)
  | read => exact .next (run_askLine s)
  | readKey => exact .next (run_askKey s)
  | os => exact .next (run_askOs s)
  | add | sub | mul | shl | shr | and | or | xor | not | cmp | cmpv | setflag | clearflag | setAV | setLV | mov | movv
  | write | writeln | writeAV | writeLV | writeFV | writeVal | dump | beep | brk | label | directive | empty =>
    exact .next rfl

/-! ## A run ends only as listed (O42) -/

theorem run_finish (s : State) : s.finish.run = s.run := by
  by_cases running : s.run = .running
  · rw [State.finish_running running, State.run_advance]
  · rw [State.finish_stopped running]

/-- A line that leaves RUN not Running is not followed by the advance (40_dispatch_loop R189). -/
theorem next_of_finishResult_stopped {o : Result} {t : State} (answered : finishResult o = .next t)
    (stopped : t.run ≠ .running) : o = .next t := by
  cases o with
  | next u =>
    obtain rfl : u.finish = t := by simpa [finishResult] using answered
    rw [run_finish] at stopped
    rw [State.finish_stopped stopped]
  | fault f => cases answered
  | refused r => cases answered

/-- Only RUN and the port's record differ. -/
def RunAndRecordOnly (s t : State) : Prop := t = { s with run := t.run, events := t.events }

/-- The ends of a run at a fetched line, as O42 lists them. -/
def LineEnds (s t : State) (line : Text) : Prop :=
  (t.run = .halted .unknownMnemonic ∧ ∃ m, decode line = .unknown m) ∨
  (decode line = .instr .ret ∧ s.stack = [] ∧ t.run = .terminated 1) ∨
  (decode line = .instr (.exit none) ∧ t.run = .terminated 0) ∨
  ∃ x, decode line = .instr (.exit (some x)) ∧ t.run = .terminated (s.srcAv x)

theorem lineEnds_of_instr {s t : State} {line : Text} {i : Instr} (decoded : decode line = .instr i)
    (ends : EndsRun i s) (answered : exec i s = .next t) : RunAndRecordOnly s t ∧ LineEnds s t line := by
  obtain ⟨rfl, empty⟩ | ⟨n, rfl⟩ := ends
  · rw [execRet_of_nil empty] at answered
    cases answered
    exact ⟨rfl, .inr (.inl ⟨decoded, empty, rfl⟩)⟩
  · cases n with
    | none =>
      rw [exec_exit_none] at answered
      cases answered
      exact ⟨rfl, .inr (.inr (.inl ⟨decoded, rfl⟩))⟩
    | some x =>
      rw [exec_exit_some] at answered
      cases answered
      exact ⟨rfl, .inr (.inr (.inr ⟨x, decoded, rfl⟩))⟩

theorem lineEnds_of_runLine {s t : State} {line : Text} (running : s.run = .running)
    (answered : s.runLine line = .next t) (stopped : t.run ≠ .running) :
    RunAndRecordOnly s t ∧ LineEnds s t line := by
  cases decoded : decode line with
  | unknown m =>
    rw [runLine_of_unknown decoded] at answered
    cases answered
    exact ⟨rfl, .inl ⟨rfl, m, decoded⟩⟩
  | skip code =>
    rw [runLine_of_skip decoded] at answered
    have skipped : s.skip code = .next t := next_of_finishResult_stopped answered stopped
    exact absurd ((KeepsRun.skip s code t skipped).trans running) stopped
  | instr i =>
    rw [runLine_of_instr decoded] at answered
    have executed : exec i s = .next t := next_of_finishResult_stopped answered stopped
    have ends : EndsRun i s := by
      by_contra goesOn
      exact stopped ((exec_keepsRun goesOn t executed).trans running)
    exact lineEnds_of_instr decoded ends executed

/-- Settles O42: a step ends at the loop head, or its line does; of the lines only an unknown mnemonic, `exit`, and `ret`
on an empty stack do not keep RUN. -/
theorem runEndsOnlyAsListed : Obligations.RunEndsOnlyAsListed := by
  intro s t running answered stopped
  by_cases negative : s.pc.toInt < 0
  · rw [step_of_pc_negative running negative] at answered
    cases answered
    exact ⟨rfl, .inr (.inl ⟨rfl, negative⟩)⟩
  have nonneg : 0 ≤ s.pc.toInt := not_lt.mp negative
  cases fetched : s.irom[s.pc.toNat]? with
  | none =>
    rw [step_of_no_line running nonneg fetched] at answered
    cases answered
    exact ⟨rfl, .inl ⟨rfl, count_le_pc_of_no_line nonneg fetched⟩⟩
  | some line =>
    rw [step_of_line running nonneg fetched] at answered
    obtain ⟨frame, ends⟩ := lineEnds_of_runLine running answered stopped
    exact ⟨frame, .inr (.inr ⟨line, rfl, ends⟩)⟩

end Sys2Proof.Proofs

namespace Sys2Proof.Proofs
open Sys2Proof Sys2Proof.Machine

/-! ## Generic equality (O12) -/

theorem eqv_self (a : GVal) : eqv a a = true := by
  cases a with
  | integer m => simp [eqv_integer]
  | text t => simp [eqv_text]
  | boolean b => simp [eqv_boolean]
  | empty => exact eqv_empty

/-- Within a kind the rule of R254 decides the equality of the contents; across kinds `eqv` answers `false`, so there is
nothing to show. -/
theorem eq_of_eqv {a b : GVal} (equal : eqv a b = true) : a = b := by
  cases a with
  | integer m =>
    cases b with
    | integer n => exact congrArg GVal.integer (of_decide_eq_true equal)
    | _ => cases equal
  | text t =>
    cases b with
    | text u => exact congrArg GVal.text (of_decide_eq_true equal)
    | _ => cases equal
  | boolean p =>
    cases b with
    | boolean q => exact congrArg GVal.boolean (of_decide_eq_true equal)
    | _ => cases equal
  | empty =>
    cases b with
    | empty => rfl
    | _ => cases equal

theorem eqv_iff_eq (a b : GVal) : eqv a b = true ↔ a = b :=
  ⟨eq_of_eqv, fun same => same ▸ eqv_self a⟩

/-- Settles O12: the four per-kind equations of R254, and equality of values for every pair of kinds. -/
theorem genericEqualityPerKind : Obligations.GenericEqualityPerKind :=
  ⟨eqv_integer, eqv_text, eqv_boolean, eqv_empty, eqv_iff_eq⟩

end Sys2Proof.Proofs

namespace Sys2Proof.Machine

theorem ProgramKept.trans {s t u : State} (first : ProgramKept s t) (second : ProgramKept t u) : ProgramKept s u :=
  ⟨second.irom.trans first.irom, second.lrom.trans first.lrom, second.params.trans first.params,
    second.firstRun.trans first.firstRun⟩

end Sys2Proof.Machine

namespace Sys2Proof.Proofs
open Sys2Proof Sys2Proof.Machine

/-! ## What every instruction keeps: the program, and the bounds of memory and stack -/

/-- The clauses of `State.Inv` on data memory: canonical, and only addresses in range (20_memory R90). -/
def MemoryBounded (s : State) : Prop := Memory.wf s.mem ∧ ∀ c ∈ s.mem, c.1 < s.params.memSize

/-- The clause of `State.Inv` on the stack (10_state R61). -/
def StackBounded (s : State) : Prop := ∀ d, s.params.stackDepth = some d → s.stack.length ≤ d

/-- The program is as before, and memory and stack stay within their bounds. -/
structure KeepsBounds (s t : State) : Prop where
  program : ProgramKept s t
  memory : MemoryBounded s → MemoryBounded t
  stack : StackBounded s → StackBounded t

theorem KeepsBounds.trans {s t u : State} (first : KeepsBounds s t) (second : KeepsBounds t u) : KeepsBounds s u where
  program := first.program.trans second.program
  memory := second.memory ∘ first.memory
  stack := second.stack ∘ first.stack

/-- Registers, RUN, host answers and the port's record are within no bound. -/
theorem KeepsBounds.of_outside (s : State) (regs : Vector Register 25) (run : RunState) (answers : HostAnswers)
    (events : List HostEvent) :
    KeepsBounds s { s with regs := regs, run := run, answers := answers, events := events } :=
  ⟨⟨rfl, rfl, rfl, rfl⟩, id, id⟩

theorem KeepsBounds.refl (s : State) : KeepsBounds s s := .of_outside s ..

/-- A new memory that is bounded when the old one is. -/
theorem KeepsBounds.of_mem {s : State} {m : Memory} (kept : MemoryBounded s → MemoryBounded { s with mem := m }) :
    KeepsBounds s { s with mem := m } :=
  ⟨⟨rfl, rfl, rfl, rfl⟩, kept, id⟩

theorem KeepsBounds.of_readsOnly {s t : State} (h : ReadsOnly s t) : KeepsBounds s t := by
  obtain ⟨n, rfl⟩ := h
  exact .of_outside s ..

theorem keepsBounds_touch (s : State) (a : Int) : KeepsBounds s (s.touch a) := .of_readsOnly ⟨_, s.touch_eq a⟩

theorem keepsBounds_compareText (s : State) (p q : Int) (n : Nat) : KeepsBounds s (s.compareText p q n).2 :=
  .of_readsOnly (s.compareText_state p q n)

theorem keepsBounds_memWrite (s : State) (a : Int) (v : Word) : KeepsBounds s (s.memWrite a v) := by
  obtain ⟨inside, written⟩ | ⟨-, written⟩ := s.memWrite_eq a v
  · rw [written]
    refine .of_mem fun ⟨canonical, bounded⟩ => ⟨Memory.wf_write canonical _ _, fun c hc => ?_⟩
    obtain rfl | hc := Memory.mem_write hc
    · have := (State.inRange_iff s a).mp inside
      show a.toNat < s.params.memSize
      omega
    · exact bounded c hc
  · rw [written]
    exact .of_outside s ..

theorem keepsBounds_writeCells (s : State) (a : Int) (ws : List Word) : KeepsBounds s (s.writeCells a ws) := by
  induction ws generalizing s a with
  | nil => exact .refl s
  | cons w ws ih => exact (keepsBounds_memWrite s a w).trans (ih _ _)

theorem keepsBounds_copyCells (s : State) (p q : Int) (n : Nat) : KeepsBounds s (s.copyCells p q n) := by
  induction n generalizing s p q with
  | zero => exact .refl s
  | succ n ih => exact ((keepsBounds_touch s p).trans (keepsBounds_memWrite _ q _)).trans (ih _ _ _)

theorem keepsBounds_push {s : State} (free : ¬ s.stackFull = true) (v : Word) : KeepsBounds s (s.push v) := by
  refine ⟨⟨rfl, rfl, rfl, rfl⟩, id, fun bounded d depth => ?_⟩
  have roomy : s.params.stackDepth ≠ some s.stack.length := by simpa [State.stackFull] using free
  have within : s.stack.length ≤ d := bounded d depth
  have unequal : d ≠ s.stack.length := by
    rintro rfl
    exact roomy depth
  show s.stack.length + 1 ≤ d
  omega

theorem keepsBounds_popped {s : State} {v : Word} {rest : List Word} (stack : s.stack = v :: rest) :
    KeepsBounds s { s with stack := rest } := by
  refine ⟨⟨rfl, rfl, rfl, rfl⟩, id, fun bounded d depth => ?_⟩
  have within : s.stack.length ≤ d := bounded d depth
  rw [stack, List.length_cons] at within
  show rest.length ≤ d
  omega

theorem keepsBounds_askLine (s : State) : KeepsBounds s s.askLine.2 := by
  rw [s.askLine_spec.2]
  exact .of_outside s ..

theorem keepsBounds_askKey (s : State) : KeepsBounds s s.askKey.2 := by
  rw [s.askKey_spec.2]
  exact .of_outside s ..

theorem keepsBounds_askOs (s : State) : KeepsBounds s s.askOs.2 := by
  rw [s.askOs_spec.2]
  exact .of_outside s ..

/-! ## Answers with a next state -/

/-- The answer is a next state, with the program kept and memory and stack within their bounds. -/
def Answers (s : State) (o : Result) : Prop := ∃ t, o = .next t ∧ KeepsBounds s t

theorem Answers.next {s t : State} (kept : KeepsBounds s t) : Answers s (.next t) := ⟨t, rfl, kept⟩

theorem Answers.skip (s : State) (code : DiagCode) : Answers s (s.skip code) := .next (.of_outside s ..)

theorem Answers.ite {s : State} {c : Prop} [Decidable c] {o o' : Result} (yes : c → Answers s o)
    (no : ¬ c → Answers s o') : Answers s (if c then o else o') := by
  split
  · next h => exact yes h
  · next h => exact no h

theorem Answers.withLabel {s : State} {k : Nat → Result} (known : ∀ n, Answers s (k n)) (l : Text) :
    Answers s (s.withLabel l k) := by
  cases index : s.labelIndex l with
  | none => rw [State.withLabel_unknown index]; exact .skip s _
  | some n => rw [State.withLabel_known index]; exact known n

theorem answers_jumpIf (s : State) (l : Text) (c : Bool) : Answers s (s.jumpIf l c) :=
  .withLabel (fun _ => .ite (fun _ => .next (.of_outside s ..)) fun _ => .next (.refl s)) l

theorem answers_call (l : Text) (s : State) : Answers s (exec (.call l) s) :=
  .withLabel (fun _ => .ite (fun _ => .skip s _) fun free =>
    .next ((keepsBounds_push free s.pc).trans (.of_outside ..))) l

theorem answers_loop (l : Text) (s : State) : Answers s (exec (.loop l) s) :=
  .withLabel (fun _ => .ite (fun _ => .next (.of_outside s ..)) fun _ => .next (.of_outside s ..)) l

theorem answers_ret (s : State) : Answers s (exec .ret s) := by
  cases stack : s.stack with
  | nil => rw [execRet_of_nil stack]; exact .next (.of_outside s ..)
  | cons v rest => rw [execRet_of_cons stack]; exact .next ((keepsBounds_popped stack).trans (.of_outside ..))

theorem answers_pop (r : Reg) (s : State) : Answers s (exec (.pop r) s) := by
  cases stack : s.stack with
  | nil => rw [execPop_of_nil stack]; exact .skip s _
  | cons v rest => rw [execPop_of_cons stack]; exact .next ((keepsBounds_popped stack).trans (.of_outside ..))

theorem answers_exit (n : Option SrcAv) (s : State) : Answers s (exec (.exit n) s) := by
  cases n with
  | none => exact .next (.of_outside s ..)
  | some x => exact .next (.of_outside s ..)

theorem answers_set (r : Reg) (ts : List Text) (s : State) : Answers s (exec (.set r ts) s) := by
  simp only [exec, execSet]
  split
  · split
    · exact .ite (fun _ => .next (.of_outside s ..)) fun _ => .next (.of_outside s ..)
    · exact .next (.of_outside s ..)
  · exact .next (.of_outside s ..)

theorem answers_cmpStr (a : Addr) (b : StrAddr) (s : State) : Answers s (exec (.cmpStr a b) s) := by
  cases b with
  | addr b => exact .next ((keepsBounds_compareText s ..).trans (.of_outside ..))
  | literal l =>
    exact .ite (fun _ => .skip s _) fun _ => .next (((keepsBounds_writeCells s s.reservedBase _).trans
      (keepsBounds_compareText ..)).trans ((keepsBounds_writeCells ..).trans (.of_outside ..)))

/-- A Random request fails exactly at a queued answer out of range (60_exceptions R422). -/
theorem askRandom_eq_none_iff (s : State) (lo hi : Word) : s.askRandom lo hi = none ↔ ¬ s.drawReady lo hi := by
  simp only [State.askRandom, State.drawReady]
  cases queue : s.answers.draws with
  | nil => simp
  | cons v rest => cases ok : drawOk lo hi v <;> simp [ok]

/-- Where the model's one fault is (log 5). -/
def DrawFaults (i : Instr) (s : State) : Prop :=
  ∃ r lo hi, i = .rand r lo hi ∧ (s.srcAv lo).toInt < (s.srcAv hi).toInt ∧ ¬ s.drawReady (s.srcAv lo) (s.srcAv hi)

theorem execRand_of_empty {s : State} {lo hi : SrcAv} (empty : (s.srcAv hi).toInt ≤ (s.srcAv lo).toInt) (r : Reg) :
    exec (.rand r lo hi) s = s.skip .badRange := by
  simp only [exec, execRand, if_pos empty]

theorem execRand_of_ready {s : State} {lo hi : SrcAv} (nonempty : (s.srcAv lo).toInt < (s.srcAv hi).toInt)
    (ready : s.drawReady (s.srcAv lo) (s.srcAv hi)) (r : Reg) :
    ∃ v, exec (.rand r lo hi) s = .next (((s.emit (.random (s.srcAv lo) (s.srcAv hi))).answered
        { s.answers with draws := s.answers.draws.tail }).setAv r v) ∧
      (s.srcAv lo).toInt ≤ v.toInt ∧ v.toInt < (s.srcAv hi).toInt ∧ ∀ y ∈ s.answers.draws.head?, v = y := by
  cases asked : s.askRandom (s.srcAv lo) (s.srcAv hi) with
  | none => exact absurd ready ((askRandom_eq_none_iff ..).mp asked)
  | some drawn =>
    obtain ⟨v, t⟩ := drawn
    obtain ⟨low, high, queued, rfl⟩ := State.askRandom_spec nonempty asked
    refine ⟨v, ?_, low, high, queued⟩
    simp only [exec, execRand, if_neg (not_le.mpr nonempty), asked]

theorem execRand_of_not_ready {s : State} {lo hi : SrcAv} (nonempty : (s.srcAv lo).toInt < (s.srcAv hi).toInt)
    (notReady : ¬ s.drawReady (s.srcAv lo) (s.srcAv hi)) (r : Reg) :
    exec (.rand r lo hi) s = .fault .randomAnswerOutOfRange := by
  simp only [exec, execRand, if_neg (not_le.mpr nonempty), (askRandom_eq_none_iff ..).mpr notReady]

theorem answers_rand {r : Reg} {lo hi : SrcAv} {s : State} (works : ¬ DrawFaults (.rand r lo hi) s) :
    Answers s (exec (.rand r lo hi) s) := by
  obtain empty | nonempty := le_or_gt (s.srcAv hi).toInt (s.srcAv lo).toInt
  · rw [execRand_of_empty empty]
    exact .skip s _
  · have ready : s.drawReady (s.srcAv lo) (s.srcAv hi) := by
      by_contra notReady
      exact works ⟨r, lo, hi, rfl, nonempty, notReady⟩
    obtain ⟨v, answered, -⟩ := execRand_of_ready nonempty ready r
    rw [answered]
    exact .next (.of_outside s ..)

/-- Every instruction but a `rand` on a bad queued answer gives a next state, with the program kept and memory and stack
within their bounds. -/
theorem exec_answers {i : Instr} {s : State} (works : ¬ DrawFaults i s) : Answers s (exec i s) := by
  cases i with
  | rand => exact answers_rand works
  | jmp | jz | jnz | jn | jnn | jp | jnp | jf | jnf | jo | jno => exact answers_jumpIf s _ _
  | call l => exact answers_call l s
  | ret => exact answers_ret s
  | loop l => exact answers_loop l s
  | exit n => exact answers_exit n s
  | push => exact .ite (fun _ => .skip s _) fun free => .next (keepsBounds_push free _)
  | pop r => exact answers_pop r s
  | set r ts => exact answers_set r ts s
  | cmpStr a b => exact answers_cmpStr a b s
  | div | mod | sleep => exact .ite (fun _ => .skip s _) fun _ => .next (.of_outside s ..)
  | cmovf => exact .ite (fun _ => .next (.of_outside s ..)) fun _ => .next (.refl s)
  | readMem => exact .next ((keepsBounds_touch s _).trans (.of_outside ..))
  | writeRawMem => exact .next (keepsBounds_memWrite s _ _)
  | writeMem => exact .ite (fun _ => .skip s _) fun _ => .next (keepsBounds_writeCells s _ _)
  | fillMem => exact .next (keepsBounds_writeCells s _ _)
  | copyMem => exact .next (keepsBounds_copyCells s _ _ _)
  | cmpMem => exact .next ((KeepsBounds.of_readsOnly (s.compareCells_state ..)).trans (.of_outside ..))
  | printMem => exact .next (.trans (.of_readsOnly ⟨_, by rw [State.readCells_spec]⟩) (.of_outside ..))
  | printStr => exact .next ((KeepsBounds.of_readsOnly (s.scanText_state ..)).trans (.of_outside ..))
  | read => exact .next ((keepsBounds_askLine s).trans (.of_outside ..))
  | readKey => exact .next ((keepsBounds_askKey s).trans (.of_outside ..))
  | os => exact .next ((keepsBounds_askOs s).trans (.of_outside ..))
  | add | sub | mul | shl | shr | and | or | xor | not | cmp | cmpv | setflag | clearflag | setAV | setLV | mov | movv
  | write | writeln | writeAV | writeLV | writeFV | writeVal | dump | beep | brk | label | directive | empty =>
    exact .next (.of_outside s ..)

/-! ## What a step can be -/

/-- The forms of a step: only RUN and the port's record change (no step, Done, a halt); a Skip; or an instruction, then
the advance (40_dispatch_loop R180 to R189). -/
inductive StepForm (s : State) : Prop
  | ends (run : RunState) (events : List HostEvent) (is : step s = .next { s with run := run, events := events })
  | skips (code : DiagCode) (is : step s = .next (s.diag code).finish)
  | runs (line : Text) (i : Instr) (running : s.run = .running) (fetched : s.irom[s.pc.toNat]? = some line)
      (decoded : decode line = .instr i) (is : step s = finishResult (exec i s))

theorem step_of_not_running {s : State} (stopped : s.run ≠ .running) : step s = .next s := by
  simp only [step, State.stepOnce]
  cases run : s.run with
  | running => exact absurd run stopped
  | _ => rfl

theorem stepForm (s : State) : StepForm s := by
  by_cases running : s.run = .running
  · by_cases negative : s.pc.toInt < 0
    · exact .ends _ _ (step_of_pc_negative running negative)
    have nonneg : 0 ≤ s.pc.toInt := not_lt.mp negative
    cases fetched : s.irom[s.pc.toNat]? with
    | none => exact .ends .done s.events (step_of_no_line running nonneg fetched)
    | some line =>
      have line_runs : step s = s.runLine line := step_of_line running nonneg fetched
      cases decoded : decode line with
      | unknown m => exact .ends _ _ (line_runs.trans (runLine_of_unknown decoded s))
      | skip code => exact .skips code (line_runs.trans (runLine_of_skip decoded s))
      | instr i => exact .runs line i running fetched decoded (line_runs.trans (runLine_of_instr decoded s))
  · exact .ends s.run s.events (step_of_not_running running)

/-! ## No step is refused, and the program stays (O46, O48) -/

theorem keepsBounds_finish (s : State) : KeepsBounds s s.finish := by
  by_cases running : s.run = .running
  · rw [State.finish_running running]
    exact .of_outside s ..
  · rw [State.finish_stopped running]
    exact .refl s

theorem Answers.finish {s : State} {o : Result} (h : Answers s o) : Answers s (finishResult o) := by
  obtain ⟨t, rfl, kept⟩ := h
  exact .next (kept.trans (keepsBounds_finish t))

/-- The step is at a `rand` whose next queued answer is out of range. -/
def StepDrawFaults (s : State) : Prop :=
  ∃ line r lo hi, s.run = .running ∧ s.irom[s.pc.toNat]? = some line ∧ decode line = .instr (.rand r lo hi) ∧
    (s.srcAv lo).toInt < (s.srcAv hi).toInt ∧ ¬ s.drawReady (s.srcAv lo) (s.srcAv hi)

/-- A step answers a next state within the bounds, or it is the one fault. -/
theorem step_answers (s : State) :
    Answers s (step s) ∨ (StepDrawFaults s ∧ step s = .fault .randomAnswerOutOfRange) := by
  cases stepForm s with
  | ends run events is => exact .inl (is ▸ .next (.of_outside s ..))
  | skips code is => exact .inl (is ▸ (Answers.skip s code).finish)
  | runs line i running fetched decoded is =>
    by_cases faults : DrawFaults i s
    · obtain ⟨r, lo, hi, rfl, nonempty, notReady⟩ := faults
      rw [execRand_of_not_ready nonempty notReady] at is
      exact .inr ⟨⟨line, r, lo, hi, running, fetched, decoded, nonempty, notReady⟩, is⟩
    · exact .inl (is ▸ (exec_answers faults).finish)

theorem keepsBounds_of_step {s t : State} (stepped : step s = .next t) : KeepsBounds s t := by
  obtain ⟨u, answered, kept⟩ | ⟨-, faulted⟩ := step_answers s
  · cases answered.symm.trans stepped
    exact kept
  · cases faulted.symm.trans stepped

/-- Settles O46: of the state, an instruction writes only registers, memory, stack, RUN, host answers and the record. -/
theorem stepKeepsTheProgram : Obligations.StepKeepsTheProgram :=
  fun _ _ stepped => (keepsBounds_of_step stepped).program

/-- Settles O48: every instruction but `rand` answers a next state, and `rand` fails only at a queued answer; with an
empty queue there is none to fail at. -/
theorem onlyRandCanFault : Obligations.OnlyRandCanFault := by
  intro s
  obtain ⟨t, answered, -⟩ | ⟨drawFaults, faulted⟩ := step_answers s
  · exact ⟨by simp [answered], fun _ => ⟨t, answered⟩, by simp [answered]⟩
  · refine ⟨by simp [faulted], fun noDraws => ?_, fun _ _ => drawFaults⟩
    obtain ⟨_, _, _, _, _, _, _, _, notReady⟩ := drawFaults
    exact absurd (by simp [State.drawReady, noDraws]) notReady

/-! ## Every step keeps the invariant (O43) -/

/-- Bit 7 of every `fv` is as before. -/
def ReservedBitKept (s t : State) : Prop := ∀ r, (t.reg r).fv.getLsbD 7 = (s.reg r).fv.getLsbD 7

theorem FvKept.reservedBit {s t : State} (same : FvKept s t) : ReservedBitKept s t := fun r => by rw [same r]

/-- No instruction writes bit 7 of any `fv`: a full move raises Copied, which is bit 5 (10_state R56). -/
theorem FvEffect.reservedBit {i : Instr} {s t : State} (effect : FvEffect i s t) : ReservedBitKept s t := by
  intro r
  by_cases flags : r = .flags
  · rw [flags]
    exact effect.bit_seven
  · by_cases changed : (t.reg r).fv = (s.reg r).fv
    · rw [changed]
    · rw [(effect.other_fv flags changed).1, copiedBits_eq_raiseFlag]
      exact getLsbD_raiseFlag_of_ne _ (bit_lt_seven .copied).ne'

theorem inv_of_kept {s t : State} (inv : s.Inv) (kept : KeepsBounds s t) (bit : ∀ r, (t.reg r).fv.getLsbD 7 = false) :
    t.Inv := by
  obtain ⟨irom, lrom, params, -⟩ := kept.program
  obtain ⟨canonical, inRange⟩ := kept.memory ⟨inv.mem, inv.memInRange⟩
  exact {
    params := params ▸ inv.params
    mem := canonical
    memInRange := inRange
    stack := kept.stack inv.stack
    irom := irom ▸ inv.irom
    labels := irom ▸ lrom ▸ inv.labels
    labelNames := lrom ▸ inv.labelNames
    reservedBit := bit }

theorem fvKept_finish (s : State) : FvKept s s.finish := by
  by_cases running : s.run = .running
  · rw [State.finish_running running]
    exact s.fv_advance
  · rw [State.finish_stopped running]
    exact .refl s

theorem reservedBit_of_step {s t : State} (stepped : step s = .next t) : ReservedBitKept s t := by
  cases stepForm s with
  | ends run events is =>
    cases is.symm.trans stepped
    exact fun _ => rfl
  | skips code is =>
    cases is.symm.trans stepped
    exact (fvKept_finish (s.diag code)).reservedBit
  | runs line i _ _ _ is =>
    cases answered : exec i s with
    | next u =>
      rw [answered] at is
      cases is.symm.trans stepped
      exact fun r => ((fvKept_finish u).reservedBit r).trans ((exec_fvEffect answered).reservedBit r)
    | _ =>
      rw [answered] at is
      cases is.symm.trans stepped

/-- Settles O43: the bounds of memory and stack and the program come from `KeepsBounds`, bit 7 from the list of writers
of an `fv`. -/
theorem stepKeepsInvariant : Obligations.StepKeepsInvariant :=
  fun _ _ inv stepped => inv_of_kept inv (keepsBounds_of_step stepped) fun r =>
    (reservedBit_of_step stepped r).trans (inv.reservedBit r)

end Sys2Proof.Proofs

namespace Sys2Proof.Proofs
open Sys2Proof Sys2Proof.Machine

/-! ## Nothing reads the record of the port (O49)

Events put before the record stay before it, whatever runs: every operation commutes with `prepend`. So what runs cannot
depend on the record, and only adds to its end. -/

/-- `s` with the events `es` before its record. -/
def prepend (es : List HostEvent) (s : State) : State := { s with events := es ++ s.events }

/-- `prepend` on an answer. -/
def prependResult (es : List HostEvent) : Result → Result
  | .next s => .next (prepend es s)
  | .fault f => .fault f
  | .refused r => .refused r

section
variable (es : List HostEvent) (s : State)

@[simp] theorem prependResult_next : prependResult es (.next s) = .next (prepend es s) := rfl
@[simp] theorem prependResult_fault (f : Fault) : prependResult es (.fault f) = .fault f := rfl

/-! ### What is read -/

@[simp] theorem reg_prepend (r : Reg) : (prepend es s).reg r = s.reg r := rfl
@[simp] theorem pc_prepend : (prepend es s).pc = s.pc := rfl
@[simp] theorem flagBits_prepend : (prepend es s).flagBits = s.flagBits := rfl
@[simp] theorem stackFull_prepend : (prepend es s).stackFull = s.stackFull := rfl
@[simp] theorem params_prepend : (prepend es s).params = s.params := rfl
@[simp] theorem answers_prepend : (prepend es s).answers = s.answers := rfl
@[simp] theorem snapshot_prepend : (prepend es s).snapshot = s.snapshot := rfl
@[simp] theorem cell_prepend (a : Int) : (prepend es s).cell a = s.cell a := rfl
@[simp] theorem inRange_prepend (a : Int) : (prepend es s).inRange a = s.inRange a := rfl
@[simp] theorem scanBound_prepend : (prepend es s).scanBound = s.scanBound := rfl
@[simp] theorem reservedBase_prepend : (prepend es s).reservedBase = s.reservedBase := rfl
@[simp] theorem srcAv_prepend (x : SrcAv) : (prepend es s).srcAv x = s.srcAv x := by cases x <;> rfl
@[simp] theorem srcLv_prepend (x : SrcLv) : (prepend es s).srcLv x = s.srcLv x := by cases x <;> rfl
@[simp] theorem gArg_prepend (x : GArg) : (prepend es s).gArg x = s.gArg x := by cases x <;> rfl

@[simp] theorem addr_prepend (a : Addr) : (prepend es s).addr a = s.addr a := by
  cases a with
  | memLabel m => cases m <;> rfl
  | _ => rfl

/-! ### What is written -/

@[simp] theorem setVal_prepend (r : Reg) (v : GVal) : (prepend es s).setVal r v = prepend es (s.setVal r v) := rfl
@[simp] theorem setAv_prepend (r : Reg) (v : Word) : (prepend es s).setAv r v = prepend es (s.setAv r v) := rfl
@[simp] theorem setLv_prepend (r : Reg) (v : Wide) : (prepend es s).setLv r v = prepend es (s.setLv r v) := rfl
@[simp] theorem redirect_prepend (n : Nat) : (prepend es s).redirect n = prepend es (s.redirect n) := rfl
@[simp] theorem advance_prepend : (prepend es s).advance = prepend es s.advance := rfl
@[simp] theorem signFlags_prepend (v : Int) : (prepend es s).signFlags v = prepend es (s.signFlags v) := rfl
@[simp] theorem setFlagBits_prepend (b : FlagBits) : (prepend es s).setFlagBits b = prepend es (s.setFlagBits b) := rfl
@[simp] theorem setZPN_prepend (z p n : Bool) : (prepend es s).setZPN z p n = prepend es (s.setZPN z p n) := rfl
@[simp] theorem fullMove_prepend (d r : Reg) : (prepend es s).fullMove d r = prepend es (s.fullMove d r) := rfl
@[simp] theorem push_prepend (v : Word) : (prepend es s).push v = prepend es (s.push v) := rfl
@[simp] theorem answered_prepend (a : HostAnswers) : (prepend es s).answered a = prepend es (s.answered a) := rfl

@[simp] theorem emit_prepend (e : HostEvent) : (prepend es s).emit e = prepend es (s.emit e) := by
  simp [prepend, State.emit]

@[simp] theorem diag_prepend (code : DiagCode) : (prepend es s).diag code = prepend es (s.diag code) :=
  emit_prepend es s _

@[simp] theorem skip_prepend (code : DiagCode) : (prepend es s).skip code = prependResult es (s.skip code) := by
  simp [State.skip]

@[simp] theorem terminate_prepend (v : Word) : (prepend es s).terminate v = prepend es (s.terminate v) :=
  emit_prepend es { s with run := .terminated v } _

@[simp] theorem runHalt_prepend (code : HaltCode) : (prepend es s).runHalt code = prepend es (s.runHalt code) := by
  simp only [State.runHalt, diag_prepend]
  rfl

/-! ### Data memory -/

@[simp] theorem touch_prepend (a : Int) : (prepend es s).touch a = prepend es (s.touch a) := by
  simp only [State.touch, inRange_prepend, diag_prepend]
  split <;> rfl

@[simp] theorem memWrite_prepend (a : Int) (v : Word) : (prepend es s).memWrite a v = prepend es (s.memWrite a v) := by
  simp only [State.memWrite, inRange_prepend, diag_prepend]
  split <;> rfl

@[simp] theorem writeCells_prepend (a : Int) (ws : List Word) :
    (prepend es s).writeCells a ws = prepend es (s.writeCells a ws) := by
  induction ws generalizing s a with
  | nil => rfl
  | cons w ws ih => simp only [State.writeCells, memWrite_prepend, ih]

@[simp] theorem copyCells_prepend (p q : Int) (n : Nat) :
    (prepend es s).copyCells p q n = prepend es (s.copyCells p q n) := by
  induction n generalizing s p q with
  | zero => rfl
  | succ n ih => simp only [State.copyCells, touch_prepend, cell_prepend, memWrite_prepend, ih]

@[simp] theorem compareCells_prepend (p q : Int) (n : Nat) :
    (prepend es s).compareCells p q n = ((s.compareCells p q n).1, prepend es (s.compareCells p q n).2) := by
  induction n generalizing s p q with
  | zero => rfl
  | succ n ih =>
    simp only [State.compareCells, touch_prepend, cell_prepend, ih]
    split <;> rfl

@[simp] theorem compareText_prepend (p q : Int) (n : Nat) :
    (prepend es s).compareText p q n = ((s.compareText p q n).1, prepend es (s.compareText p q n).2) := by
  induction n generalizing s p q with
  | zero => rfl
  | succ n ih =>
    simp only [State.compareText, touch_prepend, cell_prepend, ih]
    split
    · split <;> rfl
    · rfl

@[simp] theorem scanText_prepend (a : Int) (n : Nat) :
    (prepend es s).scanText a n = ((s.scanText a n).1, prepend es (s.scanText a n).2) := by
  induction n generalizing s a with
  | zero => rfl
  | succ n ih =>
    simp only [State.scanText, touch_prepend, cell_prepend, ih]
    split <;> rfl

@[simp] theorem readCells_prepend (a : Int) (n : Nat) :
    (prepend es s).readCells a n = ((s.readCells a n).1, prepend es (s.readCells a n).2) := by
  induction n generalizing s a with
  | zero => rfl
  | succ n ih => simp only [State.readCells, touch_prepend, cell_prepend, ih]

/-! ### Host answers -/

@[simp] theorem askLine_prepend : (prepend es s).askLine = (s.askLine.1, prepend es s.askLine.2) := by
  simp only [State.askLine, answers_prepend, emit_prepend, answered_prepend]
  split <;> rfl

@[simp] theorem askKey_prepend : (prepend es s).askKey = (s.askKey.1, prepend es s.askKey.2) := by
  simp only [State.askKey, answers_prepend, emit_prepend, answered_prepend]
  split <;> rfl

@[simp] theorem askOs_prepend : (prepend es s).askOs = (s.askOs.1, prepend es s.askOs.2) := by
  simp only [State.askOs, answers_prepend, emit_prepend, answered_prepend]
  split <;> rfl

@[simp] theorem askRandom_prepend (lo hi : Word) :
    (prepend es s).askRandom lo hi = (s.askRandom lo hi).map fun drawn => (drawn.1, prepend es drawn.2) := by
  simp only [State.askRandom, answers_prepend, emit_prepend, answered_prepend]
  split
  · split <;> rfl
  · rfl

/-! ### Instructions -/

@[simp] theorem prependResult_ite (c : Prop) [Decidable c] (o o' : Result) :
    prependResult es (if c then o else o') = if c then prependResult es o else prependResult es o' := apply_ite ..

theorem withLabel_prepend (l : Text) {k k' : Nat → Result} (known : ∀ n, k' n = prependResult es (k n)) :
    (prepend es s).withLabel l k' = prependResult es (s.withLabel l k) := by
  cases index : s.labelIndex l with
  | none => rw [State.withLabel_unknown index, State.withLabel_unknown (by exact index), skip_prepend]
  | some n => rw [State.withLabel_known index, State.withLabel_known (by exact index), known]

theorem jumpIf_prepend (l : Text) (c : Bool) : (prepend es s).jumpIf l c = prependResult es (s.jumpIf l c) :=
  withLabel_prepend es s l fun n => by simp

theorem call_prepend (l : Text) : exec (.call l) (prepend es s) = prependResult es (exec (.call l) s) :=
  withLabel_prepend es s l fun n => by simp

theorem loop_prepend (l : Text) : exec (.loop l) (prepend es s) = prependResult es (exec (.loop l) s) :=
  withLabel_prepend es s l fun n => by
    by_cases last : wrap32 ((s.reg .ecx).av.toInt - 1) = 0#32 <;> simp [last]

theorem ret_prepend : exec .ret (prepend es s) = prependResult es (exec .ret s) := by
  cases stack : s.stack with
  | nil => simp [execRet_of_nil stack, execRet_of_nil (s := prepend es s) stack]
  | cons v rest =>
    rw [execRet_of_cons stack, execRet_of_cons (s := prepend es s) stack]
    rfl

theorem pop_prepend (r : Reg) : exec (.pop r) (prepend es s) = prependResult es (exec (.pop r) s) := by
  cases stack : s.stack with
  | nil => rw [execPop_of_nil stack, execPop_of_nil (s := prepend es s) stack, skip_prepend]
  | cons v rest =>
    rw [execPop_of_cons stack, execPop_of_cons (s := prepend es s) stack]
    rfl

theorem exit_prepend (n : Option SrcAv) : exec (.exit n) (prepend es s) = prependResult es (exec (.exit n) s) := by
  cases n with
  | none => simp [exec_exit_none]
  | some x => simp [exec_exit_some]

theorem set_prepend (r : Reg) (ts : List Text) :
    exec (.set r ts) (prepend es s) = prependResult es (exec (.set r ts) s) := by
  simp only [exec, execSet, setVal_prepend, setAv_prepend]
  split
  · split
    · simp
    · rfl
  · rfl

theorem cmpStr_prepend (a : Addr) (b : StrAddr) :
    exec (.cmpStr a b) (prepend es s) = prependResult es (exec (.cmpStr a b) s) := by
  cases b with
  | addr b => simp [exec, execCmpStr]
  | literal l => simp [exec, execCmpStr]

theorem rand_prepend (r : Reg) (lo hi : SrcAv) :
    exec (.rand r lo hi) (prepend es s) = prependResult es (exec (.rand r lo hi) s) := by
  simp only [exec, execRand, srcAv_prepend, askRandom_prepend, prependResult_ite, skip_prepend]
  cases s.askRandom (s.srcAv lo) (s.srcAv hi) <;> simp

theorem cmovf_prepend (f : Flag) (d r : Reg) :
    exec (.cmovf f d r) (prepend es s) = prependResult es (exec (.cmovf f d r) s) := by
  by_cases set : flagOf s.flagBits f = true <;> simp [exec, execCmovf, set]

/-- No instruction reads the record. -/
theorem exec_prepend (i : Instr) : exec i (prepend es s) = prependResult es (exec i s) := by
  cases i with
  | jmp | jz | jnz | jn | jnn | jp | jnp | jf | jnf | jo | jno => exact jumpIf_prepend es s _ _
  | call l => exact call_prepend es s l
  | loop l => exact loop_prepend es s l
  | ret => exact ret_prepend es s
  | pop r => exact pop_prepend es s r
  | exit n => exact exit_prepend es s n
  | set r ts => exact set_prepend es s r ts
  | cmpStr a b => exact cmpStr_prepend es s a b
  | rand r lo hi => exact rand_prepend es s r lo hi
  | setAV | setLV | mov | movv => simp [exec, execSetAV, execSetLV, execMov, execMovv]
  | add | sub | mul | shl | shr | and | or | xor =>
    simp [exec, execAdd, execSub, execMul, execShl, execShr, execAnd, execOr, execXor, State.arith]
  | div | mod => simp [exec, execDiv, execMod, State.arithNonzero, State.arith]
  | not | cmp | cmpv | setflag | clearflag =>
    simp [exec, execNot, execCmp, execCmpv, execSetflag, execClearflag]
  | cmovf f d r => exact cmovf_prepend es s f d r
  | push | sleep => simp [exec, execPush, execSleep]
  | readMem | writeRawMem | writeMem | fillMem | copyMem | cmpMem | printMem | printStr =>
    simp [exec, execReadMem, State.memRead, execWriteRawMem, execWriteMem, execFillMem, execCopyMem, execCmpMem,
      execPrintMem, execPrintStr]
  | read | readKey | os => simp [exec, execRead, execReadKey, execOs]
  | write | writeln | writeAV | writeLV | writeFV | writeVal | dump | beep | brk =>
    simp [exec, execWrite, execWriteln, execWriteAV, execWriteLV, execWriteFV, execWriteVal, execDump, execBeep,
      execBrk]
  | label | directive | empty => rfl

/-! ### The step -/

theorem finish_prepend : (prepend es s).finish = prepend es s.finish := by
  by_cases running : s.run = .running
  · rw [State.finish_running running, State.finish_running (s := prepend es s) running, advance_prepend]
  · rw [State.finish_stopped running, State.finish_stopped (s := prepend es s) running]

theorem finishResult_prepend (o : Result) : finishResult (prependResult es o) = prependResult es (finishResult o) := by
  cases o with
  | next t => exact congrArg _ (finish_prepend es t)
  | fault f => rfl
  | refused r => rfl

theorem runLine_prepend (line : Text) : (prepend es s).runLine line = prependResult es (s.runLine line) := by
  cases decoded : decode line with
  | instr i => rw [runLine_of_instr decoded, runLine_of_instr decoded, exec_prepend, finishResult_prepend]
  | skip code => rw [runLine_of_skip decoded, runLine_of_skip decoded, skip_prepend, finishResult_prepend]
  | unknown m => rw [runLine_of_unknown decoded, runLine_of_unknown decoded, runHalt_prepend, prependResult_next]

theorem step_prepend : step (prepend es s) = prependResult es (step s) := by
  by_cases running : s.run = .running
  · by_cases negative : s.pc.toInt < 0
    · rw [step_of_pc_negative running negative, step_of_pc_negative (s := prepend es s) running negative,
        runHalt_prepend, prependResult_next]
    have nonneg : 0 ≤ s.pc.toInt := not_lt.mp negative
    cases fetched : s.irom[s.pc.toNat]? with
    | none =>
      rw [step_of_no_line running nonneg fetched, step_of_no_line (s := prepend es s) running nonneg fetched]
      rfl
    | some line =>
      rw [step_of_line running nonneg fetched, step_of_line (s := prepend es s) running nonneg fetched, runLine_prepend]
  · rw [step_of_not_running running, step_of_not_running (s := prepend es s) running, prependResult_next]

end

/-- Settles O49: both records stand before what the step would record from an empty one. -/
theorem outputIsUnobservable : Obligations.OutputIsUnobservable := by
  intro s t es stepped
  have own : step s = prependResult s.events (step { s with events := [] }) := by
    rw [← step_prepend]
    simp [prepend]
  have other : step { s with events := es } = prependResult es (step { s with events := [] }) := by
    rw [← step_prepend]
    simp [prepend]
  rw [stepped] at own
  cases fresh : step { s with events := [] } with
  | next u =>
    rw [fresh] at own other
    cases own
    exact ⟨u.events, rfl, other⟩
  | fault f => rw [fresh] at own; cases own
  | refused r => rw [fresh] at own; cases own

end Sys2Proof.Proofs

namespace Sys2Proof.Proofs
open Sys2Proof Sys2Proof.Machine

/-! ## The tokenizer on an encoded line (O50; 30_encoding R140)

The double quote is written `'\x22'` here. -/

/-- What stands after a token on a line: nothing, or white space. -/
def AtBoundary (rest : Text) : Prop := ∀ c ∈ rest.head?, isSpace c = true

theorem bareOk_iff (t : Text) :
    bareOk t = true ↔ t ≠ [] ∧ (∀ c ∈ t, isSpace c = false) ∧ t.head? ≠ some (.scalar '\x22') := by
  simp [bareOk, and_assoc]

theorem scanTokens_gap_of_space {c : CodePoint} (space : isSpace c = true) (rest : Text) :
    scanTokens .gap (c :: rest) = scanTokens .gap rest := by
  simp [scanTokens, space]

/-- A token ends at a boundary. -/
theorem scanTokens_bare_boundary (seen : Text) {rest : Text} (boundary : AtBoundary rest) :
    scanTokens (.bare seen) rest = seen.reverse :: scanTokens .gap rest := by
  cases rest with
  | nil => rfl
  | cons c cs =>
    have space : isSpace c = true := boundary c rfl
    rw [scanTokens_gap_of_space space]
    simp [scanTokens, space]

theorem scanTokens_bare (seen : Text) {t rest : Text} (noSpace : ∀ c ∈ t, isSpace c = false)
    (boundary : AtBoundary rest) :
    scanTokens (.bare seen) (t ++ rest) = (seen.reverse ++ t) :: scanTokens .gap rest := by
  induction t generalizing seen with
  | nil => simpa using scanTokens_bare_boundary seen boundary
  | cons c cs ih =>
    have notSpace : isSpace c = false := noSpace c (by simp)
    have rest_read := ih (c :: seen) fun d hd => noSpace d (by simp [hd])
    simpa [scanTokens, notSpace] using rest_read

/-- A bare token is read whole. -/
theorem scanTokens_gap_bare {t rest : Text} (bare : bareOk t = true) (boundary : AtBoundary rest) :
    scanTokens .gap (t ++ rest) = t :: scanTokens .gap rest := by
  obtain ⟨nonempty, noSpace, noQuote⟩ := (bareOk_iff t).mp bare
  cases t with
  | nil => exact absurd rfl nonempty
  | cons c cs =>
    have notSpace : isSpace c = false := noSpace c (by simp)
    have notQuote : c ≠ .scalar '\x22' := by simpa using noQuote
    have tail_read := scanTokens_bare [c] (t := cs) (fun d hd => noSpace d (by simp [hd])) boundary
    simpa [scanTokens, notSpace, notQuote] using tail_read

theorem escapeQuotes_cons (c : CodePoint) (t : Text) :
    escapeQuotes (c :: t) = (if c = .scalar '\x22' then chars ['\\', '\x22'] else [c]) ++ escapeQuotes t := rfl

/-- Escaping writes no quote first, so a backslash before it does not escape anything. -/
theorem head?_escapeQuotes (t : Text) : (escapeQuotes t).head? ≠ some (.scalar '\x22') := by
  cases t with
  | nil => simp [escapeQuotes]
  | cons c cs =>
    rw [escapeQuotes_cons]
    split
    · exact ne_of_beq_false rfl
    · next other => simpa using other

theorem scanTokens_quoted_escaped (seen rest : Text) :
    scanTokens (.quoted seen) (.scalar '\\' :: .scalar '\x22' :: rest) =
      scanTokens (.quoted (.scalar '\x22' :: seen)) rest := by
  simp [scanTokens]

/-- A character that is no quote, and no backslash that escapes one, is kept. -/
theorem scanTokens_quoted_keep (seen : Text) {c : CodePoint} {rest : Text} (noQuote : c ≠ .scalar '\x22')
    (plain : c = .scalar '\\' → rest.head? ≠ some (.scalar '\x22')) :
    scanTokens (.quoted seen) (c :: rest) = scanTokens (.quoted (c :: seen)) rest := by
  rw [scanTokens, if_neg noQuote]
  rintro cs rfl rfl
  exact plain rfl rfl

/-- A quoted token ends at the first quote that is not escaped. -/
theorem scanTokens_quoted_close (seen rest : Text) :
    scanTokens (.quoted seen) (.scalar '\x22' :: rest) = seen.reverse :: scanTokens .gap rest := by
  rw [scanTokens, if_pos rfl]
  rintro cs ⟨⟩

/-- A quoted token that does not end in a backslash is read whole, its quotes unescaped. -/
theorem scanTokens_quoted (seen : Text) {t : Text} (noBackslash : t.getLast? ≠ some (.scalar '\\')) (rest : Text) :
    scanTokens (.quoted seen) (escapeQuotes t ++ .scalar '\x22' :: rest) =
      (seen.reverse ++ t) :: scanTokens .gap rest := by
  induction t generalizing seen with
  | nil => simpa [escapeQuotes] using scanTokens_quoted_close seen rest
  | cons c cs ih =>
    have noBackslash' : cs.getLast? ≠ some (.scalar '\\') := by
      cases cs with
      | nil => simp
      | cons d ds => rwa [List.getLast?_cons_cons] at noBackslash
    have tail_read := ih (c :: seen) noBackslash'
    rw [List.reverse_cons, List.append_assoc, List.singleton_append] at tail_read
    rw [escapeQuotes_cons]
    split
    · next quote =>
      subst quote
      exact (scanTokens_quoted_escaped ..).trans tail_read
    · next other =>
      refine (scanTokens_quoted_keep _ other ?_).trans tail_read
      rintro rfl
      have nonempty : escapeQuotes cs ≠ [] := by
        cases cs with
        | nil => exact absurd rfl noBackslash
        | cons d ds => rw [escapeQuotes_cons]; split <;> simp
      have head : (escapeQuotes cs ++ .scalar '\x22' :: rest).head? = (escapeQuotes cs).head? :=
        List.head?_append_of_ne_nil _ nonempty
      exact head ▸ head?_escapeQuotes cs

/-- One argument of an encoded line is read back. -/
theorem scanTokens_encodeToken {t rest : Text} (ok : tokenOk t = true) (boundary : AtBoundary rest) :
    scanTokens .gap (encodeToken t ++ rest) = t :: scanTokens .gap rest := by
  by_cases bare : bareOk t = true
  · rw [encodeToken, if_pos bare]
    exact scanTokens_gap_bare bare boundary
  · have noBackslash : t.getLast? ≠ some (.scalar '\\') := by simpa [tokenOk, bare] using ok
    have opened : scanTokens .gap (.scalar '\x22' :: (escapeQuotes t ++ .scalar '\x22' :: rest)) =
        scanTokens (.quoted []) (escapeQuotes t ++ .scalar '\x22' :: rest) := rfl
    rw [encodeToken, if_neg bare, List.cons_append, List.cons_append, List.append_assoc, List.singleton_append, opened,
      scanTokens_quoted [] noBackslash rest, List.reverse_nil, List.nil_append]

/-- The arguments of a line, each after one space, as `encodeLine` writes them. -/
def encodedArgs (args : List Text) : Text := args.flatMap (fun t => .scalar ' ' :: encodeToken t)

theorem encodeLine_eq (mnemonic : Text) (args : List Text) : encodeLine mnemonic args = mnemonic ++ encodedArgs args :=
  rfl

theorem encodedArgs_cons (t : Text) (ts : List Text) :
    encodedArgs (t :: ts) = .scalar ' ' :: (encodeToken t ++ encodedArgs ts) := rfl

theorem atBoundary_encodedArgs (args : List Text) : AtBoundary (encodedArgs args) := by
  cases args with
  | nil => exact fun _ => nofun
  | cons t ts =>
    rintro c ⟨⟩
    rfl

theorem scanTokens_encodedArgs {args : List Text} (ok : ∀ t ∈ args, tokenOk t = true) :
    scanTokens .gap (encodedArgs args) = args := by
  induction args with
  | nil => rfl
  | cons t ts ih =>
    rw [encodedArgs_cons, scanTokens_gap_of_space rfl,
      scanTokens_encodeToken (ok t (by simp)) (atBoundary_encodedArgs ts), ih fun u hu => ok u (by simp [hu])]

theorem tokenize_encodeLine {mnemonic : Text} {args : List Text} (bare : bareOk mnemonic = true)
    (ok : ∀ t ∈ args, tokenOk t = true) : tokenize (encodeLine mnemonic args) = mnemonic :: args := by
  rw [encodeLine_eq, tokenize, scanTokens_gap_bare bare (atBoundary_encodedArgs args), scanTokens_encodedArgs ok]

/-! ## The class of an encoded line -/

theorem firstWord_encodeLine {mnemonic : Text} (bare : bareOk mnemonic = true) (args : List Text) :
    firstWord (encodeLine mnemonic args) = mnemonic := by
  obtain ⟨nonempty, noSpace, -⟩ := (bareOk_iff mnemonic).mp bare
  have opens : OpensWith (encodeLine mnemonic args) mnemonic (encodedArgs args) :=
    ⟨[], rfl, by simp, nonempty, fun c hc => (isSpace_eq_false c).mp (noSpace c hc),
      fun c hc => (isSpace_iff c).mp (atBoundary_encodedArgs args c hc)⟩
  exact (firstWord_eq opens).1

/-- A mnemonic makes a line neither a label nor a directive. -/
def opensInstr (mnemonic : Text) : Bool :=
  decide (mnemonic.getLast? ≠ some (.scalar ':')) && decide (mnemonic.head? ≠ some (.scalar '#'))

theorem opTable_opensInstr : opTable.all (fun row => opensInstr row.mnemonic) = true := by decide +kernel

theorem classify_encodeLine {mnemonic : Text} (bare : bareOk mnemonic = true) (opens : opensInstr mnemonic = true)
    (args : List Text) : classify (encodeLine mnemonic args) = .instr := by
  simp only [opensInstr, Bool.and_eq_true, decide_eq_true_eq] at opens
  obtain ⟨noColon, noHash⟩ := opens
  have nonempty : mnemonic ≠ [] := ((bareOk_iff mnemonic).mp bare).1
  simp only [classify, firstWord_encodeLine bare args, if_neg nonempty, if_neg noColon, if_neg noHash]

/-- The line of a row of the opcode map is decoded as the row reads its arguments. -/
theorem decode_encodeLine {row : OpRow} {args : List Text} {i : Instr} (known : rowOfMnemonic row.mnemonic = some row)
    (ok : ∀ t ∈ args, tokenOk t = true) (reads : row.read args = .ok i) :
    decode (encodeLine row.mnemonic args) = .instr i := by
  have listed : row ∈ opTable := List.mem_of_find?_eq_some known
  have opens : opensInstr row.mnemonic = true := List.all_eq_true.mp opTable_opensInstr row listed
  have bare : bareOk row.mnemonic = true := List.all_eq_true.mp opTable_mnemonics_bare row listed
  simp only [decode, classify_encodeLine bare opens args, tokenize_encodeLine bare ok, decodeTokens, known, reads]

/-! ## Every instruction -/

/-- The family of `RowReads`, for every constructor. -/
theorem rowReads : ∀ i : Instr, Laws.RowReads.Statement i
  | .set r ts => Laws.RowReads.set r ts
  | .setAV r x => Laws.RowReads.setAV r x
  | .setLV r x => Laws.RowReads.setLV r x
  | .mov d s => Laws.RowReads.mov d s
  | .movv d s => Laws.RowReads.movv d s
  | .add d x => Laws.RowReads.add d x
  | .sub d x => Laws.RowReads.sub d x
  | .mul d x => Laws.RowReads.mul d x
  | .div d x => Laws.RowReads.div d x
  | .mod d x => Laws.RowReads.mod d x
  | .shl d x => Laws.RowReads.shl d x
  | .shr d x => Laws.RowReads.shr d x
  | .and d x => Laws.RowReads.and d x
  | .or d x => Laws.RowReads.or d x
  | .xor d x => Laws.RowReads.xor d x
  | .not d => Laws.RowReads.not d
  | .cmp d x => Laws.RowReads.cmp d x
  | .cmpv t1 t2 => Laws.RowReads.cmpv t1 t2
  | .setflag f => Laws.RowReads.setflag f
  | .clearflag f => Laws.RowReads.clearflag f
  | .jmp l => Laws.RowReads.jmp l
  | .jz l => Laws.RowReads.jz l
  | .jnz l => Laws.RowReads.jnz l
  | .jn l => Laws.RowReads.jn l
  | .jnn l => Laws.RowReads.jnn l
  | .jp l => Laws.RowReads.jp l
  | .jnp l => Laws.RowReads.jnp l
  | .jf l => Laws.RowReads.jf l
  | .jnf l => Laws.RowReads.jnf l
  | .jo l => Laws.RowReads.jo l
  | .jno l => Laws.RowReads.jno l
  | .call l => Laws.RowReads.call l
  | .ret => Laws.RowReads.ret
  | .loop l => Laws.RowReads.loop l
  | .exit n => Laws.RowReads.exit n
  | .push x => Laws.RowReads.push x
  | .pop r => Laws.RowReads.pop r
  | .readMem a r => Laws.RowReads.readMem a r
  | .writeRawMem a v => Laws.RowReads.writeRawMem a v
  | .writeMem a ts => Laws.RowReads.writeMem a ts
  | .fillMem a n v => Laws.RowReads.fillMem a n v
  | .copyMem src dst n => Laws.RowReads.copyMem src dst n
  | .cmpMem a b n => Laws.RowReads.cmpMem a b n
  | .cmpStr a b => Laws.RowReads.cmpStr a b
  | .printMem a n => Laws.RowReads.printMem a n
  | .printStr a => Laws.RowReads.printStr a
  | .read r => Laws.RowReads.read r
  | .readKey r => Laws.RowReads.readKey r
  | .write ts => Laws.RowReads.write ts
  | .writeln ts => Laws.RowReads.writeln ts
  | .writeAV r => Laws.RowReads.writeAV r
  | .writeLV r => Laws.RowReads.writeLV r
  | .writeFV r => Laws.RowReads.writeFV r
  | .writeVal r => Laws.RowReads.writeVal r
  | .dump => Laws.RowReads.dump
  | .sleep ms => Laws.RowReads.sleep ms
  | .rand r lo hi => Laws.RowReads.rand r lo hi
  | .os r => Laws.RowReads.os r
  | .beep => Laws.RowReads.beep
  | .cmovf f d s => Laws.RowReads.cmovf f d s
  | .brk => Laws.RowReads.brk
  | .label name => Laws.RowReads.label name
  | .directive name => Laws.RowReads.directive name
  | .empty => Laws.RowReads.empty

/-- Settles O50: the tokenizer gives back the tokens the encoder wrote, and their row reads them back. -/
theorem decodeAfterEncode : Obligations.DecodeAfterEncode := by
  intro i wellFormed
  obtain lineClass | ⟨row, args, known, encoded, ok, reads⟩ := rowReads i wellFormed
  · exact lineClass
  · rw [encoded]
    exact decode_encodeLine known ok reads

end Sys2Proof.Proofs

namespace Sys2Proof.Machine

/-! ## Frames: what each write leaves as it was -/

/-- A write of registers changes nothing outside the register file. -/
theorem OnlyRegisters.of_regs (s : State) (regs : Vector Register 25) : OnlyRegisters s { s with regs := regs } where
  machine := ⟨⟨rfl, rfl, rfl, rfl⟩, rfl, rfl, rfl⟩
  memory := .of_eq rfl rfl
  events := rfl

theorem FacetsKept.of_reg {s t : State} (same : ∀ q, t.reg q = s.reg q) (vals avs lvs fvs : List Reg) :
    FacetsKept s t vals avs lvs fvs :=
  ⟨fun q _ => by rw [same q], fun q _ => by rw [same q], fun q _ => by rw [same q], fun q _ => by rw [same q]⟩

section
variable (s : State)

theorem FacetsKept.setVal (r : Reg) (v : GVal) : FacetsKept s (s.setVal r v) [r] [] [] [] := by
  constructor
  all_goals intro q other; simp_all

theorem FacetsKept.setAv (r : Reg) (v : Word) : FacetsKept s (s.setAv r v) [] [r] [] [] := by
  constructor
  all_goals intro q other; simp_all

theorem FacetsKept.setLv (r : Reg) (v : Wide) : FacetsKept s (s.setLv r v) [] [] [r] [] := by
  constructor
  all_goals intro q other; simp_all

theorem FacetsKept.setFlagBits (b : FlagBits) : FacetsKept s (s.setFlagBits b) [] [] [] [.flags] := by
  constructor
  all_goals intro q other; simp_all

theorem FacetsKept.setZPN (z p n : Bool) : FacetsKept s (s.setZPN z p n) [] [] [] [.flags] :=
  FacetsKept.setFlagBits s _

theorem FacetsKept.setPc (v : Word) : FacetsKept s (s.setPc v) [] [.pc] [] [] := FacetsKept.setAv s .pc v

theorem FacetsKept.fullMove (d r : Reg) : FacetsKept s (s.fullMove d r) [d] [d] [d] [d] := by
  constructor
  all_goals intro q other; simp_all

end

/-- The facets two writes after each other may change. -/
theorem FacetsKept.trans {s t u : State} {vals avs lvs fvs vals' avs' lvs' fvs' : List Reg}
    (first : FacetsKept s t vals avs lvs fvs) (second : FacetsKept t u vals' avs' lvs' fvs') :
    FacetsKept s u (vals ++ vals') (avs ++ avs') (lvs ++ lvs') (fvs ++ fvs') := by
  constructor
  all_goals
    intro q other
    obtain ⟨notFirst, notSecond⟩ := not_or.mp (mt List.mem_append.mpr other)
  · exact (second.val q notSecond).trans (first.val q notFirst)
  · exact (second.av q notSecond).trans (first.av q notFirst)
  · exact (second.lv q notSecond).trans (first.lv q notFirst)
  · exact (second.fv q notSecond).trans (first.fv q notFirst)

/-- A change outside the register file before the writes. -/
theorem FacetsKept.after {s t u : State} {vals avs lvs fvs : List Reg} (same : ∀ q, t.reg q = s.reg q)
    (kept : FacetsKept t u vals avs lvs fvs) : FacetsKept s u vals avs lvs fvs :=
  FacetsKept.trans (.of_reg same [] [] [] []) kept

/-- A larger list of facets that may change. -/
theorem FacetsKept.mono {s t : State} {vals avs lvs fvs vals' avs' lvs' fvs' : List Reg}
    (kept : FacetsKept s t vals avs lvs fvs) (val : vals ⊆ vals') (av : avs ⊆ avs') (lv : lvs ⊆ lvs')
    (fv : fvs ⊆ fvs') : FacetsKept s t vals' avs' lvs' fvs' :=
  ⟨fun q other => kept.val q fun h => other (val h), fun q other => kept.av q fun h => other (av h),
    fun q other => kept.lv q fun h => other (lv h), fun q other => kept.fv q fun h => other (fv h)⟩

theorem OnlyRegisters.refl (s : State) : OnlyRegisters s s := OnlyRegisters.of_regs s s.regs

end Sys2Proof.Machine

namespace Sys2Proof.Proofs
open Sys2Proof Sys2Proof.Machine

/-! ## Movement (O1, O2, O3) -/

/-- The `av` that `set` writes, if any: the value of its one token, when that is an int32 literal (41_movement R201). -/
def setLiteral : List Text → Option Word
  | [t] => (intValue t).bind fun v => if inInt32 v then some (wrap32 v) else none
  | _ => none

theorem setLiteral_eq_some_iff (ts : List Text) (w : Word) :
    setLiteral ts = some w ↔ ∃ x v, ts = [x] ∧ intValue x = some v ∧ inInt32 v = true ∧ wrap32 v = w := by
  match ts with
  | [t] => simp [setLiteral, Option.bind_eq_some_iff]
  | [] => simp [setLiteral]
  | _ :: _ :: _ => simp [setLiteral]

theorem exec_set (r : Reg) (ts : List Text) (s : State) :
    exec (.set r ts) s =
      let named := s.setVal r (.text (joinSpaced ts))
      .next ((setLiteral ts).elim named (named.setAv r)) := by
  match ts with
  | [t] =>
    cases int : intValue t with
    | none => simp [exec, execSet, setLiteral, int]
    | some v => cases inside : inInt32 v <;> simp [exec, execSet, setLiteral, int, inside]
  | [] => rfl
  | _ :: _ :: _ => rfl

/-- Settles O1: `val` is written always, and `av` exactly when `setLiteral` gives a value. -/
theorem setWritesJoinedText : Obligations.SetWritesJoinedText := by
  intro r ts s
  rw [exec_set]
  have named := FacetsKept.setVal s r (.text (joinSpaced ts))
  refine ⟨_, rfl, ?_⟩
  cases literal : setLiteral ts with
  | some w =>
    obtain ⟨x, v, rfl, int, inside, rfl⟩ := (setLiteral_eq_some_iff ts w).mp literal
    refine ⟨by simp, fun y u same int' _ => ?_, fun noLiteral => ?_, named.trans (FacetsKept.setAv _ r _),
      OnlyRegisters.of_regs s _⟩
    · obtain rfl : x = y := by simpa using same
      obtain rfl : v = u := by simpa [int] using int'
      simp
    · simp [noLiteral x v rfl int] at inside
  | none =>
    refine ⟨by simp, fun x v single int inside => ?_, fun _ => by simp, named.mono ?_ ?_ ?_ ?_,
      OnlyRegisters.of_regs s _⟩
    · have isLiteral := (setLiteral_eq_some_iff ts (wrap32 v)).mpr ⟨x, v, single, int, inside, rfl⟩
      rw [literal] at isLiteral
      cases isLiteral
    all_goals simp

/-- Settles O2: each is one write of one facet. -/
theorem oneFacetMovesWriteOneFacet : Obligations.OneFacetMovesWriteOneFacet :=
  ⟨fun r x s => ⟨s.setAv r (s.srcAv x), rfl, by simp, FacetsKept.setAv s r _, OnlyRegisters.of_regs s _⟩,
    fun r x s => ⟨s.setLv r (s.srcLv x), rfl, by simp, FacetsKept.setLv s r _, OnlyRegisters.of_regs s _⟩,
    fun d src s => ⟨s.setVal d (s.reg src).val, rfl, by simp, FacetsKept.setVal s d _, OnlyRegisters.of_regs s _⟩⟩

theorem exec_cmovf_of_set {s : State} {f : Flag} (set : flagOf s.flagBits f = true) (d src : Reg) :
    exec (.cmovf f d src) s = .next (s.fullMove d src) := if_pos set

theorem exec_cmovf_of_clear {s : State} {f : Flag} (clear : flagOf s.flagBits f = false) (d src : Reg) :
    exec (.cmovf f d src) s = .next s := if_neg (Bool.not_eq_true _ ▸ clear)

/-- Settles O3: `mov` is the full move, and `cmovf` is it or nothing. -/
theorem fullMoveCopiesAndMarks : Obligations.FullMoveCopiesAndMarks := by
  intro d src s
  refine ⟨⟨s.fullMove d src, rfl, by simp, by simp, by simp, by simp [copiedBits], FacetsKept.fullMove s d src,
    OnlyRegisters.of_regs s _⟩, fun f set => exec_cmovf_of_set set d src, fun f clear => exec_cmovf_of_clear clear d src⟩

/-! ## Arithmetic (O4 to O8) -/

/-- Settles O4. -/
theorem wrapIsReductionToInt32 : Obligations.WrapIsReductionToInt32 := by
  intro v
  rw [wrap32, BitVec.toInt_ofInt, Int.bmod_def]
  split <;> omega

/-- Settles O5: the three are the template of R220, each with its exact result wrapped. -/
theorem addSubMulWrap : Obligations.AddSubMulWrap := fun d x s =>
  ⟨s.arith_spec d x addOp, s.arith_spec d x subOp, s.arith_spec d x mulOp⟩


/-- The remainder of the truncating division fits: it is smaller than the divisor in absolute value. -/
theorem toInt_modOp (a : Word) {b : Word} (nonzero : b ≠ 0) : (modOp a b).toInt = a.toInt.tmod b.toInt := by
  have divisor : b.toInt ≠ 0 := by simpa [← BitVec.toInt_inj] using nonzero
  have small : (a.toInt.tmod b.toInt).natAbs < b.toInt.natAbs := by
    rw [Int.natAbs_tmod]
    exact Nat.mod_lt _ (Int.natAbs_pos.mpr divisor)
  have low := BitVec.le_toInt b
  have high := BitVec.toInt_lt (x := b)
  rw [modOp, ← Int.tmod_def]
  exact toInt_wrap32 (by omega) (by omega)

/-- Settles O6: the template of R220 behind the test of the divisor; the remainder is `Int.tmod`, which gives its bound and
its sign. -/
theorem divModTruncate : Obligations.DivModTruncate := by
  intro d x s
  refine ⟨fun nonzero => ⟨?_, ?_⟩, fun zero => ⟨State.arithNonzero_zero zero d divOp, State.arithNonzero_zero zero d modOp⟩⟩
  · have divides : exec (.div d x) s = s.arith d x divOp := State.arithNonzero_of_ne nonzero d divOp
    rw [divides]
    exact s.arith_spec d x divOp
  · have remains : exec (.mod d x) s = s.arith d x modOp := State.arithNonzero_of_ne nonzero d modOp
    obtain ⟨t, answered, av, flags, facets, outside⟩ := s.arith_spec d x modOp
    have value : (t.reg d).av.toInt = (s.reg d).av.toInt.tmod (s.srcAv x).toInt := by rw [av, toInt_modOp _ nonzero]
    have divisor : (s.srcAv x).toInt ≠ 0 := by simpa [← BitVec.toInt_inj] using nonzero
    refine ⟨t, remains.trans answered, by rw [value, Int.tmod_def], ?_, ?_, flags, facets, outside⟩
    · rw [value, ← Int.natCast_natAbs, ← Int.natCast_natAbs, Int.natAbs_tmod]
      exact_mod_cast Nat.mod_lt _ (Int.natAbs_pos.mpr divisor)
    · rw [value, Int.sign_tmod]
      split
      · next divides => exact .inl (Int.tmod_eq_zero_of_dvd divides)
      · exact .inr rfl

/-- The low five bits are the remainder modulo 32. -/
theorem shiftCount_eq (b : Word) : shiftCount b = b.toNat % 32 := by
  rw [shiftCount, BitVec.toNat_and]
  exact Nat.and_two_pow_sub_one_eq_mod b.toNat 5

theorem shrOp_eq (a b : Word) : shrOp a b = a.sshiftRight (b.toNat % 32) := by
  have power : (0 : Int) ≤ 2 ^ (b.toNat % 32) := by positivity
  rw [shrOp, shiftCount_eq, Int.fdiv_eq_ediv_of_nonneg _ power, BitVec.sshiftRight, Int.shiftRight_eq_div_pow, wrap32]
  norm_cast

/-- Settles O7. -/
theorem shiftsMaskTheirCount : Obligations.ShiftsMaskTheirCount := by
  intro d x s
  obtain ⟨t, left, leftAv, leftFrame⟩ := s.arith_spec d x shlOp
  obtain ⟨u, right, rightAv, rightFrame⟩ := s.arith_spec d x shrOp
  exact ⟨⟨t, left, by rw [leftAv, shlOp, shiftCount_eq], leftFrame⟩, ⟨u, right, by rw [rightAv, shrOp_eq], rightFrame⟩⟩

/-- What `not` does: the template of R220 without a second operand. -/
theorem exec_not_spec (d : Reg) (s : State) :
    ∃ t, exec (.not d) s = .next t ∧ (t.reg d).av = ~~~(s.reg d).av ∧
      SignFlagsSet s t (t.reg d).av.toInt ∧ FacetsKept s t [] [d] [] [.flags] ∧ OnlyRegisters s t :=
  s.arith_spec d (.reg d) fun a _ => ~~~a

theorem toInt_not (a : Word) : (~~~a).toInt = -a.toInt - 1 := by
  have bound := a.isLt
  rw [BitVec.toInt_eq_toNat_cond, BitVec.toInt_eq_toNat_cond, BitVec.toNat_not]
  split <;> split <;> omega

/-- Settles O8: the bits of the results are the bit operations on words. -/
theorem bitwiseActsOnEveryBit : Obligations.BitwiseActsOnEveryBit := by
  intro d x s
  obtain ⟨t, andIs, andAv, andFrame⟩ := s.arith_spec d x (fun a b => a &&& b)
  obtain ⟨u, orIs, orAv, orFrame⟩ := s.arith_spec d x (fun a b => a ||| b)
  obtain ⟨v, xorIs, xorAv, xorFrame⟩ := s.arith_spec d x (fun a b => a ^^^ b)
  obtain ⟨w, notIs, notAv, notFrame⟩ := exec_not_spec d s
  refine ⟨⟨t, andIs, fun n => ?_, andFrame⟩, ⟨u, orIs, fun n => ?_, orFrame⟩, ⟨v, xorIs, fun n => ?_, xorFrame⟩,
    ⟨w, notIs, fun n low => ?_, ?_, notFrame⟩⟩
  · rw [andAv, BitVec.getLsbD_and]
  · rw [orAv, BitVec.getLsbD_or]
  · rw [xorAv, BitVec.getLsbD_xor]
  · rw [notAv, BitVec.getLsbD_not, decide_eq_true low, Bool.true_and]
  · rw [notAv, toInt_not]

/-! ## Comparison and flag writes (O9, O10, O11) -/

/-- What a write of Z, P and N does. -/
structure SignsSetTo (s t : State) (z p n : Bool) : Prop where
  zero : flagOf t.flagBits .zero = z
  positive : flagOf t.flagBits .positive = p
  negative : flagOf t.flagBits .negative = n
  others : ∀ k, 3 ≤ k → t.flagBits.getLsbD k = s.flagBits.getLsbD k
  facets : FacetsKept s t [] [] [] [.flags]
  outside : OnlyRegisters s t

theorem signsSetTo_setZPN (s : State) (z p n : Bool) : SignsSetTo s (s.setZPN z p n) z p n where
  zero := by simp
  positive := by simp
  negative := by simp
  others k high := by rw [State.flagBits_setZPN, getLsbD_zpnBits _ _ _ _ _ high]
  facets := FacetsKept.setZPN s z p n
  outside := .of_regs s _

/-- Settles O9. -/
theorem cmpOrdersOperands : Obligations.CmpOrdersOperands := by
  intro d x s
  obtain ⟨zero, positive, negative, others, facets, outside⟩ := signsSetTo_setZPN s
    (decide ((s.reg d).av.toInt = (s.srcAv x).toInt)) (decide ((s.srcAv x).toInt < (s.reg d).av.toInt))
    (decide ((s.reg d).av.toInt < (s.srcAv x).toInt))
  refine ⟨_, rfl, ?_, positive, negative, others, facets, outside⟩
  rw [zero]
  simp only [BitVec.toInt_inj]

theorem eqv_eq_decide (a b : GVal) : eqv a b = decide (a = b) := by
  rw [Bool.eq_iff_iff, eqv_iff_eq, decide_eq_true_iff]

/-- The characters that fold to a lower-case ASCII letter are the letter itself and its capital. -/
theorem lowerAscii_eq_iff {lower upper : Char} (isUpper : 65 ≤ upper.toNat ∧ upper.toNat ≤ 90)
    (apart : lower.toNat = upper.toNat + 32) (c : CodePoint) :
    lowerAscii c = .scalar lower ↔ ∃ a, c = .scalar a ∧ (a = lower ∨ a = upper) := by
  cases c with
  | surrogate k =>
    have high : ¬ (65 ≤ (CodePoint.surrogate k).code ∧ (CodePoint.surrogate k).code ≤ 90) := by
      simp only [CodePoint.code]
      omega
    simp [lowerAscii, high]
  | scalar a =>
    have named : (∃ x, CodePoint.scalar a = .scalar x ∧ (x = lower ∨ x = upper)) ↔ a = lower ∨ a = upper := by simp
    rw [named]
    by_cases capital : 65 ≤ a.toNat ∧ a.toNat ≤ 90
    · have folds : lowerAscii (.scalar a) = .scalar (Char.ofNat (a.toNat + 32)) := if_pos capital
      have code : (Char.ofNat (a.toNat + 32)).toNat = a.toNat + 32 := by
        rw [Char.toNat_ofNat, if_pos (.inl (by omega))]
      rw [folds, CodePoint.scalar.injEq, ← Char.toNat_inj, code, ← Char.toNat_inj, ← Char.toNat_inj]
      omega
    · have stays : lowerAscii (.scalar a) = .scalar a := if_neg capital
      rw [stays, CodePoint.scalar.injEq, ← Char.toNat_inj, ← Char.toNat_inj]
      omega

theorem map_lowerAscii_eq_true_iff (m : Text) :
    m.map lowerAscii = chars ['t', 'r', 'u', 'e'] ↔ ∃ a b c d, m = chars [a, b, c, d] ∧
      (a = 't' ∨ a = 'T') ∧ (b = 'r' ∨ b = 'R') ∧ (c = 'u' ∨ c = 'U') ∧ (d = 'e' ∨ d = 'E') := by
  have t := lowerAscii_eq_iff (lower := 't') (upper := 'T') (by decide) rfl
  have r := lowerAscii_eq_iff (lower := 'r') (upper := 'R') (by decide) rfl
  have u := lowerAscii_eq_iff (lower := 'u') (upper := 'U') (by decide) rfl
  have e := lowerAscii_eq_iff (lower := 'e') (upper := 'E') (by decide) rfl
  simp only [List.map_cons, List.map_nil, List.map_eq_cons_iff, List.map_eq_nil_iff, t, r, u, e]
  constructor
  · rintro ⟨_, _, rfl, ⟨a, rfl, ha⟩, _, _, rfl, ⟨b, rfl, hb⟩, _, _, rfl, ⟨c, rfl, hc⟩, _, _, rfl, ⟨d, rfl, hd⟩, rfl⟩
    exact ⟨a, b, c, d, rfl, ha, hb, hc, hd⟩
  · rintro ⟨a, b, c, d, rfl, ha, hb, hc, hd⟩
    exact ⟨_, _, rfl, ⟨a, rfl, ha⟩, _, _, rfl, ⟨b, rfl, hb⟩, _, _, rfl, ⟨c, rfl, hc⟩, _, _, rfl, ⟨d, rfl, hd⟩, rfl⟩

theorem trimsTo_iff (t m : Text) : TrimsTo t m ↔ trim t = m :=
  ⟨trim_eq, fun h => h ▸ trimsTo_trim t⟩

/-- A text is true exactly when it is the word `true` in any case inside white space (43_comparison R255). -/
theorem isTrue_text_iff (u : Text) :
    Machine.isTrue (.text u) = true ↔ ∃ a b c d, TrimsTo u (chars [a, b, c, d]) ∧
      (a = 't' ∨ a = 'T') ∧ (b = 'r' ∨ b = 'R') ∧ (c = 'u' ∨ c = 'U') ∧ (d = 'e' ∨ d = 'E') := by
  simp only [Machine.isTrue, decide_eq_true_iff, map_lowerAscii_eq_true_iff, trimsTo_iff]

/-- Settles O10. -/
theorem cmpvComparesValues : Obligations.CmpvComparesValues := by
  refine ⟨fun x y s => ?_, rfl, rfl, rfl, fun _ => rfl, isTrue_text_iff⟩
  obtain ⟨zero, positive, negative, others, facets, outside⟩ := signsSetTo_setZPN s (eqv (s.gArg x) (s.gArg y)) false
    (Machine.isTrue (s.gArg x) && Machine.isTrue (s.gArg y))
  exact ⟨_, rfl, zero.trans (eqv_eq_decide _ _), positive, negative, others, facets, outside⟩

theorem getLsbD_raiseFlag (b : FlagBits) (f : Flag) (k : Nat) :
    (raiseFlag b f).getLsbD k = if k = f.bit then true else b.getLsbD k := by
  split
  · next same => rw [raiseFlag, BitVec.getLsbD_or, getLsbD_flagMask, decide_eq_true same, Bool.or_true]
  · next other => exact getLsbD_raiseFlag_of_ne b other

theorem getLsbD_dropFlag (b : FlagBits) (f : Flag) (k : Nat) :
    (dropFlag b f).getLsbD k = if k = f.bit then false else b.getLsbD k := by
  split
  · next same => simp [dropFlag, same]
  · next other => exact getLsbD_dropFlag_of_ne b other

/-- Settles O11. -/
theorem flagWritesTouchOneBit : Obligations.FlagWritesTouchOneBit := by
  intro f s
  have writes (b : FlagBits) : FacetsKept s (s.setFlagBits b) [] [] [] [.flags] ∧ OnlyRegisters s (s.setFlagBits b) :=
    ⟨.setFlagBits s b, .of_regs s _⟩
  refine ⟨⟨_, rfl, fun n => ?_, writes _⟩, ⟨_, rfl, fun n => ?_, writes _⟩⟩
  · rw [State.flagBits_setFlagBits, getLsbD_raiseFlag]
  · rw [State.flagBits_setFlagBits, getLsbD_dropFlag]

end Sys2Proof.Proofs

namespace Sys2Proof.Machine

/-! ## More frames -/

/-- What a write of one `av` beside a new stack leaves as it was. -/
structure StackFrame (s t : State) (avs : List Reg) : Prop where
  facets : FacetsKept s t [] avs [] []
  program : ProgramKept s t
  memory : MemoryKept s t
  run : t.run = s.run
  answers : t.answers = s.answers
  events : t.events = s.events

theorem StackFrame.setAv (s : State) (stack : List Word) (r : Reg) (v : Word) :
    StackFrame s (({ s with stack := stack } : State).setAv r v) [r] where
  facets := .after (t := { s with stack := stack }) (fun _ => rfl) (.setAv _ r v)
  program := ⟨rfl, rfl, rfl, rfl⟩
  memory := .of_eq rfl rfl
  run := rfl
  answers := rfl
  events := rfl

end Sys2Proof.Machine

namespace Sys2Proof.Proofs
open Sys2Proof Sys2Proof.Machine

/-! ## Jumps, call, ret, loop, exit, push, pop (O13 to O19) -/

/-- What the jump template does with a known label (44_control_flow R270). -/
theorem jumpIf_spec {s : State} {l : Text} {k : Nat} (known : s.labelIndex l = some k) (c : Bool) :
    ∃ t, s.jumpIf l c = .next t ∧ t.pc = (if c then wrap32 ((k : Int) - 1) else s.pc) ∧
      FacetsKept s t [] [.pc] [] [] ∧ OnlyRegisters s t := by
  rw [State.jumpIf_known known]
  refine ⟨_, rfl, ?_⟩
  cases c with
  | true => exact ⟨s.pc_redirect k, .setPc s _, .of_regs s _⟩
  | false => exact ⟨rfl, .of_reg (fun _ => rfl) .., .refl s⟩

/-- Settles O13: each jump is the template with its own condition. -/
theorem jumpsRedirectOnTheirFlag : Obligations.JumpsRedirectOnTheirFlag := by
  intro l s k known p listed
  simp only [List.mem_cons, List.not_mem_nil, or_false] at listed
  rcases listed with rfl | rfl | rfl | rfl | rfl | rfl | rfl | rfl | rfl | rfl | rfl
  all_goals exact jumpIf_spec known _

/-- Settles O14: the label is looked up before anything else. -/
theorem unknownLabelSkips : Obligations.UnknownLabelSkips := by
  intro l s unknown i listed
  simp only [List.mem_cons, List.not_mem_nil, or_false] at listed
  rcases listed with rfl | rfl | rfl | rfl | rfl | rfl | rfl | rfl | rfl | rfl | rfl | rfl | rfl
  all_goals exact State.withLabel_unknown unknown _

theorem stackFull_iff (s : State) : s.stackFull = true ↔ s.params.stackDepth = some s.stack.length := by
  simp [State.stackFull]

theorem execCall_of_free {s : State} {l : Text} {k : Nat} (known : s.labelIndex l = some k)
    (free : s.params.stackDepth ≠ some s.stack.length) :
    exec (.call l) s = .next ((s.push s.pc).redirect k) :=
  (State.withLabel_known known _).trans (if_neg (mt (stackFull_iff s).mp free))

/-- Settles O15. -/
theorem callPushesItsIndex : Obligations.CallPushesItsIndex := by
  intro l s k known
  refine ⟨fun free => ?_, fun full => ?_⟩
  · obtain ⟨facets, program, memory, run, answers, events⟩ :=
      StackFrame.setAv s (s.pc :: s.stack) .pc (wrap32 ((k : Int) - 1))
    exact ⟨_, execCall_of_free known free, rfl, State.pc_redirect .., facets, program, memory, run, answers, events⟩
  · exact (State.withLabel_known known _).trans (if_pos ((stackFull_iff s).mpr full))

/-- Settles O16. -/
theorem retPopsOrTerminates : Obligations.RetPopsOrTerminates := by
  intro s
  refine ⟨fun v rest stack => ?_, fun empty => ?_⟩
  · obtain ⟨facets, program, memory, run, answers, events⟩ := StackFrame.setAv s rest .pc v
    exact ⟨_, execRet_of_cons stack, rfl, State.pc_setPc .., facets, program, memory, run, answers, events⟩
  · rw [execRet_of_nil empty]
    simp [State.terminate, State.diag, State.emit]

theorem wrap32_pred (a : Word) : wrap32 (a.toInt - 1) = a - 1 := by
  rw [wrap32, Int.sub_eq_add_neg, BitVec.ofInt_add, BitVec.ofInt_toInt, BitVec.sub_eq_add_neg]
  rfl

/-- Settles O17: the decremented counter is 0 exactly when the counter was 1. -/
theorem loopCountsEcxDown : Obligations.LoopCountsEcxDown := by
  intro l s k known
  have counted : FacetsKept s (s.setAv .ecx (wrap32 ((s.reg .ecx).av.toInt - 1))) [] [.ecx] [] [] := .setAv s _ _
  have last_iff : wrap32 ((s.reg .ecx).av.toInt - 1) = 0 ↔ (s.reg .ecx).av = 1 := by rw [wrap32_pred, sub_eq_zero]
  have looped : exec (.loop l) s = _ := State.withLabel_known known _
  by_cases last : (s.reg .ecx).av = 1
  · refine ⟨_, looped.trans (if_neg (not_not.mpr (last_iff.mpr last))), by simp, ?_, counted.mono ?_ ?_ ?_ ?_, .of_regs s _⟩
    · rw [if_pos last]
      simp [State.pc]
    all_goals simp
  · refine ⟨_, looped.trans (if_pos (mt last_iff.mp last)), by simp, ?_, counted.trans (.setPc _ _), .of_regs s _⟩
    rw [if_neg last, State.pc_redirect]

/-- Settles O18. -/
theorem exitTerminates : Obligations.ExitTerminates := by
  intro n s
  cases n with
  | none => exact exec_exit_none s
  | some x => exact exec_exit_some x s

/-- Settles O19. -/
theorem pushAndPop : Obligations.PushAndPop := by
  refine ⟨fun x s => ⟨fun free => execPush_of_not_full free x, fun full => ?_⟩,
    fun r s => ⟨fun v rest stack => ?_, fun empty => ?_⟩⟩
  · exact if_pos ((stackFull_iff s).mpr full)
  · obtain ⟨facets, program, memory, run, answers, events⟩ := StackFrame.setAv s rest r v
    exact ⟨_, execPop_of_cons stack r, rfl, by simp, facets, program, memory, run, answers, events⟩
  · exact execPop_of_nil empty r

/-! ## The loop (O35, O36, O37, O39, O41) -/

/-- Settles O35. -/
theorem noOpLinesChangeNothing : Obligations.NoOpLinesChangeNothing := fun _ _ => ⟨rfl, rfl, rfl⟩

theorem finish_eq (t : State) :
    t.finish = if t.run = .running then t.setAv .pc (wrap32 (t.pc.toInt + 1)) else t := by
  split
  · next running => exact State.finish_running running
  · next stopped => exact State.finish_stopped stopped

/-- Settles O36: after the fetch and the decoding, what is left of a step is `exec` and `finish`. -/
theorem stepRunsTheDecodedInstruction : Obligations.StepRunsTheDecodedInstruction := by
  intro s line i running nonneg fetched decoded
  rw [step_of_line running nonneg fetched, runLine_of_instr decoded]
  cases exec i s with
  | next t => exact congrArg _ (finish_eq t)
  | fault f => rfl
  | refused r => rfl

theorem toInt_eq_toNat {w : Word} (nonneg : 0 ≤ w.toInt) : w.toInt = w.toNat :=
  BitVec.toInt_eq_toNat_of_msb (by simpa [BitVec.msb_eq_toInt] using nonneg)

/-- Settles O37. -/
theorem loopHeadEndsTheRun : Obligations.LoopHeadEndsTheRun := by
  intro s
  refine ⟨fun running pastEnd => ?_, step_of_pc_negative, step_of_not_running⟩
  have nonneg : 0 ≤ s.pc.toInt := (Int.natCast_nonneg _).trans pastEnd
  have sameIndex : s.pc.toInt = s.pc.toNat := toInt_eq_toNat nonneg
  have noLine : s.irom[s.pc.toNat]? = none := List.getElem?_eq_none (by rw [State.count] at pastEnd; omega)
  exact step_of_no_line running nonneg noLine

/-- Settles O39. -/
theorem operandFailureSkips : Obligations.OperandFailureSkips := by
  intro s line code running nonneg fetched skips
  have stepped : step s = .next (s.diag code).advance := by
    rw [step_of_line running nonneg fetched, runLine_of_skip skips, State.skip, finishResult,
      State.finish_running (s := s.diag code) running]
  refine ⟨_, stepped, by simp, by simp, ?_, ⟨⟨rfl, rfl, rfl, rfl⟩, rfl, rfl, rfl⟩, .of_eq rfl rfl⟩
  exact .after (t := s.diag code) (fun _ => rfl) (.setPc _ _)

/-- A step at a line whose instruction goes on. -/
theorem step_of_exec {s t : State} {line : Text} {i : Instr} (running : s.run = .running) (nonneg : 0 ≤ s.pc.toInt)
    (fetched : s.irom[s.pc.toNat]? = some line) (decoded : decode line = .instr i) (answered : exec i s = .next t)
    (goesOn : t.run = .running) : step s = .next t.advance := by
  rw [step_of_line running nonneg fetched, runLine_of_instr decoded, answered, finishResult,
    State.finish_running goesOn]

/-- An index of a line, as a program counter. -/
theorem index_of_pc {w : Word} {k : Nat} (is : w = wrap32 k) (small : k < 2 ^ 31) : w.toInt = k ∧ w.toNat = k := by
  have signed : w.toInt = k := by rw [is]; exact toInt_wrap32 (by omega) (by exact_mod_cast small)
  have sameIndex : w.toInt = w.toNat := toInt_eq_toNat (by omega)
  omega

/-- Settles O41: the call lands on the label's line, the label line on the `ret`, and the `ret` one past the pushed index
of the call. -/
theorem callThenRetResumes : Obligations.CallThenRetResumes := by
  intro s l n line line' line'' k running nonneg fetched call known small free labelFetched label retFetched ret
  let t := ((s.push s.pc).redirect k).advance
  have called : step s = .next t := step_of_exec running nonneg fetched call (execCall_of_free known free) running
  obtain ⟨tPc, tIndex⟩ : t.pc.toInt = k ∧ t.pc.toNat = k :=
    index_of_pc (redirectLandsOnTarget (s.push s.pc) k).2 (by omega)
  let u := t.advance
  have passed : step t = .next u :=
    step_of_exec (s := t) running (by omega) (by rw [tIndex]; exact labelFetched) label rfl running
  obtain ⟨uPc, uIndex⟩ : u.pc.toInt = (k + 1 : Nat) ∧ u.pc.toNat = k + 1 :=
    index_of_pc (by rw [State.pc_advance, tPc]; rfl) small
  have uStack : u.stack = s.pc :: s.stack := rfl
  let v := (({ u with stack := s.stack } : State).setPc s.pc).advance
  have returned : step u = .next v :=
    step_of_exec (s := u) running (by omega) (by rw [uIndex]; exact retFetched) ret (execRet_of_cons uStack) running
  exact ⟨t, u, v, called, tPc, passed, uPc, returned, by simp [v], rfl, running⟩

end Sys2Proof.Proofs

namespace Sys2Proof.Machine

/-- What a request that takes an answer, and the register writes after it, leave as they were. -/
structure AnswerFrame (s t : State) (vals avs lvs : List Reg) : Prop where
  facets : FacetsKept s t vals avs lvs []
  program : ProgramKept s t
  memory : MemoryKept s t
  stack : t.stack = s.stack
  run : t.run = s.run

/-- A request, then writes of facets. -/
theorem AnswerFrame.of_asked {s : State} {e : HostEvent} {a : HostAnswers} {regs : Vector Register 25}
    {vals avs lvs : List Reg}
    (written : FacetsKept ((s.emit e).answered a) { (s.emit e).answered a with regs := regs } vals avs lvs []) :
    AnswerFrame s { (s.emit e).answered a with regs := regs } vals avs lvs where
  facets := .after (t := (s.emit e).answered a) (fun _ => rfl) written
  program := ⟨rfl, rfl, rfl, rfl⟩
  memory := .of_eq rfl rfl
  stack := rfl
  run := rfl

end Sys2Proof.Machine

namespace Sys2Proof.Proofs
open Sys2Proof Sys2Proof.Machine

/-! ## Requests that take an answer (O31, O34) -/

theorem execRead_eq (r : Reg) (s : State) :
    exec (.read r) s = .next (((s.emit .readLine).answered { s.answers with lines := s.answers.lines.tail }).setVal r
      (.text s.askLine.1)) :=
  congrArg (fun t : State => (.next (t.setVal r (.text s.askLine.1)) : Result)) s.askLine_spec.2

theorem execOs_eq (r : Reg) (s : State) :
    exec (.os r) s = .next (((s.emit .osQuery).answered { s.answers with osTexts := s.answers.osTexts.tail }).setVal r
      (.text s.askOs.1)) :=
  congrArg (fun t : State => (.next (t.setVal r (.text s.askOs.1)) : Result)) s.askOs_spec.2

theorem execReadKey_eq (r : Reg) (s : State) :
    exec (.readKey r) s = .next (((((s.emit .readKey).answered { s.answers with keys := s.answers.keys.tail }).setVal r
      (.text s.askKey.1.char)).setAv r s.askKey.1.code).setLv r (s.askKey.1.mask.setWidth 64)) :=
  congrArg (fun t : State => (.next (((t.setVal r (.text s.askKey.1.char)).setAv r s.askKey.1.code).setLv r
    (s.askKey.1.mask.setWidth 64)) : Result)) s.askKey_spec.2

/-- A modifier mask in an `lv` is in 0..7. -/
theorem mask_bounds : ∀ m : BitVec 3, (m.setWidth 64).toInt = (m.toNat : Int) ∧ (m.setWidth 64).toNat ≤ 7 := by decide

/-- Settles O31. -/
theorem readsTakeAnAnswer : Obligations.ReadsTakeAnAnswer := by
  intro r s
  refine ⟨⟨_, s.askLine.1, execRead_eq r s, by simp, s.askLine_spec.1, rfl, ?_⟩,
    ⟨_, s.askKey.1, execReadKey_eq r s, by simp, by simp, ?_, ?_, s.askKey_spec.1, rfl, ?_⟩,
    ⟨_, s.askOs.1, execOs_eq r s, by simp, s.askOs_spec.1, rfl, ?_⟩⟩
  · obtain ⟨facets, program, memory, stack, run⟩ := AnswerFrame.of_asked (s := s) (e := .readLine)
      (.setVal ((s.emit .readLine).answered { s.answers with lines := s.answers.lines.tail }) r (.text s.askLine.1))
    exact ⟨facets, program, memory, stack, run, rfl⟩
  · simpa using (mask_bounds s.askKey.1.mask).1
  · simpa using (mask_bounds s.askKey.1.mask).2
  · have written : FacetsKept _ _ _ _ _ _ := ((FacetsKept.setVal ((s.emit .readKey).answered
      { s.answers with keys := s.answers.keys.tail }) r (.text s.askKey.1.char)).trans (.setAv _ r s.askKey.1.code)).trans
      (.setLv _ r (s.askKey.1.mask.setWidth 64))
    obtain ⟨facets, program, memory, stack, run⟩ := AnswerFrame.of_asked (s := s) (e := .readKey) written
    exact ⟨facets, program, memory, stack, run, rfl⟩
  · obtain ⟨facets, program, memory, stack, run⟩ := AnswerFrame.of_asked (s := s) (e := .osQuery)
      (.setVal ((s.emit .osQuery).answered { s.answers with osTexts := s.answers.osTexts.tail }) r (.text s.askOs.1))
    exact ⟨facets, program, memory, stack, run, rfl⟩

/-- Settles O34: the three clauses are the three answers of `rand`. -/
theorem randDrawsInRange : Obligations.RandDrawsInRange := by
  intro r lo hi s
  refine ⟨fun nonempty ready => ?_, fun empty => execRand_of_empty empty r,
    fun nonempty notReady => execRand_of_not_ready nonempty notReady r⟩
  obtain ⟨v, answered, low, high, queued⟩ := execRand_of_ready nonempty ready r
  obtain ⟨facets, program, memory, stack, run⟩ := AnswerFrame.of_asked (s := s)
    (e := .random (s.srcAv lo) (s.srcAv hi))
    (.setAv ((s.emit (.random (s.srcAv lo) (s.srcAv hi))).answered
      { s.answers with draws := s.answers.draws.tail }) r v)
  refine ⟨_, answered, by simpa using low, by simpa using high, fun y hy => ?_, rfl, facets, program, memory, stack, run,
    rfl⟩
  simpa using queued y hy

/-! ## Transactions (O32, O33) -/

/-- Settles O32. -/
theorem writesEmitTheirText : Obligations.WritesEmitTheirText := by
  refine ⟨fun ts s => ⟨rfl, rfl⟩, fun r s => ⟨rfl, rfl, rfl, render (s.reg r).val, rfl, fun u is => ?_, fun n is => ?_,
    fun is => ?_, fun is => ?_, fun is => ?_⟩⟩
  all_goals
    rw [is]
    rfl

theorem length_snapshot (s : State) : s.snapshot.length = 25 := by
  rw [State.snapshot, List.length_map]
  rfl

/-- The snapshot is in id order (46_io_meta R348). -/
theorem getElem?_snapshot (s : State) (r : Reg) : s.snapshot[r.id.val]? = some (r, s.reg r) := by
  have ordered : Reg.all[r.id.val]? = some r := Reg.ofId_id r
  rw [State.snapshot, List.getElem?_map, ordered]
  rfl

/-- Settles O33. -/
theorem dumpSleepBeepBreakEmitOnce : Obligations.DumpSleepBeepBreakEmitOnce := by
  intro s
  exact ⟨⟨s.snapshot, rfl, length_snapshot s, getElem?_snapshot s⟩, rfl, rfl,
    fun x => ⟨fun nonneg => if_neg (not_lt.mpr nonneg), fun negative => if_pos negative⟩⟩

end Sys2Proof.Proofs

namespace Sys2Proof.Machine

/-! ## Frames of memory accesses -/

theorem MachineKept.trans {s t u : State} (first : MachineKept s t) (second : MachineKept t u) : MachineKept s u :=
  ⟨first.program.trans second.program, second.stack.trans first.stack, second.run.trans first.run,
    second.answers.trans first.answers⟩

theorem MemoryKept.trans {s t u : State} (first : MemoryKept s t) (second : MemoryKept t u) : MemoryKept s u :=
  fun a => (second a).trans (first a)

/-- Accesses to data memory, `n` of them out of range: what they leave as it was, and what goes out. -/
structure AccessFrame (s t : State) (n : Nat) : Prop where
  events : t.events = s.events ++ oobDiags s n
  registers : RegistersKept s t
  machine : MachineKept s t

/-- Whatever becomes of the memory. -/
theorem AccessFrame.of_mem (s : State) (n : Nat) (m : Memory) : AccessFrame s { s.oob n with mem := m } n :=
  ⟨rfl, fun _ => rfl, ⟨⟨rfl, rfl, rfl, rfl⟩, rfl, rfl, rfl⟩⟩

theorem AccessFrame.of_reads {s t : State} {n : Nat} (reads : t = s.oob n) : AccessFrame s t n := reads ▸ .of_mem s n s.mem

theorem MemoryKept.of_reads {s t : State} {n : Nat} (reads : t = s.oob n) : MemoryKept s t := reads ▸ fun _ => rfl

theorem AccessFrame.trans {s t u : State} {n m : Nat} (first : AccessFrame s t n) (second : AccessFrame t u m) :
    AccessFrame s u (n + m) where
  events := by
    have samePc : oobDiags t m = oobDiags s m := by rw [oobDiags, oobDiags, State.pc, first.registers .pc, State.pc]
    rw [second.events, first.events, samePc, List.append_assoc]
    simp only [oobDiags, List.replicate_add]
  registers q := (second.registers q).trans (first.registers q)
  machine := first.machine.trans second.machine

theorem AccessFrame.memWrite (s : State) (a : Int) (v : Word) : AccessFrame s (s.memWrite a v) (s.outside a 1) := by
  obtain ⟨m, written⟩ := s.memWrite_state a v
  exact written ▸ .of_mem s _ m

theorem AccessFrame.writeCells (s : State) (a : Int) (ws : List Word) :
    AccessFrame s (s.writeCells a ws) (s.outside a ws.length) := by
  obtain ⟨m, written⟩ := s.writeCells_state a ws
  exact written ▸ .of_mem s _ m

theorem AccessFrame.copyCells (s : State) (p q : Int) (n : Nat) :
    AccessFrame s (s.copyCells p q n) (s.outside p n + s.outside q n) := by
  obtain ⟨m, copied⟩ := s.copyCells_state p q n
  exact copied ▸ .of_mem s _ m

/-- Accesses, then the flags of a result. -/
theorem AccessFrame.signFlags {s t : State} {n : Nat} (frame : AccessFrame s t n) (v : Int) :
    SignFlagsSet s (t.signFlags v) v ∧ (t.signFlags v).events = s.events ++ oobDiags s n ∧
      FacetsKept s (t.signFlags v) [] [] [] [.flags] ∧ MachineKept s (t.signFlags v) :=
  ⟨SignFlagsSet.signFlags s t (congrArg Register.fv (frame.registers .flags)) v, frame.events,
    .after frame.registers (.setZPN t ..), frame.machine.trans (OnlyRegisters.of_regs t _).machine⟩

/-- The diagnostic of one access. -/
theorem oobDiags_outside_one (s : State) (a : Int) :
    oobDiags s (s.outside a 1) = if s.inRange a then [] else [.diagnostic .memOob s.pc] := by
  cases inside : s.inRange a <;> simp [State.outside, oobDiags, inside]

end Sys2Proof.Machine

namespace Sys2Proof.Proofs
open Sys2Proof Sys2Proof.Machine

/-! ## One cell (O22, O23) -/

theorem cell_of_outOfRange {s : State} {a : Int} (outside : s.inRange a = false) : s.cell a = 0 :=
  if_neg (Bool.not_eq_true _ ▸ outside)

/-- Settles O22. -/
theorem readMemLoadsCell : Obligations.ReadMemLoadsCell := by
  intro a r s d
  have touched : AccessFrame s (s.touch (s.addr a)) (s.outside (s.addr a) 1) := .of_reads (s.touch_eq _)
  refine ⟨(s.touch (s.addr a)).setAv d (s.cell (s.addr a)), rfl, by simp, fun outside => ?_, ?_,
    .after touched.registers (.setAv _ d _), touched.machine.trans (OnlyRegisters.of_regs _ _).machine, ?_⟩
  · simpa using cell_of_outOfRange outside
  · exact touched.events.trans (by rw [oobDiags_outside_one])
  · exact MemoryKept.trans (s.cell_touch _) (OnlyRegisters.of_regs _ _).memory

/-- Settles O23. -/
theorem writeRawMemStoresCell : Obligations.WriteRawMemStoresCell := by
  intro a v s canonical
  have frame := AccessFrame.memWrite s (s.addr a) (s.srcAv v)
  refine ⟨_, rfl, fun inside => ?_, fun b other => ?_, ?_, frame.registers, frame.machine⟩
  · rw [State.cell_memWrite canonical, if_pos ⟨rfl, inside⟩]
  · rw [State.cell_memWrite canonical, if_neg fun same => other same.1]
  · rw [frame.events, oobDiags_outside_one]

/-! ## Runs of stores (O24, O25, O26) -/

theorem tokenTooWide_iff (t : Text) : tokenTooWide t = true ↔ ∃ v, intValue t = some v ∧ inInt32 v = false := by
  cases int : intValue t <;> simp [tokenTooWide, int]

theorem any_tokenTooWide_iff (ts : List Text) :
    ts.any tokenTooWide = true ↔ ∃ t ∈ ts, ∃ v, intValue t = some v ∧ inInt32 v = false := by
  simp only [List.any_eq_true, tokenTooWide_iff]

/-- Settles O24. -/
theorem writeMemStoresTokens : Obligations.WriteMemStoresTokens := by
  intro a ts s canonical
  refine ⟨fun fits => ?_, fun wide => if_pos ((any_tokenTooWide_iff ts).mpr wide)⟩
  intro cells
  have allFit : ¬ ts.any tokenTooWide = true := by
    rw [any_tokenTooWide_iff]
    rintro ⟨t, listed, v, int, wide⟩
    simp [fits t listed v int] at wide
  have written : exec (.writeMem a ts) s = .next (s.writeCells (s.addr a) cells) := if_neg allFit
  have frame := AccessFrame.writeCells s (s.addr a) cells
  exact ⟨_, written, State.cell_writeCells canonical _ _, fun b => State.cell_writeCells_outside canonical _ b _,
    frame.events, frame.registers, frame.machine⟩

/-- Settles O25. -/
theorem fillMemStoresRange : Obligations.FillMemStoresRange := by
  intro a n v s canonical
  have frame := AccessFrame.writeCells s (s.addr a) (List.replicate (s.srcAv n).toInt.toNat (s.srcAv v))
  rw [List.length_replicate] at frame
  refine ⟨_, rfl, fun b low high inside => ?_, fun b apart => ?_, frame.events, frame.registers, frame.machine⟩
  · obtain ⟨i, rfl⟩ : ∃ i : Nat, b = s.addr a + i := ⟨(b - s.addr a).toNat, by omega⟩
    have stored := State.cell_writeCells canonical (s.addr a) (List.replicate (loopCount (s.srcAv n)) (s.srcAv v)) i
      (by rw [List.length_replicate, loopCount]; omega) inside
    rw [stored, List.getElem_replicate]
  · refine State.cell_writeCells_outside canonical _ b _ ?_
    rw [List.length_replicate, loopCount]
    omega

/-- With an upward overlap the first `q - p` cells repeat: below index `q - p` the source is not written before it is read,
and every later destination cell equals the one `q - p` before it. -/
theorem cell_copyCells_repeats {s : State} (canonical : Memory.wf s.mem) {p q : Int} {n : Nat} (up : p < q)
    (inside : ∀ i < n, s.inRange (q + (i : Int)) = true) (i : Nat) (low : i < n) :
    (s.copyCells p q n).cell (q + i) = s.cell (p + ((i % (q - p).toNat : Nat) : Int)) := by
  induction i using Nat.strong_induction_on with
  | _ i ih =>
    rw [State.cell_copyCells_upwards canonical p q n up i low (inside i low)]
    obtain before | after := lt_or_ge i (q - p).toNat
    · rw [Nat.mod_eq_of_lt before]
      exact State.cell_copyCells_outside canonical p q _ n (by omega)
    · have earlier : p + (i : Int) = q + ((i - (q - p).toNat : Nat) : Int) := by omega
      rw [earlier, ih (i - (q - p).toNat) (by omega) (by omega), Nat.mod_eq_sub_mod after]

/-- Settles O26. -/
theorem copyMemCopiesForward : Obligations.CopyMemCopiesForward := by
  intro src dst n s canonical p q len
  have frame := AccessFrame.copyCells s p q len
  refine ⟨s.copyCells p q len, rfl, fun apart i low inside => ?_, fun up nonneg fits i low => ?_, fun b apart => ?_,
    frame.events, frame.registers, frame.machine⟩
  · exact State.cell_copyCells_apart canonical p q len apart i low inside
  · exact cell_copyCells_repeats canonical up (fun j hj => (State.inRange_iff s _).mpr (by omega)) i low
  · exact State.cell_copyCells_outside canonical p q b len apart

/-! ## Comparisons (O27, O28, O29) -/

/-- Settles O27. -/
theorem cmpMemFindsFirstDifference : Obligations.CmpMemFindsFirstDifference := by
  intro a b n s p q len
  obtain ⟨k, order, reads⟩ := s.compareCells_spec p q len
  obtain ⟨flags, events, facets, machine⟩ := (AccessFrame.of_reads reads).signFlags (s.compareCells p q len).1
  exact ⟨_, k, _, rfl, order, flags, events, facets, machine,
    (MemoryKept.of_reads reads).trans (OnlyRegisters.of_regs _ _).memory⟩

/-- Settles O28: some cell within the bound of the scan is null, so the scan ends at it or before. -/
theorem cmpStrOrdersStrings : Obligations.CmpStrOrdersStrings := by
  intro a b s p q
  obtain ⟨k, order, reads⟩ := s.compareText_spec p q s.scanBound (s.null_within p)
  obtain ⟨flags, events, facets, machine⟩ := (AccessFrame.of_reads reads).signFlags (s.compareText p q s.scanBound).1
  exact ⟨_, k, _, rfl, order, flags, events, facets, machine,
    (MemoryKept.of_reads reads).trans (OnlyRegisters.of_regs _ _).memory⟩

/-- The order of two strings depends on their cells up to the end of the comparison only. -/
theorem stringOrder_congr {x y x' y' : Nat → Word} {k : Nat} {r : Int} (first : ∀ i ≤ k, x i = x' i)
    (second : ∀ i ≤ k, y i = y' i) (order : StringOrder x y k r) : StringOrder x' y' k r := by
  obtain ⟨below, atEnd⟩ := order
  refine ⟨fun i low => ?_, ?_⟩
  · rw [← first i low.le, ← second i low.le]
    exact below i low
  · rwa [← first k le_rfl, ← second k le_rfl]

/-- A comparison ends no later than a null cell of the second string. -/
theorem end_le_of_null {x y : Nat → Word} {k n : Nat} {r : Int} (order : StringOrder x y k r) (null : y n = 0) : k ≤ n := by
  by_contra beyond
  obtain ⟨same, nonzero⟩ := order.1 n (not_le.mp beyond)
  exact nonzero (same.trans null)

/-- The cells of a literal string: its code points, then a null cell (45_memory_ops R316). -/
def literalCells (l : Text) : List Word := l.map charCode ++ [0]

theorem length_literalCells (l : Text) : (literalCells l).length = l.length + 1 := by simp [literalCells]

theorem literalCells_end (l : Text) : (literalCells l).getD l.length 0 = 0 := by simp [literalCells]

section
variable {s : State} {l : Text}

theorem reservedBase_nonneg (inv : s.Inv) : 0 ≤ s.reservedBase := by
  obtain ⟨-, -, fits, -⟩ := inv.params
  rw [State.reservedBase]
  omega

/-- Every address of the reserved region is in range (10_state R71). -/
theorem inRange_reserved (inv : s.Inv) {i : Nat} (low : i < s.params.reservedSize) :
    s.inRange (s.reservedBase + i) = true := by
  have nonneg := reservedBase_nonneg inv
  have base : s.reservedBase = (s.params.memSize : Int) - s.params.reservedSize := rfl
  exact (State.inRange_iff s _).mpr (by omega)

theorem outside_reserved (inv : s.Inv) {n : Nat} (fits : n ≤ s.params.reservedSize) :
    s.outside s.reservedBase n = 0 :=
  State.outside_eq_zero fun _ low => inRange_reserved inv (low.trans_le fits)

/-- What a cell reads while the literal stands in the reserved region. -/
theorem cell_placed (inv : s.Inv) (fits : l.length + 1 ≤ s.params.reservedSize) (b : Int) :
    (s.writeCells s.reservedBase (literalCells l)).cell b =
      if s.reservedBase ≤ b ∧ b < s.reservedBase + (literalCells l).length then
        (literalCells l).getD (b - s.reservedBase).toNat 0
      else s.cell b := by
  rw [← length_literalCells] at fits
  split
  · next within =>
    obtain ⟨i, rfl⟩ : ∃ i : Nat, b = s.reservedBase + i := ⟨(b - s.reservedBase).toNat, by omega⟩
    have low : i < (literalCells l).length := by omega
    have index : (s.reservedBase + (i : Int) - s.reservedBase).toNat = i := by omega
    rw [State.cell_writeCells inv.mem _ _ i low (inRange_reserved inv (low.trans_le fits)), index,
      List.getD_eq_getElem _ _ low]
  · next apart => exact State.cell_writeCells_outside inv.mem _ b _ (by omega)

/-- The comparison against the placed literal (45_memory_ops R316): it ends within the literal and its null cell, so it
reads nothing out of range there. -/
theorem compareText_placed (inv : s.Inv) (fits : l.length + 1 ≤ s.params.reservedSize) (p : Int) :
    let placed := s.writeCells s.reservedBase (literalCells l)
    let compared := placed.compareText p s.reservedBase s.scanBound
    ∃ k, StringOrder (fun i => placed.cell (p + i)) (fun i => (literalCells l).getD i 0) k compared.1 ∧
      compared.2 = placed.oob (s.outside p (k + 1)) := by
  intro placed compared
  have params : placed.params = s.params := State.params_writeCells ..
  have bound : placed.scanBound = s.scanBound := by rw [State.scanBound, params, State.scanBound]
  obtain ⟨k, order, reads⟩ := placed.compareText_spec p s.reservedBase s.scanBound (bound ▸ placed.null_within p)
  have at_literal {i : Nat} (low : i ≤ l.length) :
      placed.cell (s.reservedBase + i) = (literalCells l).getD i 0 := by
    have within := length_literalCells l
    rw [cell_placed inv fits, if_pos (by omega), show (s.reservedBase + (i : Int) - s.reservedBase).toNat = i by omega]
  have ends : k ≤ l.length := end_le_of_null order ((at_literal le_rfl).trans (literalCells_end l))
  refine ⟨k, stringOrder_congr (fun _ _ => rfl) (fun i low => at_literal (low.trans ends)) order, ?_⟩
  rw [State.outside_congr params, State.outside_congr params, outside_reserved inv (n := k + 1) (by omega),
    add_zero] at reads
  exact reads

/-- After the scrub the reserved region is 0, and every cell below is as before. -/
theorem cell_scrubbed {u : State} (canonical : Memory.wf u.mem) (params : u.params = s.params) (b : Int) :
    (s.reservedBase ≤ b → (u.writeCells s.reservedBase (List.replicate s.params.reservedSize 0)).cell b = 0) ∧
      (b < s.reservedBase → (u.writeCells s.reservedBase (List.replicate s.params.reservedSize 0)).cell b = u.cell b) := by
  refine ⟨fun above => ?_, fun below => State.cell_writeCells_outside canonical _ b _ (.inl below)⟩
  cases inside : u.inRange b with
  | false => exact cell_of_outOfRange ((State.inRange_congr (State.params_writeCells ..) b).trans inside)
  | true =>
    obtain ⟨i, rfl⟩ : ∃ i : Nat, b = s.reservedBase + i := ⟨(b - s.reservedBase).toNat, by omega⟩
    have high := ((State.inRange_iff u _).mp inside).2
    rw [params, State.reservedBase] at high
    rw [State.cell_writeCells canonical _ _ i (by rw [List.length_replicate]; omega) inside, List.getElem_replicate]

end

/-- Settles O29: the literal is placed, compared and scrubbed, each an access that leaves the registers. -/
theorem cmpStrLiteralScrubsReserved : Obligations.CmpStrLiteralScrubsReserved := by
  intro a l s inv base lit placedCell
  refine ⟨fun fits => ?_, fun tooLong => if_pos tooLong⟩
  let placed := s.writeCells s.reservedBase (literalCells l)
  let compared := placed.compareText (s.addr a) s.reservedBase s.scanBound
  let scrubbed := compared.2.writeCells s.reservedBase (List.replicate s.params.reservedSize 0)
  have answered : exec (.cmpStr a (.literal l)) s = .next (scrubbed.signFlags compared.1) := by
    have fit : ¬ s.params.reservedSize < l.length + 1 := not_lt.mpr fits
    simp only [exec, execCmpStr, if_neg fit]
    rfl
  obtain ⟨k, order, reads⟩ : ∃ k, StringOrder _ _ k compared.1 ∧ compared.2 = placed.oob (s.outside (s.addr a) (k + 1)) :=
    compareText_placed inv fits (s.addr a)
  have placing : AccessFrame s placed 0 := by
    have frame := AccessFrame.writeCells s s.reservedBase (literalCells l)
    rwa [length_literalCells, outside_reserved inv fits] at frame
  have comparing : AccessFrame placed compared.2 _ := .of_reads reads
  have params : compared.2.params = s.params := (placing.trans comparing).machine.program.params
  have scrubbing : AccessFrame compared.2 scrubbed 0 := by
    have frame := AccessFrame.writeCells compared.2 s.reservedBase (List.replicate s.params.reservedSize 0)
    rwa [List.length_replicate, State.outside_congr params, outside_reserved inv le_rfl] at frame
  have frame := (placing.trans comparing).trans scrubbing
  rw [zero_add, add_zero] at frame
  obtain ⟨flags, events, facets, machine⟩ := frame.signFlags compared.1
  have canonical : Memory.wf compared.2.mem := reads ▸ State.wf_writeCells inv.mem _ _
  refine ⟨_, k, compared.1, answered, ?_, flags, fun b above => ?_, fun b below => ?_, events, facets, machine⟩
  · exact stringOrder_congr (fun i _ => cell_placed inv fits _) (fun _ _ => rfl) order
  · exact (cell_scrubbed canonical params b).1 above
  · have unplaced : placed.cell b = s.cell b := State.cell_writeCells_outside inv.mem _ b _ (.inl below)
    exact ((cell_scrubbed canonical params b).2 below).trans ((MemoryKept.of_reads reads b).trans unplaced)

/-! ## Prints (O30) -/

/-- The Unicode scalar values, as signed cells. -/
theorem isValidChar_iff (w : Word) :
    w.toNat.isValidChar ↔ (0 ≤ w.toInt ∧ w.toInt < 0xD800) ∨ (0xE000 ≤ w.toInt ∧ w.toInt ≤ 0x10FFFF) := by
  have bound := w.isLt
  rw [Nat.isValidChar, BitVec.toInt_eq_toNat_cond]
  split <;> omega

theorem execPrintMem_eq (a : Addr) (n : SrcAv) (s : State) :
    let len := (s.srcAv n).toInt.toNat
    exec (.printMem a n) s = .next ((s.oob (s.outside (s.addr a) len)).emit
      (.writeLine (joinSpaced ((List.range len).map (fun i : Nat => dec (s.cell (s.addr a + i)).toInt))))) := by
  simp only [exec, execPrintMem, loopCount, State.readCells_spec, List.map_map]
  rfl

/-- Settles O30. -/
theorem printsReadMemoryOnly : Obligations.PrintsReadMemoryOnly := by
  refine ⟨fun w => ⟨fun scalar => ?_, fun noScalar => ?_⟩, fun a s => ⟨fun n => execPrintMem_eq a n s, ?_⟩⟩
  · have valid := (isValidChar_iff w).mpr scalar
    refine ⟨Char.ofNat w.toNat, by rw [cellChar, if_pos valid], ?_⟩
    have bound := w.isLt
    rw [Char.toNat_ofNat, if_pos valid, BitVec.toInt_eq_toNat_cond]
    rw [Nat.isValidChar] at valid
    split <;> omega
  · have invalid := mt (isValidChar_iff w).mp noScalar
    exact ⟨Char.ofNat 0xFFFD, by rw [cellChar, if_neg invalid], rfl⟩
  · obtain ⟨m, before, null, scanned⟩ := s.scanText_spec (s.addr a) s.scanBound (s.null_within (s.addr a))
    refine ⟨m, before, null, ?_⟩
    simp only [exec, execPrintStr, scanned]
    rfl

end Sys2Proof.Proofs

namespace Sys2Proof.Proofs
open Sys2Proof Sys2Proof.Machine

/-! ## Arity (O52)

No operand kind fails with E_ARITY, so a row does exactly where its argument list has no shape for the count. -/

/-- The answer is not E_ARITY. -/
def NotArity {α : Type} (x : Except DiagCode α) : Prop := x ≠ .error .arity

theorem NotArity.ok {α : Type} (a : α) : NotArity (.ok a) := nofun

/-- Operands one after the other (30_encoding R154). -/
theorem NotArity.bind {α β : Type} {x : Except DiagCode α} {f : α → Except DiagCode β} (first : NotArity x)
    (rest : ∀ a, NotArity (f a)) : NotArity (x >>= f) := by
  cases x with
  | ok a => exact rest a
  | error e => exact fun is => first (congrArg Except.error (Except.error.inj is))

theorem notArity_reg (t : Text) : NotArity (regOperand t) := by
  rw [regOperand]
  cases Reg.ofName t <;> nofun

theorem notArity_flag (t : Text) : NotArity (flagOperand t) := by
  rw [flagOperand]
  cases Flag.ofName t <;> nofun

theorem notArity_srcAv (t : Text) : NotArity (srcAvOperand t) := by
  cases int : intValue t with
  | some v => rw [srcAvOperand_of_intValue int]; split <;> nofun
  | none => cases reg : Reg.ofName t <;> simp [NotArity, srcAvOperand, int, reg]

theorem notArity_srcLv (t : Text) : NotArity (srcLvOperand t) := by
  cases int : intValue t with
  | some v => rw [srcLvOperand_of_intValue int]; split <;> nofun
  | none => cases reg : Reg.ofName t <;> simp [NotArity, srcLvOperand, int, reg]

theorem notArity_addr (t : Text) : NotArity (addrOperand t) := by
  cases int : intValue t with
  | some v => rw [addrOperand_of_intValue int]; split <;> nofun
  | none =>
    cases mem : MemLabel.ofName t with
    | some m => simp [NotArity, addrOperand, int, mem]
    | none => cases reg : Reg.ofName t <;> simp [NotArity, addrOperand, int, mem, reg]

theorem notArity_strAddr (t : Text) : NotArity (strAddrOperand t) := by
  have notArity := notArity_addr t
  rw [strAddrOperand]
  split
  · nofun
  · nofun
  · next e failed => exact fun is => notArity (failed.trans (congrArg _ (Except.error.inj is)))

/-- Exactly the argument counts that are not allowed fail with E_ARITY. -/
def ArityIs (allows : Nat → Bool) (read : List Text → Except DiagCode Instr) : Prop :=
  ∀ args, read args = .error .arity ↔ allows args.length = false

theorem iff_of_allowed {allows : Nat → Bool} {n : Nat} {x : Except DiagCode Instr} (right : NotArity x)
    (allowed : allows n = true) : x = .error .arity ↔ allows n = false :=
  iff_of_false right (by simp [allowed])

/-- Exactly `k` arguments. -/
abbrev exactly (k : Nat) (n : Nat) : Bool := decide (n = k)

/-- At least `k` arguments. -/
abbrev atLeast (k : Nat) (n : Nat) : Bool := decide (k ≤ n)

/-- `k` arguments, or one more. -/
abbrev orOneMore (k : Nat) (n : Nat) : Bool := decide (k ≤ n ∧ n ≤ k + 1)

theorem arity_argsNone (i : Instr) : ArityIs (exactly 0) (argsNone i)
  | [] => iff_of_allowed (.ok _) rfl
  | _ :: _ => by simp [argsNone]

theorem arity_argsTexts (f : List Text → Instr) : ArityIs (atLeast 0) (argsTexts f) :=
  fun _ => iff_of_allowed (.ok _) (by simp)

theorem arity_argsReg (f : Reg → Instr) : ArityIs (exactly 1) (argsReg f)
  | [] => by simp [argsReg]
  | [r] => iff_of_allowed (.bind (notArity_reg r) fun _ => .ok _) rfl
  | _ :: _ :: _ => by simp [argsReg]

theorem arity_argsRegReg (f : Reg → Reg → Instr) : ArityIs (exactly 2) (argsRegReg f)
  | [] | [_] => by simp [argsRegReg]
  | [d, s] => iff_of_allowed (.bind (notArity_reg d) fun _ => .bind (notArity_reg s) fun _ => .ok _) rfl
  | _ :: _ :: _ :: _ => by simp [argsRegReg]

theorem arity_argsRegSrc (f : Reg → SrcAv → Instr) : ArityIs (exactly 2) (argsRegSrc f)
  | [] | [_] => by simp [argsRegSrc]
  | [d, x] => iff_of_allowed (.bind (notArity_reg d) fun _ => .bind (notArity_srcAv x) fun _ => .ok _) rfl
  | _ :: _ :: _ :: _ => by simp [argsRegSrc]

theorem arity_argsRegSrcLv (f : Reg → SrcLv → Instr) : ArityIs (exactly 2) (argsRegSrcLv f)
  | [] | [_] => by simp [argsRegSrcLv]
  | [d, x] => iff_of_allowed (.bind (notArity_reg d) fun _ => .bind (notArity_srcLv x) fun _ => .ok _) rfl
  | _ :: _ :: _ :: _ => by simp [argsRegSrcLv]

theorem arity_argsRegTexts (f : Reg → List Text → Instr) : ArityIs (atLeast 2) (argsRegTexts f)
  | [] | [_] => by simp [argsRegTexts]
  | r :: _ :: _ => iff_of_allowed (.bind (notArity_reg r) fun _ => .ok _) (by simp)

theorem arity_argsRegSrcSrc (f : Reg → SrcAv → SrcAv → Instr) : ArityIs (exactly 3) (argsRegSrcSrc f)
  | [] | [_] | [_, _] => by simp [argsRegSrcSrc]
  | [r, x, y] => iff_of_allowed (.bind (notArity_reg r) fun _ => .bind (notArity_srcAv x) fun _ =>
      .bind (notArity_srcAv y) fun _ => .ok _) rfl
  | _ :: _ :: _ :: _ :: _ => by simp [argsRegSrcSrc]

theorem arity_argsGvalGval (f : GArg → GArg → Instr) : ArityIs (exactly 2) (argsGvalGval f)
  | [] | [_] => by simp [argsGvalGval]
  | [_, _] => iff_of_allowed (.ok _) rfl
  | _ :: _ :: _ :: _ => by simp [argsGvalGval]

theorem arity_argsFlag (f : Flag → Instr) : ArityIs (exactly 1) (argsFlag f)
  | [] => by simp [argsFlag]
  | [x] => iff_of_allowed (.bind (notArity_flag x) fun _ => .ok _) rfl
  | _ :: _ :: _ => by simp [argsFlag]

theorem arity_argsFlagRegReg (f : Flag → Reg → Reg → Instr) : ArityIs (exactly 3) (argsFlagRegReg f)
  | [] | [_] | [_, _] => by simp [argsFlagRegReg]
  | [x, d, s] => iff_of_allowed (.bind (notArity_flag x) fun _ => .bind (notArity_reg d) fun _ =>
      .bind (notArity_reg s) fun _ => .ok _) rfl
  | _ :: _ :: _ :: _ :: _ => by simp [argsFlagRegReg]

theorem arity_argsLabel (f : Text → Instr) : ArityIs (exactly 1) (argsLabel f)
  | [] => by simp [argsLabel]
  | [_] => iff_of_allowed (.ok _) rfl
  | _ :: _ :: _ => by simp [argsLabel]

theorem arity_argsSrc (f : SrcAv → Instr) : ArityIs (exactly 1) (argsSrc f)
  | [] => by simp [argsSrc]
  | [x] => iff_of_allowed (.bind (notArity_srcAv x) fun _ => .ok _) rfl
  | _ :: _ :: _ => by simp [argsSrc]

theorem arity_argsSrcOpt (f : Option SrcAv → Instr) : ArityIs (orOneMore 0) (argsSrcOpt f)
  | [] => iff_of_allowed (.ok _) rfl
  | [x] => iff_of_allowed (.bind (notArity_srcAv x) fun _ => .ok _) rfl
  | _ :: _ :: _ => by simp [argsSrcOpt]

theorem arity_argsAddr (f : Addr → Instr) : ArityIs (exactly 1) (argsAddr f)
  | [] => by simp [argsAddr]
  | [a] => iff_of_allowed (.bind (notArity_addr a) fun _ => .ok _) rfl
  | _ :: _ :: _ => by simp [argsAddr]

theorem arity_argsAddrRegOpt (f : Addr → Option Reg → Instr) : ArityIs (orOneMore 1) (argsAddrRegOpt f)
  | [] => by simp [argsAddrRegOpt]
  | [a] => iff_of_allowed (.bind (notArity_addr a) fun _ => .ok _) rfl
  | [a, r] => iff_of_allowed (.bind (notArity_addr a) fun _ => .bind (notArity_reg r) fun _ => .ok _) rfl
  | _ :: _ :: _ :: _ => by simp [argsAddrRegOpt]

theorem arity_argsAddrSrc (f : Addr → SrcAv → Instr) : ArityIs (exactly 2) (argsAddrSrc f)
  | [] | [_] => by simp [argsAddrSrc]
  | [a, x] => iff_of_allowed (.bind (notArity_addr a) fun _ => .bind (notArity_srcAv x) fun _ => .ok _) rfl
  | _ :: _ :: _ :: _ => by simp [argsAddrSrc]

theorem arity_argsAddrTexts (f : Addr → List Text → Instr) : ArityIs (atLeast 2) (argsAddrTexts f)
  | [] | [_] => by simp [argsAddrTexts]
  | a :: _ :: _ => iff_of_allowed (.bind (notArity_addr a) fun _ => .ok _) (by simp)

theorem arity_argsAddrSrcSrc (f : Addr → SrcAv → SrcAv → Instr) : ArityIs (exactly 3) (argsAddrSrcSrc f)
  | [] | [_] | [_, _] => by simp [argsAddrSrcSrc]
  | [a, x, y] => iff_of_allowed (.bind (notArity_addr a) fun _ => .bind (notArity_srcAv x) fun _ =>
      .bind (notArity_srcAv y) fun _ => .ok _) rfl
  | _ :: _ :: _ :: _ :: _ => by simp [argsAddrSrcSrc]

theorem arity_argsAddrAddrSrc (f : Addr → Addr → SrcAv → Instr) : ArityIs (exactly 3) (argsAddrAddrSrc f)
  | [] | [_] | [_, _] => by simp [argsAddrAddrSrc]
  | [a, b, x] => iff_of_allowed (.bind (notArity_addr a) fun _ => .bind (notArity_addr b) fun _ =>
      .bind (notArity_srcAv x) fun _ => .ok _) rfl
  | _ :: _ :: _ :: _ :: _ => by simp [argsAddrAddrSrc]

theorem arity_argsAddrStr (f : Addr → StrAddr → Instr) : ArityIs (exactly 2) (argsAddrStr f)
  | [] | [_] => by simp [argsAddrStr]
  | [a, b] => iff_of_allowed (.bind (notArity_addr a) fun _ => .bind (notArity_strAddr b) fun _ => .ok _) rfl
  | _ :: _ :: _ :: _ => by simp [argsAddrStr]

theorem arity_opTableA : ∀ row ∈ opTableA, ArityIs (arityAdmits row) row.read := by
  simp only [opTableA, List.forall_mem_cons]
  exact ⟨arity_argsRegTexts .set, arity_argsRegSrc .setAV, arity_argsRegSrcLv .setLV, arity_argsRegReg .mov,
    arity_argsRegReg .movv, arity_argsRegSrc .add, arity_argsRegSrc .sub, arity_argsRegSrc .mul, arity_argsRegSrc .div,
    arity_argsRegSrc .mod, arity_argsRegSrc .shl, arity_argsRegSrc .shr, arity_argsRegSrc .and, arity_argsRegSrc .or,
    arity_argsRegSrc .xor, arity_argsReg .not, nofun⟩

theorem arity_opTableB : ∀ row ∈ opTableB, ArityIs (arityAdmits row) row.read := by
  simp only [opTableB, List.forall_mem_cons]
  exact ⟨arity_argsRegSrc .cmp, arity_argsGvalGval .cmpv, arity_argsFlag .setflag, arity_argsFlag .clearflag,
    arity_argsLabel .jmp, arity_argsLabel .jz, arity_argsLabel .jnz, arity_argsLabel .jn, arity_argsLabel .jnn,
    arity_argsLabel .jp, arity_argsLabel .jnp, arity_argsLabel .jf, arity_argsLabel .jnf, arity_argsLabel .jo,
    arity_argsLabel .jno, arity_argsLabel .call, arity_argsNone .ret, arity_argsLabel .loop, arity_argsSrcOpt .exit,
    arity_argsSrc .push, arity_argsReg .pop, nofun⟩

theorem arity_opTableC : ∀ row ∈ opTableC, ArityIs (arityAdmits row) row.read := by
  simp only [opTableC, List.forall_mem_cons]
  exact ⟨arity_argsAddrRegOpt .readMem, arity_argsAddrSrc .writeRawMem, arity_argsAddrTexts .writeMem,
    arity_argsAddrSrcSrc .fillMem, arity_argsAddrAddrSrc .copyMem, arity_argsAddrAddrSrc .cmpMem,
    arity_argsAddrStr .cmpStr, arity_argsAddrSrc .printMem, arity_argsAddr .printStr, arity_argsReg .read,
    arity_argsReg .readKey, arity_argsTexts .write, arity_argsTexts .writeln, arity_argsReg .writeAV,
    arity_argsReg .writeLV, arity_argsReg .writeFV, arity_argsReg .writeVal, arity_argsNone .dump, arity_argsSrc .sleep,
    arity_argsRegSrcSrc .rand, arity_argsReg .os, arity_argsNone .beep, arity_argsFlagRegReg .cmovf,
    arity_argsNone .brk, nofun⟩

/-- Settles O52: every row has one of the shapes above, with the argument counts of its entry in the table. -/
theorem arityDecidesFirst : Obligations.ArityDecidesFirst := by
  intro row listed
  rw [opTable, List.mem_append, List.mem_append] at listed
  obtain (inA | inB) | inC := listed
  · exact arity_opTableA row inA
  · exact arity_opTableB row inB
  · exact arity_opTableC row inC

/-- Settles O51. -/
theorem writtenLinesDecode : Obligations.WrittenLinesDecode := by
  unfold Obligations.WrittenLinesDecode
  decide +kernel

end Sys2Proof.Proofs

namespace Sys2Proof.Proofs
open Sys2Proof Sys2Proof.Machine

/-! ## Substitution (O55; 30_encoding R126, R127) -/

section
variable (table : List (Text × Text))

/-- Text outside a placeholder is kept. -/
theorem substScan_append {a : Text} (plain : .scalar '%' ∉ a) (rest : Text) :
    substScan table none (a ++ rest) = a ++ substScan table none rest := by
  induction a with
  | nil => rfl
  | cons c cs ih =>
    obtain ⟨other, tail⟩ := not_or.mp (mt List.mem_cons.mpr plain)
    rw [List.cons_append, substScan, if_neg (Ne.symm other), ih tail, List.cons_append]

/-- Inside a placeholder the characters are gathered, last first. -/
theorem substScan_gather (seen : Text) {n : Text} (plain : .scalar '%' ∉ n) (rest : Text) :
    substScan table (some seen) (n ++ rest) = substScan table (some (n.reverse ++ seen)) rest := by
  induction n generalizing seen with
  | nil => rfl
  | cons c cs ih =>
    obtain ⟨other, tail⟩ := not_or.mp (mt List.mem_cons.mpr plain)
    rw [List.cons_append, substScan, if_neg (Ne.symm other), ih (c :: seen) tail, List.reverse_cons, List.append_assoc,
      List.singleton_append]

theorem substScan_open (rest : Text) : substScan table none (.scalar '%' :: rest) = substScan table (some []) rest := by
  rw [substScan, if_pos rfl]

theorem substScan_close (seen rest : Text) :
    substScan table (some seen) (.scalar '%' :: rest) =
      placeholderValue table seen.reverse ++ substScan table none rest := by
  rw [substScan, if_pos rfl]

/-- A placeholder becomes its value, and the scan goes on after it. -/
theorem substScan_placeholder {n : Text} (plain : .scalar '%' ∉ n) (rest : Text) :
    substScan table none (.scalar '%' :: n ++ .scalar '%' :: rest) =
      placeholderValue table n ++ substScan table none rest := by
  rw [List.cons_append, substScan_open, substScan_gather table [] plain, substScan_close, List.append_nil,
    List.reverse_reverse]

/-- An opening delimiter with no close is dropped alone. -/
theorem substScan_unclosed {n : Text} (plain : .scalar '%' ∉ n) : substScan table none (.scalar '%' :: n) = n := by
  have gathered := substScan_gather table [] plain []
  rw [List.append_nil, List.append_nil] at gathered
  rw [substScan_open, gathered, substScan, List.reverse_reverse]

end

/-- Settles O55. -/
theorem substitutionScansOnce : Obligations.SubstitutionScansOnce := by
  refine ⟨fun _ _ => rfl, fun table a n b plainA plainN => ⟨?_, ?_, ?_, fun absent => ?_,
    fun before v after entry first => ?_⟩⟩
  · simpa [substScan] using substScan_append table plainA []
  · rw [List.append_assoc, substScan_append table plainA, substScan_placeholder table plainN, List.append_assoc]
  · rw [substScan_append table plainA, substScan_unclosed table plainN]
  · rw [placeholderValue, find?_of_absent absent]
    rfl
  · rw [placeholderValue, entry, find?_of_first first]
    rfl

/-! ## The toolchain's steps (O59; 30_encoding R121 to R125) -/

theorem firstWord_eq_importWord_iff (l : Text) : firstWord l = importWord ↔ ∃ r, OpensWith l "#import".toText r := by
  constructor
  · intro same
    have nonempty : firstWord l ≠ [] := by rw [same]; exact List.cons_ne_nil _ _
    have opens : OpensWith l (firstWord l) (afterFirstWord l) := opensWith_firstWord nonempty
    exact ⟨_, same ▸ opens⟩
  · rintro ⟨r, opens⟩
    exact (firstWord_eq opens).1

/-- Any line but an import line stays. -/
theorem resolveImports_of_other (files : Loader) {l : Text} (other : firstWord l ≠ importWord) (ls : List Text) :
    resolveImports files (l :: ls) = (l :: (resolveImports files ls).1, (resolveImports files ls).2) := by
  rw [resolveImports]
  exact if_neg other

theorem resolveImports_of_found {files : Loader} {l : Text} {lines : List Text} (isImport : firstWord l = importWord)
    (found : files.find (importPath l) = some lines) (ls : List Text) :
    resolveImports files (l :: ls) = (lines ++ (resolveImports files ls).1, (resolveImports files ls).2) := by
  simp only [resolveImports, if_pos isImport, found]

theorem resolveImports_of_missing {files : Loader} {l : Text} (isImport : firstWord l = importWord)
    (missing : files.find (importPath l) = none) (ls : List Text) :
    resolveImports files (l :: ls) = ((resolveImports files ls).1, .missingImport :: (resolveImports files ls).2) := by
  simp only [resolveImports, if_pos isImport, missing]

theorem Loader.find_of_first {before after : Loader} {p : Text} {lines : List Text} (first : ∀ f ∈ before, f.1 ≠ p) :
    Machine.Loader.find (before ++ (p, lines) :: after) p = some lines := by
  rw [Machine.Loader.find, find?_of_first first]
  rfl

theorem Loader.find_of_absent {files : Loader} {p : Text} (absent : ∀ f ∈ files, f.1 ≠ p) : files.find p = none := by
  rw [Machine.Loader.find, Machine.find?_of_absent absent]
  rfl

/-- An import line is one by its first token, and its path is the one it spells. -/
theorem importLine_of_importsPath {l p : Text} (imports : ImportsPath l p) :
    firstWord l = importWord ∧ importPath l = p := by
  refine ⟨?_, importPath_eq imports⟩
  obtain ⟨r, -, -, opens, -⟩ := imports
  exact (firstWord_eq opens).1

/-- Steps (b) and (c) on one line. -/
theorem survivingLines_cons (l : Text) (ls : List Text) {u m : Text} (comment : BeforeComment l u) (trimmed : TrimsTo u m) :
    survivingLines (l :: ls) = if m = [] then survivingLines ls else m :: survivingLines ls := by
  have stripped : stripLine l = m := by rw [stripLine, dropComment_eq comment, trim_eq trimmed]
  rw [survivingLines, List.map_cons, stripped, List.filter_cons]
  cases m <;> rfl

/-- A line that is no definition, by its first character or as an import line. -/
theorem definitionOf_of_other {l : Text}
    (other : l.head? ≠ some (.scalar '#') ∨ ∃ r, OpensWith l "#import".toText r) : definitionOf l = none := by
  rw [← firstWord_eq_importWord_iff] at other
  refine if_neg ?_
  rintro ⟨hash, notImport⟩
  exact other.elim (· hash) notImport

/-- A line with the form of a definition: its name and its value, if it has both. -/
theorem definitionOf_of_hash {l n r v : Text} (hash : l.head? = some (.scalar '#'))
    (opens : OpensWith l (.scalar '#' :: n) r) (notImport : n ≠ "import".toText) (trimmed : TrimsTo r v) :
    definitionOf l = some (if n = [] ∨ v = [] then none else some (n, v)) := by
  obtain ⟨word, after⟩ := firstWord_eq opens
  have noImport : firstWord l ≠ importWord := by
    rw [word]
    exact fun same => notImport (List.cons_injective same)
  rw [definitionOf, if_pos ⟨hash, noImport⟩, word, after, trim_eq trimmed, List.tail_cons]
  exact (apply_ite some _ _ _).symm

section
variable (table : List (Text × Text)) {l : Text} (ls : List Text)

theorem extractDefinitions_of_other (other : definitionOf l = none) :
    extractDefinitions table (l :: ls) =
      { extractDefinitions table ls with lines := l :: (extractDefinitions table ls).lines } := by
  simp only [extractDefinitions, other]

theorem extractDefinitions_of_definition {d : Text × Text} (defines : definitionOf l = some (some d)) :
    extractDefinitions table (l :: ls) =
      { extractDefinitions (d :: table) ls with lines := l :: (extractDefinitions (d :: table) ls).lines } := by
  simp only [extractDefinitions, defines]

theorem extractDefinitions_of_malformed (malformed : definitionOf l = some none) :
    extractDefinitions table (l :: ls) =
      { extractDefinitions table ls with diags := .malformedDefinition :: (extractDefinitions table ls).diags } := by
  simp only [extractDefinitions, malformed]

end

/-! ## Load -/

section
variable {s : State} (files : Loader) (source : List Text)

theorem load_of_running (running : s.run = .running) : s.load files source = .refused .loadWhileRunning :=
  if_pos (by simp [State.isRunning, running])

theorem load_of_long (stopped : s.run ≠ .running) (long : 2 ^ 31 - 1 < (toolchain files source).lines.length) :
    s.load files source = .refused .programTooLong :=
  (if_neg (by simp [State.isRunning, stopped])).trans (if_pos long)

theorem load_of_fits (stopped : s.run ≠ .running) (fits : (toolchain files source).lines.length ≤ 2 ^ 31 - 1) :
    s.load files source = .next { s with
      irom := (toolchain files source).lines, lrom := indexLabels (toolchain files source).lines, run := .idle,
      events := s.events ++ (toolchain files source).diags.map (fun c => .diagnostic c (wrap32 (-1))) } := by
  refine ((if_neg (by simp [State.isRunning, stopped])).trans (if_neg (not_lt.mpr fits))).trans ?_
  rw [State.foldl_toolDiag]
  rfl

end

/-- Settles O59: one lemma per case of each step of the toolchain, and one per answer of a load. -/
theorem loadWritesTheProgram : Obligations.LoadWritesTheProgram := by
  refine ⟨fun _ _ => rfl, fun files => ⟨rfl, fun l ls => ⟨fun noImport => ?_, fun p imports => ?_⟩⟩,
    ⟨rfl, fun l ls _ _ => survivingLines_cons l ls⟩,
    fun table => ⟨rfl, fun l ls => ⟨fun other => ?_, fun n r v hash opens notImport trimmed => ?_⟩⟩,
    fun _ files source => ⟨load_of_fits files source, load_of_long files source, load_of_running files source⟩⟩
  · have other : firstWord l ≠ importWord := mt (firstWord_eq_importWord_iff l).mp (not_exists.mpr noImport)
    exact resolveImports_of_other files other ls
  · obtain ⟨isImport, path⟩ := importLine_of_importsPath imports
    refine ⟨fun before lines after entry first => ?_, fun absent => ?_⟩
    · exact resolveImports_of_found isImport (by rw [path, entry]; exact Loader.find_of_first first) ls
    · exact resolveImports_of_missing isImport (by rw [path]; exact Loader.find_of_absent absent) ls
  · exact extractDefinitions_of_other table ls (definitionOf_of_other other)
  · have form := definitionOf_of_hash hash opens notImport trimmed
    refine ⟨fun named valued => extractDefinitions_of_definition table ls ?_,
      fun malformed => extractDefinitions_of_malformed table ls ?_⟩
    · rw [form, if_neg (not_or.mpr ⟨named, valued⟩)]
    · rw [form, if_pos malformed]

end Sys2Proof.Proofs

namespace Sys2Proof.Proofs
open Sys2Proof Sys2Proof.Machine

/-! ## Construction (O44, O57) -/

/-- Settles O44. -/
theorem resetMeetsInvariant : Obligations.ResetMeetsInvariant where
  params := by decide
  mem := Memory.wf_reset
  memInRange := nofun
  stack := nofun
  irom := Nat.zero_le _
  labels := nofun
  labelNames := List.nodup_nil
  reservedBit r := by rw [State.reg_reset]; rfl

/-- Settles O57. -/
theorem constructionLeavesReset : Obligations.ConstructionLeavesReset := by
  refine ⟨State.reg_reset, rfl, rfl, rfl, fun a => ?_, rfl, rfl, rfl, rfl, rfl⟩
  rw [State.cell]
  split <;> rfl

/-! ## Start (O58) -/

/-- A run of stores to a canonical memory: its cells where they stand, and the old cells elsewhere. -/
theorem read_writeList {m : Memory} (canonical : Memory.wf m) (a : Nat) (ws : List Word) (b : Nat) :
    Memory.read (Memory.writeList m a ws) b = (if a ≤ b then ws[b - a]? else none).getD (Memory.read m b) := by
  induction ws generalizing m a with
  | nil => simp [Memory.writeList]
  | cons w ws ih =>
    rw [Memory.writeList, ih (Memory.wf_write canonical a w), Memory.read_write canonical]
    obtain below | rfl | above := lt_trichotomy b a
    · simp [below.ne, not_le.mpr below, show ¬ a + 1 ≤ b by omega]
    · simp
    · have index : b - a = b - (a + 1) + 1 := by omega
      simp [above.ne', above.le, show a + 1 ≤ b by omega, index]

theorem mem_writeList {m : Memory} {a : Nat} {ws : List Word} {c : Nat × Word} (listed : c ∈ Memory.writeList m a ws) :
    c ∈ m ∨ c.1 < a + ws.length := by
  induction ws generalizing m a with
  | nil => exact .inl listed
  | cons w ws ih =>
    rw [List.length_cons]
    obtain written | later := ih listed
    · obtain rfl | old := Memory.mem_write written
      · exact .inr (by show a < _; omega)
      · exact .inl old
    · exact .inr (by omega)

theorem wf_nil : Memory.wf [] := ⟨List.Pairwise.nil, nofun⟩

/-- Initialized memory holds the text seed, and 0 after it (20_memory R104). -/
theorem read_seededMemory (p : Config.Params) (b : Nat) : Memory.read (seededMemory p) b = (p.textSeed[b]?).getD 0 := by
  rw [seededMemory, read_writeList wf_nil, if_pos b.zero_le, Nat.sub_zero]
  rfl

theorem seededMemory_bounded {p : Config.Params} (wf : p.wf) :
    Memory.wf (seededMemory p) ∧ ∀ c ∈ seededMemory p, c.1 < p.memSize := by
  obtain ⟨-, -, fits, -⟩ := wf
  refine ⟨Memory.wf_writeList wf_nil _ _, fun c listed => ?_⟩
  obtain old | low := mem_writeList listed
  · cases old
  · omega

/-- The state a start leaves. -/
def started (s : State) (memInit : Bool) : State :=
  { s.setPc 0 with
    mem := if memInit || s.firstRun then seededMemory s.params else s.mem, firstRun := false, run := .running }

theorem start_of_stopped {s : State} (stopped : s.run ≠ .running) (memInit : Bool) :
    s.start memInit = .next (started s memInit) :=
  if_neg (by simp [State.isRunning, stopped])

theorem start_of_running {s : State} (running : s.run = .running) (memInit : Bool) :
    s.start memInit = .refused .startWhileRunning :=
  if_pos (by simp [State.isRunning, running])

@[simp] theorem reg_started (s : State) (memInit : Bool) (q : Reg) : (started s memInit).reg q = (s.setPc 0).reg q := rfl

theorem pc_started (s : State) (memInit : Bool) : (started s memInit).pc = 0 := State.pc_setPc s 0

section
variable {s : State} {memInit : Bool}

/-- After an initialization a cell in range holds its seed, or 0. -/
theorem cell_started (seeds : memInit = true ∨ s.firstRun = true) (a : Int) :
    (started s memInit).cell a = if s.inRange a then (s.params.textSeed[a.toNat]?).getD 0 else 0 := by
  have seeded : (started s memInit).mem = seededMemory s.params := if_pos (by simpa using seeds)
  rw [State.cell, seeded, read_seededMemory]
  rfl

theorem cell_started_seed (wf : s.params.wf) (seeds : memInit = true ∨ s.firstRun = true) (i : Nat)
    (low : i < s.params.textSeed.length) : (started s memInit).cell i = s.params.textSeed[i] := by
  obtain ⟨-, -, fits, -⟩ := wf
  have inside : s.inRange i = true := (State.inRange_iff s _).mpr (by omega)
  rw [cell_started seeds, if_pos inside, Int.toNat_natCast, List.getElem?_eq_getElem low, Option.getD_some]

theorem cell_started_rest (seeds : memInit = true ∨ s.firstRun = true) (a : Int)
    (apart : a < 0 ∨ (s.params.textSeed.length : Int) ≤ a) : (started s memInit).cell a = 0 := by
  rw [cell_started seeds]
  split
  · next inside =>
    have nonneg := ((State.inRange_iff s a).mp inside).1
    rw [List.getElem?_eq_none (by omega), Option.getD_none]
  · rfl

theorem memoryKept_started (noInit : memInit = false) (later : s.firstRun = false) : MemoryKept s (started s memInit) :=
  .of_eq rfl (by simp [started, noInit, later])

end

/-- Settles O58. -/
theorem startInitializesTheRun : Obligations.StartInitializesTheRun := by
  intro s memInit wf
  refine ⟨fun stopped => ?_, fun running => start_of_running running memInit⟩
  refine ⟨_, start_of_stopped stopped memInit, rfl, rfl, pc_started s memInit, ?_, rfl, rfl, rfl, rfl, rfl, rfl,
    fun seeds => ⟨cell_started_seed wf seeds, cell_started_rest seeds⟩, memoryKept_started,
    fun empty => ?_⟩
  · exact (FacetsKept.setPc s 0).trans (.of_reg (reg_started s memInit) [] [] [] [])
  · have first : (started s memInit).pc.toInt = 0 := by rw [pc_started]; rfl
    have noLine : (started s memInit).irom[(started s memInit).pc.toNat]? = none := by
      have none_left : (started s memInit).irom = [] := empty
      rw [none_left]
      rfl
    exact step_of_no_line rfl first.ge noLine

/-! ## The register-file port (O60) -/

/-- Settles O60. -/
theorem unknownRegisterIdAnswersSentinel : Obligations.UnknownRegisterIdAnswersSentinel := by
  intro s id v a l f t
  refine ⟨fun unknown => ?_, fun r known => ?_⟩
  · have noReg : Reg.ofId id = none := Reg.ofId_of_ge unknown
    simp only [State.portReadVal, State.portReadAv, State.portReadLv, State.portReadFv, State.portWriteVal,
      State.portWriteAv, State.portWriteLv, State.portWriteFv, noReg]
    exact ⟨rfl, rfl, rfl, rfl, rfl, rfl, rfl, rfl⟩
  · have reg : Reg.ofId id = some r := by rw [known]; exact Reg.ofId_id r
    simp only [State.portReadVal, State.portReadAv, State.portReadLv, State.portReadFv, State.portWriteVal,
      State.portWriteAv, State.portWriteLv, State.portWriteFv, reg, and_self]

/-! ## Run control keeps the invariant (O45) -/

/-- Every label of a table is below `k`, each name once. -/
def LabelsBelow (table : List (Text × Nat)) (k : Nat) : Prop :=
  (∀ e ∈ table, e.2 < k) ∧ (table.map (fun e => e.1)).Nodup

theorem labelsBelow_nil : LabelsBelow [] 0 := ⟨nofun, List.nodup_nil⟩

theorem LabelsBelow.succ {table : List (Text × Nat)} {k : Nat} (h : LabelsBelow table k) : LabelsBelow table (k + 1) :=
  ⟨fun e listed => (h.1 e listed).trans k.lt_succ_self, h.2⟩

/-- A declaration takes the place of an earlier one of its name (30_encoding R128). -/
theorem LabelsBelow.setLabel {table : List (Text × Nat)} {k : Nat} (h : LabelsBelow table k) (name : Text) :
    LabelsBelow (setLabel table name k) (k + 1) := by
  obtain ⟨below, nodup⟩ := h
  constructor
  · intro e listed
    obtain old | new := List.mem_append.mp listed
    · exact (below e (List.mem_of_mem_filter old)).trans k.lt_succ_self
    · obtain rfl := List.mem_singleton.mp new
      exact k.lt_succ_self
  · rw [Machine.setLabel, List.map_append, List.nodup_append]
    refine ⟨nodup.sublist (List.filter_sublist.map _), List.nodup_singleton _, fun n old m new same => ?_⟩
    obtain ⟨e, kept, rfl⟩ := List.mem_map.mp old
    simp_all

theorem labelsBelow_indexFrom {table : List (Text × Nat)} {k : Nat} (h : LabelsBelow table k) (lines : List Text) :
    LabelsBelow (indexFrom table k lines) (k + lines.length) := by
  induction lines generalizing table k with
  | nil => exact h
  | cons l ls ih =>
    rw [indexFrom, List.length_cons, show k + (ls.length + 1) = k + 1 + ls.length by omega]
    split
    · exact ih (h.setLabel _)
    · exact ih h.succ

theorem labelsBelow_indexLabels (lines : List Text) : LabelsBelow (indexLabels lines) lines.length := by
  simpa [indexLabels] using labelsBelow_indexFrom labelsBelow_nil lines

theorem inv_of_load {s t : State} {files : Loader} {source : List Text} (inv : s.Inv)
    (loaded : s.load files source = .next t) : t.Inv := by
  by_cases running : s.run = .running
  · rw [load_of_running files source running] at loaded
    cases loaded
  by_cases fits : (toolchain files source).lines.length ≤ 2 ^ 31 - 1
  · rw [load_of_fits files source running fits] at loaded
    cases loaded
    obtain ⟨below, nodup⟩ := labelsBelow_indexLabels (toolchain files source).lines
    exact {
      params := inv.params
      mem := inv.mem
      memInRange := inv.memInRange
      stack := inv.stack
      irom := fits
      labels := below
      labelNames := nodup
      reservedBit := inv.reservedBit }
  · rw [load_of_long files source running (not_le.mp fits)] at loaded
    cases loaded

theorem inv_started {s : State} (inv : s.Inv) (memInit : Bool) : (started s memInit).Inv := by
  have bounded : Memory.wf (started s memInit).mem ∧ ∀ c ∈ (started s memInit).mem, c.1 < s.params.memSize := by
    by_cases seeds : (memInit || s.firstRun) = true
    · have seeded : (started s memInit).mem = seededMemory s.params := if_pos seeds
      exact seeded ▸ seededMemory_bounded inv.params
    · have kept : (started s memInit).mem = s.mem := if_neg seeds
      exact kept ▸ ⟨inv.mem, inv.memInRange⟩
  exact {
    params := inv.params
    mem := bounded.1
    memInRange := bounded.2
    stack := inv.stack
    irom := inv.irom
    labels := inv.labels
    labelNames := inv.labelNames
    reservedBit := fun r => by rw [reg_started, State.fv_setPc]; exact inv.reservedBit r }

theorem inv_of_start {s t : State} {memInit : Bool} (inv : s.Inv) (answered : s.start memInit = .next t) : t.Inv := by
  by_cases running : s.run = .running
  · rw [start_of_running running] at answered
    cases answered
  · rw [start_of_stopped running] at answered
    cases answered
    exact inv_started inv memInit

section
variable {s : State} (inv : s.Inv)
include inv

theorem inv_diag (code : DiagCode) : (s.diag code).Inv := inv_of_kept inv (.of_outside s ..) inv.reservedBit

theorem inv_portWriteVal (id : Nat) (v : GVal) : (s.portWriteVal id v).Inv := by
  rw [State.portWriteVal]
  cases Reg.ofId id with
  | none => exact inv_diag inv _
  | some r => exact inv_of_kept inv (.of_outside s ..) fun q => by rw [State.fv_setVal]; exact inv.reservedBit q

theorem inv_portWriteAv (id : Nat) (v : Word) : (s.portWriteAv id v).Inv := by
  rw [State.portWriteAv]
  cases Reg.ofId id with
  | none => exact inv_diag inv _
  | some r => exact inv_of_kept inv (.of_outside s ..) fun q => by rw [State.fv_setAv]; exact inv.reservedBit q

theorem inv_portWriteLv (id : Nat) (v : Wide) : (s.portWriteLv id v).Inv := by
  rw [State.portWriteLv]
  cases Reg.ofId id with
  | none => exact inv_diag inv _
  | some r => exact inv_of_kept inv (.of_outside s ..) fun q => by rw [State.fv_setLv]; exact inv.reservedBit q

/-- The mask of the port clears bit 7 (10_state R56; log 10). -/
theorem inv_portWriteFv (id : Nat) (f : FlagBits) : (s.portWriteFv id f).Inv := by
  rw [State.portWriteFv]
  cases Reg.ofId id with
  | none => exact inv_diag inv _
  | some r =>
    refine inv_of_kept inv (.of_outside s ..) fun q => ?_
    rw [State.fv_setFv]
    split
    · simp
    · exact inv.reservedBit q

end

/-- Settles O45. -/
theorem runControlKeepsInvariant : Obligations.RunControlKeepsInvariant := fun _ inv =>
  ⟨fun _ _ _ => inv_of_load inv, fun _ _ => inv_of_start inv, fun id v a l f =>
    ⟨inv_portWriteVal inv id v, inv_portWriteAv inv id a, inv_portWriteLv inv id l, inv_portWriteFv inv id f⟩⟩

end Sys2Proof.Proofs
